-- ==== Sys2Proof/Word.lean ====
section
/-!
DEFINITION. The word types of MMVC: bytes of the two memories, narrow words of the host port and of
the adder (00_scope.md R8, `NW` = 32).
-/

namespace Sys2Proof

/-- One byte of WMEM or CROM. -/
abbrev Byte := BitVec 8

/-- A narrow word: 32 bits (00_scope.md R8, `NW`). -/
abbrev Word := BitVec 32

end Sys2Proof
end

