-- ==== Sys2Proof/Config.lean ====
section
/-!
DEFINITION. What an implementation of MMVC fixes (00_scope.md R8, R9) and the free values: every
point the spec leaves to "any value" (93_implementation_defined.md) is an opaque constant here, so
that no proof can depend on what it is.
-/

namespace Sys2Proof.Config

/-! ## Fixed parameters (00_scope.md R8) -/

/-- `W`: limbs of an Operand. -/
abbrev W : Nat := 22
/-- `L`: slots of a LongFormProduct, 2 · W − 1. -/
abbrev L : Nat := 43
/-- `LIMB_BITS`: bits of an operand limb, and the weight step of the slots (43_canonicalizer.md R98). -/
abbrev limbBits : Nat := 96
/-- `LIMB_BYTES`: bytes of an operand limb. -/
abbrev limbBytes : Nat := 12
/-- `SLOT_BYTES`: bytes of a slot. -/
abbrev slotBytes : Nat := 28
/-- `FE_BITS`: the exponent B of P = 2^B − c and the width of `mulmod`. -/
abbrev feBits : Nat := 256
/-- `FE_WORDS`: narrow words of a field element. -/
abbrev feWords : Nat := 8
/-- `ACC_WORDS`: narrow words of a checksum accumulator. -/
abbrev accWords : Nat := 9
/-- `CAN_WORDS`: narrow words of a CanonicalInteger. -/
abbrev canWords : Nat := 129
/-- `RES_WORDS`: narrow words of the result. -/
abbrev resWords : Nat := 64
/-- `OP_BYTES`: bytes of an Operand. -/
abbrev opBytes : Nat := 264
/-- `LF_BYTES`: bytes of a LongFormProduct. -/
abbrev lfBytes : Nat := 1204
/-- `WIT_BYTES`: bytes of the witness. -/
abbrev witBytes : Nat := 3200

/-! ## Open parameters (00_scope.md R9, log 9) -/

/-- What `c` is made of. DESIGN CHOICE of form, safe: nothing is known of it. -/
opaque rawC : BitVec 64
/-- What `N` is made of. DESIGN CHOICE of form, safe: nothing is known of it. -/
opaque rawN : BitVec 2048

/-- The constant c of P = 2^256 − c, 1 ≤ c < 2^64: any such number, none known (00_scope.md R9). -/
def c : BitVec 64 := if rawC = 0 then 1 else rawC
/-- The real modulus N, 0 < N < 2^2048: any such number, none known (00_scope.md R9). -/
def N : BitVec 2048 := if rawN = 0 then 1 else rawN

/-! ## Free values -/

/-- The byte of WMEM at an address that the host has not written since the given reset
(70_reset_and_hazards.md R129, 93_implementation_defined.md U1; log 6, log 7). -/
opaque wmemPowerUp : (resets addr : Nat) → Byte

/-- What a host read of a register other than STATUS returns while BUSY = 1 (20_memory.md R61, U3;
log 5), by the number of free values drawn so far. -/
opaque busyRead : (draw : Nat) → Word

/-- How many of the host's latest writes of WLEN and ZIN came after the moment at which the running
command took its inputs (20_memory.md R60 and R61 do not say; log 3). -/
opaque raceMoment : (draw : Nat) → Nat

/-- The storage of a data register that holds no value (10_state.md R21: "the storage is
unspecified", R129; log 8), by width, a number for the register, and the draws so far. -/
opaque noValue : (w reg draw : Nat) → BitVec w

/-- mulmod(x, y, 0): "no specified result" (40_word_arith.md R80, U7; log 10). -/
opaque mulmodByZero : (x y : Nat) → BitVec 256

end Sys2Proof.Config
end

