-- ==== Sys2Proof/Syntax.lean ====
section
/-!
DEFINITION. The twelve commands (30_encoding.md R67), one constructor per row of
spec/opcode_table.json. The one operand is `sel`, an unsigned 3-bit number used as it stands (R69).
-/

namespace Sys2Proof

/-- A command of MMVC (30_encoding.md R67). -/
inductive Instr where
  /-- `NOP` (45_control.md R107). -/
  | nop
  /-- `START` (45_control.md R108). -/
  | start
  /-- `LDZ` (41_challenge_ladder.md R86). -/
  | ldz
  /-- `LADDER` (41_challenge_ladder.md R87). -/
  | ladder
  /-- `ACC s` (42_checksum.md R90). -/
  | acc (sel : BitVec 3)
  /-- `RED s` (42_checksum.md R92). -/
  | red (sel : BitVec 3)
  /-- `CHK j` (42_checksum.md R95). -/
  | chk (sel : BitVec 3)
  /-- `CANON t` (43_canonicalizer.md R99). -/
  | canon (sel : BitVec 3)
  /-- `SUBX` (44_reconciler.md R103). -/
  | subx
  /-- `FRED` (44_reconciler.md R104). -/
  | fred
  /-- `FIN` (45_control.md R109). -/
  | fin
  /-- `CLR` (45_control.md R110). -/
  | clr
  deriving DecidableEq, Repr

end Sys2Proof
end

