-- ==== Sys2Proof/WellFormed.lean ====
section
/-!
DEFINITION. Which commands are legal (30_encoding.md R69): a source selector is 0 .. 5, an identity
selector and a product selector are 0 .. 1.
-/

namespace Sys2Proof

/-- The operand is one of the legal values (30_encoding.md R69). -/
def Instr.wellFormed : Instr → Bool
  | .acc sel | .red sel => decide (sel.toNat ≤ 5)
  | .chk sel | .canon sel => decide (sel.toNat ≤ 1)
  | .nop | .start | .ldz | .ladder | .subx | .fred | .fin | .clr => true

/-- A command that `Decode` can answer (30_encoding.md R70). -/
abbrev Instr.WellFormed (i : Instr) : Prop := i.wellFormed = true

end Sys2Proof
end

