-- ==== Sys2Proof/Decode.lean ====
section
/-!
DEFINITION. `Decode` of 30_encoding.md R70, total on every 32-bit word and rejecting by name (R71),
and the encoder of the same two formats (R68).
-/

namespace Sys2Proof

/-- Why a word is no command (30_encoding.md R71). -/
inductive Illegal where
  /-- Bits [31:11] are not all zero. -/
  | upperBitsNotZero
  /-- `sel` is not zero on a format-N command. -/
  | selectorOnFormatN
  /-- `sel` is out of the command's range (6, 7 on ACC and RED; 2 .. 7 on CHK and CANON). -/
  | selectorOutOfRange
  /-- `op` is 0x0C .. 0xFF. -/
  | opcodeNotAssigned
  deriving DecidableEq, Repr

/-- `op = cmd[7:0]` (30_encoding.md R68). -/
def opField (cmd : Word) : BitVec 8 := cmd.extractLsb' 0 8
/-- `sel = cmd[10:8]` (30_encoding.md R68). -/
def selField (cmd : Word) : BitVec 3 := cmd.extractLsb' 8 3
/-- `zero = cmd[31:11]` (30_encoding.md R68). -/
def zeroField (cmd : Word) : BitVec 21 := cmd.extractLsb' 11 21

/-- A format-N command: `sel` must be 0 (30_encoding.md R68). -/
def formatN (sel : BitVec 3) (i : Instr) : Except Illegal Instr :=
  if sel = 0 then .ok i else .error .selectorOnFormatN

/-- A format-S command: `sel` is the operand, at most `limit` (30_encoding.md R68, R69). -/
def formatS (sel : BitVec 3) (limit : Nat) (i : BitVec 3 → Instr) : Except Illegal Instr :=
  if sel.toNat ≤ limit then .ok (i sel) else .error .selectorOutOfRange

/-- `Decode(cmd)` (30_encoding.md R70). -/
def decode (cmd : Word) : Except Illegal Instr :=
  if zeroField cmd ≠ 0 then .error .upperBitsNotZero
  else
    let sel := selField cmd
    match (opField cmd).toNat with
    | 0x00 => formatN sel .nop
    | 0x01 => formatN sel .start
    | 0x02 => formatN sel .ldz
    | 0x03 => formatN sel .ladder
    | 0x04 => formatS sel 5 .acc
    | 0x05 => formatS sel 5 .red
    | 0x06 => formatS sel 1 .chk
    | 0x07 => formatS sel 1 .canon
    | 0x08 => formatN sel .subx
    | 0x09 => formatN sel .fred
    | 0x0A => formatN sel .fin
    | 0x0B => formatN sel .clr
    | _ => .error .opcodeNotAssigned

/-- The opcode column of 30_encoding.md R67. -/
def Instr.opcode : Instr → BitVec 8
  | .nop => 0x00
  | .start => 0x01
  | .ldz => 0x02
  | .ladder => 0x03
  | .acc _ => 0x04
  | .red _ => 0x05
  | .chk _ => 0x06
  | .canon _ => 0x07
  | .subx => 0x08
  | .fred => 0x09
  | .fin => 0x0A
  | .clr => 0x0B

/-- The `sel` field: the operand of a format-S command, 0 on format N (30_encoding.md R68). -/
def Instr.selector : Instr → BitVec 3
  | .acc sel | .red sel | .chk sel | .canon sel => sel
  | .nop | .start | .ldz | .ladder | .subx | .fred | .fin | .clr => 0

/-- The command word: `zero`, `sel`, `op` from the top down (30_encoding.md R68). -/
def encode (i : Instr) : Word := 0#21 ++ i.selector ++ i.opcode

/-- What the decoder reads from an opcode-table row's bits. A command is one 32-bit word
(30_encoding.md R68), written whole to CMD: bits above `nbits` are 0. -/
def decodeTableWord (nbits w : Nat) : Option Instr :=
  match decode (BitVec.ofNat 32 (w % 2 ^ nbits)) with
  | .ok i => some i
  | .error _ => none

end Sys2Proof
end

