-- ==== Sys2Proof/Machine/State.lean ====
section
/-!
DEFINITION. The state of MMVC: every piece that 10_state.md R20 lists, the model's own fields (the
host's accesses still to come, the command in progress, the indices of the free values), the two
reasons a step can stop, and the state after reset (70_reset_and_hazards.md R129).
-/

namespace Sys2Proof.Machine

/-- `RUNSTATE` (10_state.md R23). -/
inductive RunState where
  /-- 0: no run of the verifier; the host may load the witness. -/
  | idle
  /-- 1: a run is in progress; the witness is frozen. -/
  | active
  /-- 2: terminal, accept-with-remainder. -/
  | accept
  /-- 3: terminal, reject-with-reason. -/
  | reject
  deriving DecidableEq, Repr

/-- `CKST[s]` (10_state.md R29). "The value 3 never occurs": a three-valued type (U11). -/
inductive ChecksumState where
  /-- 0: no accumulator yet. -/
  | empty
  /-- 1: CK[s] holds the raw accumulator. -/
  | raw
  /-- 2: CK[s] holds the reduced checksum. -/
  | reduced
  deriving DecidableEq, Repr

/-- CROM (10_state.md R41), kept as the two open parameters it is made of (00_scope.md R9): its 328
bytes are the images of N, P = 2^256 − c and c (`Crom.image`). -/
structure Crom where
  /-- The constant c. -/
  c : BitVec 64
  /-- The real modulus N. -/
  n : BitVec 2048
  deriving DecidableEq, Repr

/-- WMEM: the bytes that the host has written since reset, addresses strictly rising. A byte that is
not listed holds no known value (70_reset_and_hazards.md R129); `State.wmemByte` says what it
reads as. -/
abbrev Memory := List Host.Cell

/-- A register of the host window (10_state.md R42, 20_memory.md R48). -/
inductive PortReg where
  /-- Word k of WMEM, offset 4k. -/
  | wmem (k : Fin 800)
  | cmd
  | status
  | progress
  | pc
  | errinfo
  | epc
  | ecmd
  /-- `WLENk`. -/
  | wlen (k : Fin 5)
  /-- `ZINk`. -/
  | zin (k : Fin 8)
  /-- `RESk`. -/
  | res (k : Fin 64)
  deriving DecidableEq, Repr

/-- What a host access does. The data of a write of another width than 32 bits never matters: the
access is not performed (20_memory.md R54). -/
inductive AccessKind where
  | read
  | write (data : Word)
  deriving DecidableEq, Repr

/-- One access of the host to the window: its byte offset from the base of the window (the base is
the platform's, 92_eei_decisions.md D21, log 15) and its width in bits. -/
structure HostAccess where
  kind : AccessKind
  offset : Nat
  width : Nat
  deriving DecidableEq, Repr

/-- What comes in from outside (log 1). -/
inductive PortEvent where
  /-- A host access. `whileBusy` says that the host does not wait for a running command to complete
  (log 2); a host that follows 70_reset_and_hazards.md R132 never sets it. -/
  | access (whileBusy : Bool) (a : HostAccess)
  /-- The platform applies and releases reset (70_reset_and_hazards.md R128). -/
  | reset
  deriving DecidableEq, Repr

/-- Why the machine stops. No command stops for a CROM that 00_scope.md R9 allows: each of these is
a case that the spec proves away and asks to be kept visible (40_word_arith.md R79). -/
inductive Fault where
  /-- A carry out of the last word of `addw_9` in ACC or RED or of `addw_8` in CANON
  (93_implementation_defined.md U9). Raised by `execAcc`, `execRed`, `execCanon`; never reached.
  Safe: the model stops rather than drop a carry. -/
  | carryLost
  /-- The overflow word is still not zero after two folds (U10). Raised by `execRed`; reached only
  with a CROM whose c is 0. Safe: the model stops. -/
  | foldUnfinished
  deriving DecidableEq, Repr

/-- Why a command has no meaning here. No meaning of this model refuses. -/
inductive Refusal where
  /-- The command has no meaning yet. Raised by an arm of `exec`; safe. No arm raises it. -/
  | notModelled (mnemonic : String)
  deriving DecidableEq, Repr

/-- The state of MMVC. -/
structure State where
  /-- `RUNSTATE`, 2 bits (10_state.md R23). -/
  runstate : RunState
  /-- `BUSY` (R24). -/
  busy : Bool
  /-- `PC`, the count of completed commands (R25). -/
  pc : Word
  /-- `ERR` (R28). -/
  err : BitVec 4
  /-- `ERRINFO` (R28). -/
  errinfo : Word
  /-- `EPC` (R28). -/
  epc : Word
  /-- `ECMD` (R28). -/
  ecmd : Word
  /-- `CF`, the borrow flag (R26). -/
  cf : Bool
  /-- `OVR`, sticky (R27). -/
  ovr : Bool
  /-- `BERR`, sticky (R27). -/
  berr : Bool
  /-- `ZV` (R29). -/
  zv : Bool
  /-- `PLV` (R29). -/
  plv : Bool
  /-- `CKST[0..5]` (R29). -/
  ckst : Vector ChecksumState 6
  /-- `CHKOK[0..1]` (R29). -/
  chkok : Vector Bool 2
  /-- `CANV[0..1]` (R29). -/
  canv : Vector Bool 2
  /-- `DV` (R29). -/
  dv : Bool
  /-- `RV` (R29). -/
  rv : Bool
  /-- `WLEN[0..4]` (R30). -/
  wlen : Vector Word 5
  /-- `ZIN`, 256 bits, as its narrow words ZIN0 .. ZIN7 (R31). -/
  zin : Vector Word 8
  /-- `Z`, or no value (R21, R32). -/
  z : Option (BitVec 256)
  /-- `PL[0..42]`, or no value (R21, R33). -/
  pl : Option (Vector (BitVec 256) 43)
  /-- `CK[0..5]`, each or no value (R21, R34). -/
  ck : Vector (Option (BitVec 288)) 6
  /-- `CAN[0..1]`, each or no value (R21, R35). -/
  can : Vector (Option (BitVec 4128)) 2
  /-- `D`, or no value (R21, R36). -/
  d : Option (BitVec 4128)
  /-- `R`, or no value (R21, R37). -/
  r : Option (BitVec 2048)
  /-- `CARRY`, or no value (R21, R38). -/
  carry : Option (BitVec 160)
  /-- `WMEM`, 3200 bytes (R40). -/
  wmem : Memory
  /-- `CROM`, 328 bytes (R41). -/
  crom : Crom
  /-- The model's own: the word of the running command, read only while BUSY = 1 (log 2). -/
  cmd : Word
  /-- The model's own: OVR as it was before the running command, read only while BUSY = 1
  (20_memory.md R61, log 4). -/
  ovrBefore : Bool
  /-- The model's own: BERR as it was before the running command, read only while BUSY = 1
  (20_memory.md R61, log 4). -/
  berrBefore : Bool
  /-- The model's own: the writes of WLEN and ZIN performed while the running command runs, latest first,
  each with the word it displaced (log 3). -/
  raced : List (PortReg × Word)
  /-- The model's own: what the host and the platform do next, oldest first (log 1). -/
  port : List PortEvent
  /-- The model's own: the word that the last host read returned (log 5). -/
  rdata : Word
  /-- The model's own: the resets applied so far, an index of the free bytes of WMEM (log 7). -/
  resets : Nat
  /-- The model's own: an index of the free values of reads and races (log 3, log 5, log 8). -/
  draws : Nat
  deriving DecidableEq, Repr

/-- The machine right after reset (70_reset_and_hazards.md R129). Data registers hold no value, WMEM
lists nothing (every byte is any value), CROM holds the open parameters. -/
def State.reset : State where
  runstate := .idle
  busy := false
  pc := 0
  err := 0
  errinfo := 0
  epc := 0
  ecmd := 0
  cf := false
  ovr := false
  berr := false
  zv := false
  plv := false
  ckst := Vector.replicate 6 .empty
  chkok := Vector.replicate 2 false
  canv := Vector.replicate 2 false
  dv := false
  rv := false
  wlen := Vector.replicate 5 0
  zin := Vector.replicate 8 0
  z := none
  pl := none
  ck := Vector.replicate 6 none
  can := Vector.replicate 2 none
  d := none
  r := none
  carry := none
  wmem := []
  crom := ⟨Config.c, Config.N⟩
  cmd := 0
  ovrBefore := false
  berrBefore := false
  raced := []
  port := []
  rdata := 0
  resets := 0
  draws := 0

end Sys2Proof.Machine
end

