-- ==== Sys2Proof/Machine/Arith.lean ====
section
/-!
DEFINITION. Fixed-width word arithmetic (40_word_arith.md): the one-word adder and subtractor, their
ripple over n narrow words, and `mulmod`. Multiword values are natural numbers (00_scope.md R11, R13);
a carry or a borrow is always returned, never dropped (R79).
-/

namespace Sys2Proof.Machine

/-- word(X, k) = X[32k+31 : 32k] (00_scope.md R13). -/
def wordAt (x k : Nat) : Word := BitVec.ofNat 32 (x / 2 ^ (32 * k))

/-- The number whose narrow words 0 .. n − 1 are f 0 .. f (n − 1) (00_scope.md R13). -/
def ofWords (f : Nat → Word) : Nat → Nat
  | 0 => 0
  | n + 1 => ofWords f n + (f n).toNat * 2 ^ (32 * n)

/-- The little-endian number of the n bytes f 0 .. f (n − 1) (20_memory.md R49). -/
def ofBytes (f : Nat → Byte) : Nat → Nat
  | 0 => 0
  | n + 1 => ofBytes f n + (f n).toNat * 2 ^ (8 * n)

/-- Add with carry (40_word_arith.md R75). -/
def adc32 (x y : Word) (cin : Bool) : Word × Bool :=
  let t := x.toNat + y.toNat + cin.toNat
  (BitVec.ofNat 32 (t % 2 ^ 32), decide (t / 2 ^ 32 = 1))

/-- Subtract with borrow (40_word_arith.md R76). -/
def sbb32 (x y : Word) (bin : Bool) : Word × Bool :=
  if y.toNat + bin.toNat ≤ x.toNat then
    (BitVec.ofNat 32 (x.toNat - y.toNat - bin.toNat), false)
  else
    (BitVec.ofNat 32 (x.toNat + 2 ^ 32 - y.toNat - bin.toNat), true)

/-- Ripple addition over n narrow words, word 0 first (40_word_arith.md R77). -/
def addw : (n : Nat) → (x y : Nat) → (cin : Bool) → Nat × Bool
  | 0, _, _, cin => (0, cin)
  | k + 1, x, y, cin =>
    let low := addw k x y cin
    let top := adc32 (wordAt x k) (wordAt y k) low.2
    (low.1 + top.1.toNat * 2 ^ (32 * k), top.2)

/-- Ripple subtraction over n narrow words, word 0 first (40_word_arith.md R78). -/
def subw : (n : Nat) → (x y : Nat) → (bin : Bool) → Nat × Bool
  | 0, _, _, bin => (0, bin)
  | k + 1, x, y, bin =>
    let low := subw k x y bin
    let top := sbb32 (wordAt x k) (wordAt y k) low.2
    (low.1 + top.1.toNat * 2 ^ (32 * k), top.2)

/-- The modular multiplication primitive (40_word_arith.md R80): the canonical residue of x · y. For
m = 0, which MMVC never issues, there is no specified result: a free value (U7, log 10). -/
def mulmod (x y m : Nat) : Nat :=
  if m = 0 then (Config.mulmodByZero x y).toNat else x * y % m

end Sys2Proof.Machine
end

