-- ==== Sys2Proof/Machine/Operands.lean ====
section
/-!
DEFINITION. The operand of a command and what it names (00_scope.md R19): the six sources, the two
long-form products, the two identities; CROM and its parts (10_state.md R41); the element functions
over WMEM and CROM (20_memory.md R51, R52), with the byte reads under them.
-/

namespace Sys2Proof.Machine

/-! ## Selectors (00_scope.md R19) -/

/-- A source selector s. -/
inductive Source where
  | a
  | b
  | k
  | n
  | c
  | kn
  deriving DecidableEq, Repr

/-- A product selector t. -/
inductive Product where
  | c
  | kn
  deriving DecidableEq, Repr

/-- An identity selector j. -/
inductive Identity where
  /-- j = 0: checksum(A) · checksum(B) = checksum(C). -/
  | ab
  /-- j = 1: checksum(K) · checksum(N) = checksum(KN). -/
  | kn
  deriving DecidableEq, Repr

/-- The source a 3-bit selector names; 6 and 7 name none (30_encoding.md R69). -/
def Source.ofSel (sel : BitVec 3) : Option Source :=
  match sel.toNat with
  | 0 => some .a
  | 1 => some .b
  | 2 => some .k
  | 3 => some .n
  | 4 => some .c
  | 5 => some .kn
  | _ => none

/-- The identity a 3-bit selector names; 2 .. 7 name none (30_encoding.md R69). -/
def Identity.ofSel (sel : BitVec 3) : Option Identity :=
  match sel.toNat with
  | 0 => some .ab
  | 1 => some .kn
  | _ => none

/-- The product a 3-bit selector names; 2 .. 7 name none (30_encoding.md R69). -/
def Product.ofSel (sel : BitVec 3) : Option Product :=
  match sel.toNat with
  | 0 => some .c
  | 1 => some .kn
  | _ => none

/-- s as a number, the index of CK and CKST (00_scope.md R19). -/
def Source.index : Source → Fin 6
  | .a => 0
  | .b => 1
  | .k => 2
  | .n => 3
  | .c => 4
  | .kn => 5

/-- t as a number, the index of CAN and CANV (00_scope.md R19). -/
def Product.index : Product → Fin 2
  | .c => 0
  | .kn => 1

/-- The source s = 4 + t of product t (43_canonicalizer.md R99). -/
def Product.source : Product → Source
  | .c => .c
  | .kn => .kn

/-- j as a number, the index of CHKOK (00_scope.md R19). -/
def Identity.index : Identity → Fin 2
  | .ab => 0
  | .kn => 1

/-- x, the first factor of identity j (42_checksum.md R95). -/
def Identity.x : Identity → Source
  | .ab => .a
  | .kn => .k

/-- y, the second factor of identity j (42_checksum.md R95). -/
def Identity.y : Identity → Source
  | .ab => .b
  | .kn => .n

/-- w, the product of identity j (42_checksum.md R95). -/
def Identity.w : Identity → Source
  | .ab => .c
  | .kn => .kn

/-! ## CROM (10_state.md R41) -/

/-- The checksum modulus P = 2^256 − c, as the 32 bytes of CROM hold it. -/
def Crom.p (m : Crom) : BitVec 256 := BitVec.ofNat 256 (2 ^ 256 - m.c.toNat)

/-- The constant c zero-extended to 32 bytes. -/
def Crom.cc (m : Crom) : BitVec 256 := m.c.setWidth 256

/-- N in Operand form: 264 bytes; bytes 256 .. 263 are zero. -/
def Crom.nOp (m : Crom) : BitVec 2112 := m.n.setWidth 2112

/-- The 328 bytes of CROM as one little-endian number: N_OP at 0, P at 264, CC at 296. -/
def Crom.image (m : Crom) : BitVec 2624 := m.cc ++ m.p ++ m.nOp

/-- Byte a of CROM. -/
def Crom.byte (m : Crom) (a : Nat) : Byte := m.image.extractLsb' (8 * a) 8

/-- RomRead(addr, n) (00_scope.md R15). -/
def Crom.read (m : Crom) (addr n : Nat) : Nat := ofBytes (fun k => m.byte (addr + k)) n

/-- The parameters are in the range 00_scope.md R9 gives: 1 ≤ c, 0 < N. -/
def Crom.wf (m : Crom) : Bool := decide (m.c ≠ 0) && decide (m.n ≠ 0)

/-! ## WMEM (10_state.md R40, 20_memory.md R49) -/

/-- The byte that the host last wrote at an address, none if it has written none since reset. -/
def Memory.find : Memory → Nat → Option Byte
  | [], _ => none
  | (b, v) :: m, a => if b = a then some v else Memory.find m a

/-- The byte of WMEM at an address: the one the host wrote, or a free value
(70_reset_and_hazards.md R129, U1; log 6). -/
def State.wmemByte (s : State) (a : Nat) : Byte :=
  (Memory.find s.wmem a).getD (Config.wmemPowerUp s.resets a)

/-- MemRead(addr, n) (00_scope.md R15, 20_memory.md R49). No alignment requirement (R54). -/
def State.memRead (s : State) (addr n : Nat) : Nat := ofBytes (fun k => s.wmemByte (addr + k)) n

/-! ## The element functions (20_memory.md R52) -/

/-- NELEM(s). -/
def Source.nelem : Source → Nat
  | .a | .b | .k | .n => Config.W
  | .c | .kn => Config.L

/-- Elem(s, i): limb i of an Operand (96 bits) or slot i of a LongFormProduct (224 bits). -/
def State.elem (s : State) (src : Source) (i : Nat) : Nat :=
  match src with
  | .a => s.memRead (0 + Config.limbBytes * i) Config.limbBytes
  | .b => s.memRead (264 + Config.limbBytes * i) Config.limbBytes
  | .k => s.memRead (1732 + Config.limbBytes * i) Config.limbBytes
  | .n => s.crom.read (0 + Config.limbBytes * i) Config.limbBytes
  | .c => s.memRead (528 + Config.slotBytes * i) Config.slotBytes
  | .kn => s.memRead (1996 + Config.slotBytes * i) Config.slotBytes

/-! ## Reading a data register (10_state.md R21)

A register that holds no value has unspecified storage: its value is free (log 8). Every command
checks the register's flag first, so this happens in no run. -/

/-- The value of Z. -/
def State.zValue (s : State) : BitVec 256 := s.z.getD (Config.noValue 256 0 s.draws)

/-- The value of PL[i]. -/
def State.plValue (s : State) (i : Nat) : BitVec 256 :=
  match s.pl with
  | some v => if h : i < 43 then v[i] else 0
  | none => Config.noValue 256 (1 + i) s.draws

/-- The value of CK[s]. -/
def State.ckValue (s : State) (src : Source) : BitVec 288 :=
  s.ck[src.index].getD (Config.noValue 288 src.index s.draws)

/-- The value of CAN[t]. -/
def State.canValue (s : State) (t : Product) : BitVec 4128 :=
  s.can[t.index].getD (Config.noValue 4128 t.index s.draws)

/-- The value of D. -/
def State.dValue (s : State) : BitVec 4128 := s.d.getD (Config.noValue 4128 2 s.draws)

/-- The value of R. -/
def State.rValue (s : State) : BitVec 2048 := s.r.getD (Config.noValue 2048 0 s.draws)

/-! ## The host inputs as a running command sees them

A command sees every host write issued before its CMD write (20_memory.md R60). One issued while it runs
is performed (R61), but whether the command sees it is not said. Host accesses take effect one at a time
(R60) and a command is atomic to the host (R61): it sees WLEN and ZIN as they were at one moment of its
run, and which moment is free (log 3). -/

/-- WLEN or ZIN with one host write taken back: the word it displaced is there again. -/
def State.takeBack (s : State) (write : PortReg × Word) : State :=
  match write.1 with
  | .wlen k => { s with wlen := s.wlen.set k write.2 }
  | .zin k => { s with zin := s.zin.set k write.2 }
  | .wmem _ | .cmd | .status | .progress | .pc | .errinfo | .epc | .ecmd | .res _ => s

/-- The latest n of the writes in a list, latest first, taken back; all of them if there are fewer. -/
def State.takeBackLatest (s : State) : List (PortReg × Word) → Nat → State
  | [], _ => s
  | write :: earlier, n => if n = 0 then s else (s.takeBack write).takeBackLatest earlier (n - 1)

/-- The host inputs at the moment the running command takes them (log 3): with no write during the run,
as they are. -/
def State.atInput (s : State) : State := s.takeBackLatest s.raced (Config.raceMoment s.draws)

/-- WLEN[k] as the running command reads it. -/
def State.seenWlen (s : State) (k : Fin 5) : Word := s.atInput.wlen[k]

/-- ZINk as the running command reads it. -/
def State.seenZinWord (s : State) (k : Fin 8) : Word := s.atInput.zin[k]

/-- ZIN as the running command reads it: word(ZIN, k) = ZINk (10_state.md R31). -/
def State.seenZin (s : State) : Nat :=
  ofWords (fun k => if h : k < 8 then s.seenZinWord ⟨k, h⟩ else 0) 8

end Sys2Proof.Machine
end

