-- ==== Sys2Proof/Machine/Flags.lean ====
section
/-!
DEFINITION. The flags as numbers: the codes of RUNSTATE and CKST, the packed registers STATUS and
PROGRESS (10_state.md R23, R29, R43, R44), and the words of R that the host sees (R45).
-/

namespace Sys2Proof.Machine

/-- The 2-bit code of RUNSTATE (10_state.md R23). -/
def RunState.code : RunState → BitVec 2
  | .idle => 0
  | .active => 1
  | .accept => 2
  | .reject => 3

/-- ACCEPT and REJECT are the terminal states (10_state.md R23). -/
def RunState.terminal : RunState → Bool
  | .idle | .active => false
  | .accept | .reject => true

/-- The 2-bit code of CKST[s] (10_state.md R29). -/
def ChecksumState.code : ChecksumState → BitVec 2
  | .empty => 0
  | .raw => 1
  | .reduced => 2

/-- OVR as STATUS shows it: while BUSY = 1 its value from before the command (20_memory.md R61, log 4). -/
def State.shownOvr (s : State) : Bool := if s.busy then s.ovrBefore else s.ovr

/-- BERR as STATUS shows it: while BUSY = 1 its value from before the command (20_memory.md R61, log 4). -/
def State.shownBerr (s : State) : Bool := if s.busy then s.berrBefore else s.berr

/-- STATUS, from bit 31 down (10_state.md R43). While BUSY = 1 every other field has its value from before
the command (20_memory.md R61): only the command's end writes RUNSTATE, CF and ERR. -/
def State.statusWord (s : State) : Word :=
  0#22 ++ BitVec.ofBool s.shownBerr ++ BitVec.ofBool s.shownOvr ++ s.err ++ BitVec.ofBool s.cf ++
    BitVec.ofBool s.busy ++ s.runstate.code

/-- PROGRESS, from bit 31 down (10_state.md R44). -/
def State.progressWord (s : State) : Word :=
  0#12 ++ BitVec.ofBool s.rv ++ BitVec.ofBool s.dv ++
    BitVec.ofBool s.canv[1] ++ BitVec.ofBool s.canv[0] ++
    BitVec.ofBool s.chkok[1] ++ BitVec.ofBool s.chkok[0] ++
    s.ckst[5].code ++ s.ckst[4].code ++ s.ckst[3].code ++
    s.ckst[2].code ++ s.ckst[1].code ++ s.ckst[0].code ++
    BitVec.ofBool s.plv ++ BitVec.ofBool s.zv

/-- RESk: word k of R in ACCEPT, 0 in every other state (10_state.md R45). -/
def State.resWord (s : State) (k : Nat) : Word :=
  match s.runstate with
  | .accept => wordAt s.rValue.toNat k
  | .idle | .active | .reject => 0

end Sys2Proof.Machine
end

