-- ==== Sys2Proof/Machine/Ops.lean ====
section
/-!
DEFINITION. The operations every command shares: storing bytes of WMEM, accepting a command word
(`accept`, 30_encoding.md R72), taking a fault (`raise`,
60_exceptions.md R116), ending a command that raised none (30_encoding.md R72 c, d), the tests that
come before a command's body (R72, 60_exceptions.md R118), `CLR`'s and the platform's reset
(45_control.md R110, 70_reset_and_hazards.md R128, R129). There is no return from a fault
(60_exceptions.md R120): `State.clear` and `State.platformReset` are the only ways out.
-/

namespace Sys2Proof.Machine

/-- What a command answers. -/
abbrev Result := Host.Outcome State Fault Refusal

/-! ## WMEM -/

/-- Store one byte, addresses kept strictly rising. -/
def Memory.store : Memory → Nat → Byte → Memory
  | [], a, v => [(a, v)]
  | (b, w) :: m, a, v =>
    if a < b then (a, v) :: (b, w) :: m
    else if a = b then (a, v) :: m
    else (b, w) :: Memory.store m a v

/-- Addresses are strictly rising, each above `low`. -/
def Memory.risingAbove (low : Nat) : Memory → Bool
  | [] => true
  | (a, _) :: m => decide (low < a) && Memory.risingAbove a m

/-- Addresses are strictly rising. -/
def Memory.rising : Memory → Bool
  | [] => true
  | (a, _) :: m => Memory.risingAbove a m

/-- The canonical form of WMEM: addresses strictly rising, all inside the 3200 bytes. What an
unlisted address holds is no value, which no entry equals (log 6). -/
def Memory.wf (m : Memory) : Bool :=
  Memory.rising m && m.all (fun cell => decide (cell.1 < Config.witBytes))

/-- MemWrite(addr, n, v): byte k of v at addr + k (00_scope.md R15). -/
def Memory.storeLE (m : Memory) (addr : Nat) (v : Nat) : Nat → Memory
  | 0 => m
  | n + 1 => Memory.store (Memory.storeLE m addr v n) (addr + n) (BitVec.ofNat 8 (v / 2 ^ (8 * n)))

/-! ## Accepting a command word (30_encoding.md R72) -/

/-- The acceptance of a command word: BUSY = 1, the word is the one in progress (log 2), and OVR and BERR
as they are now are what STATUS shows until the command ends (20_memory.md R61, log 4). -/
def State.accept (s : State) (cmd : Word) : State :=
  { s with busy := true, cmd := cmd, ovrBefore := s.ovr, berrBefore := s.berr, raced := [] }

/-! ## Faults (60_exceptions.md R114, R116) -/

/-- The faults of 60_exceptions.md R114. -/
inductive Cause where
  | malformedWitness
  | checksumMismatch
  | canonicalizationOverflow
  | magnitudeInconsistency
  | illegalCommand
  | sequenceError
  deriving DecidableEq, Repr

/-- The code in ERR (60_exceptions.md R114). -/
def Cause.code : Cause → BitVec 4
  | .malformedWitness => 1
  | .checksumMismatch => 2
  | .canonicalizationOverflow => 3
  | .magnitudeInconsistency => 4
  | .illegalCommand => 5
  | .sequenceError => 6

/-- `raise <Name>(info)` by the command with word `cmd` (60_exceptions.md R116): PC is not
incremented. -/
def State.raise (s : State) (cause : Cause) (info cmd : Word) : State :=
  { s with
    err := cause.code
    errinfo := info
    epc := s.pc
    ecmd := cmd
    runstate := .reject
    busy := false
    raced := [] }

/-- The end of a command that raised no fault: PC + 1 modulo 2^32 and BUSY = 0 (30_encoding.md R72
c, d; 10_state.md R25). -/
def State.complete (s : State) : State :=
  { s with pc := s.pc + 1, busy := false, raced := [] }

/-- A word that a terminal state ignores: no state changes at all, not even PC (30_encoding.md R72
step 2). With BUSY = 0 and no race recorded this is the state itself. -/
def State.ignoreWord (s : State) : State :=
  { s with busy := false, raced := [] }

/-- What a word that does not decode does when it is run (30_encoding.md R71, R72 step 3 a): ignored in a
terminal state, else IllegalCommand(0). -/
def State.illegalCommand (s : State) (cmd : Word) : State :=
  if s.runstate.terminal then s.ignoreWord else s.raise .illegalCommand 0 cmd

/-- The tests before the body of command i, in the order of 60_exceptions.md R118: a terminal state
ignores the word, a Requires line that does not hold raises SequenceError(0). -/
def issue (i : Instr) (s : State) (requires : Bool) (body : Result) : Result :=
  if s.runstate.terminal then .next s.ignoreWord
  else if requires then body
  else .next (s.raise .sequenceError 0 (encode i))

/-- RUNSTATE = ACTIVE, in every Requires line but those of NOP, START and CLR. -/
def State.active (s : State) : Bool := decide (s.runstate = .active)

/-! ## Reset -/

/-- Every piece of state back to its reset value except WMEM (45_control.md R110). CROM is constant;
the model's own record of what is outside the block (the events to come, the last word read, the
indices of the free values) is not touched (log 17).
DESIGN CHOICE, unsafe (log 20): the reset values are written when CLR completes, so an OVR set by a CMD
write dropped while the CLR runs, a BERR set by an access refused then, and a WLEN or ZIN word written
then do not survive it; the spec (10_state.md R27, 70_reset_and_hazards.md R132) does not order them. -/
def State.clear (s : State) : State :=
  { State.reset with
    wmem := s.wmem
    crom := s.crom
    port := s.port
    rdata := s.rdata
    resets := s.resets
    draws := s.draws }

/-- The platform's reset (70_reset_and_hazards.md R128, R129): every reset value, a command in progress
abandoned, every byte of WMEM any value again (log 7). -/
def State.platformReset (s : State) : State :=
  { State.reset with
    crom := s.crom
    port := s.port
    rdata := s.rdata
    resets := s.resets + 1
    draws := s.draws }

end Sys2Proof.Machine
end

