-- ==== Sys2Proof/Machine/Canonicalizer.lean ====
section
/-!
DEFINITION. The product canonicalizer: CANON (43_canonicalizer.md).
-/

namespace Sys2Proof.Machine

/-- The canonicalizer after some slots: CARRY, the limbs emitted so far as one number, and whether an
`addw_8` carried out. -/
structure CanonPass where
  carry : Nat
  limbs : Nat
  lost : Bool
  deriving DecidableEq, Repr

/-- The pass over the first n slots (43_canonicalizer.md R99): limb i is kept at bit 96 · i, the carry
portion v[255:96] goes to slot i + 1. -/
def canonPass (elem : Nat → Nat) : Nat → CanonPass
  | 0 => ⟨0, 0, false⟩
  | i + 1 =>
    let pass := canonPass elem i
    let v := addw Config.feWords (elem i) pass.carry false
    ⟨v.1 / 2 ^ Config.limbBits,
      pass.limbs + v.1 % 2 ^ Config.limbBits * 2 ^ (Config.limbBits * i),
      pass.lost || v.2⟩

/-- `CANON t` (43_canonicalizer.md R99). On CanonicalizationOverflow CAN[t] counts as holding no value
(60_exceptions.md R117, log 12). -/
def execCanon (sel : BitVec 3) (s : State) : Result :=
  match Product.ofSel sel with
  | none => .next (s.illegalCommand (encode (.canon sel)))
  | some t =>
    issue (.canon sel) s (s.active && !s.canv[t.index]) (
      let pass := canonPass (s.elem t.source) Config.L
      let carry := some (BitVec.ofNat 160 pass.carry)
      if pass.lost then .fault .carryLost
      else if pass.carry ≠ 0 then
        .next ({ s with can := s.can.set t.index none, carry := carry }.raise
          .canonicalizationOverflow (BitVec.ofNat 32 t.index) (encode (.canon sel)))
      else
        .next { s with
          can := s.can.set t.index (some (BitVec.ofNat 4128 pass.limbs))
          carry := carry
          canv := s.canv.set t.index true }.complete)

end Sys2Proof.Machine
end

