-- ==== Sys2Proof/Machine/Checksum.lean ====
section
/-!
DEFINITION. Checksum accumulation, reduction and the identity check: ACC, RED and CHK
(42_checksum.md).
-/

namespace Sys2Proof.Machine

/-- Write CK[s] and CKST[s]. -/
def State.putChecksum (s : State) (src : Source) (v : Nat) (stage : ChecksumState) : State :=
  { s with
    ck := s.ck.set src.index (some (BitVec.ofNat 288 v))
    ckst := s.ckst.set src.index stage }

/-- The running sum of ACC after the first n elements, and whether an `addw_9` carried out
(42_checksum.md R90). -/
def accumulate (elem power : Nat → Nat) (p : Nat) : Nat → Nat × Bool
  | 0 => (0, false)
  | i + 1 =>
    let sum := accumulate elem power p i
    let t := mulmod (elem i) (power i) p
    let next := addw Config.accWords sum.1 t false
    (next.1, sum.2 || next.2)

/-- `ACC s` (42_checksum.md R90). A carry out is never dropped (40_word_arith.md R79, log 11). -/
def execAcc (sel : BitVec 3) (s : State) : Result :=
  match Source.ofSel sel with
  | none => .next (s.illegalCommand (encode (.acc sel)))
  | some src =>
    issue (.acc sel) s (s.active && s.plv && decide (s.ckst[src.index] = .empty)) (
      let sum := accumulate (s.elem src) (fun i => (s.plValue i).toNat) s.crom.p.toNat src.nelem
      if sum.2 then .fault .carryLost
      else .next (s.putChecksum src sum.1 .raw).complete)

/-- One pass of the loop of RED: the overflow word w folds back as w · c; an accumulator whose
overflow word is 0 stays (42_checksum.md R92). -/
def foldOnce (m : Crom) (acc : Nat) : Nat × Bool :=
  let w := wordAt acc Config.feWords
  if w = 0 then (acc, false)
  else addw Config.accWords (acc % 2 ^ Config.feBits) (mulmod w.toNat m.cc.toNat m.p.toNat) false

/-- `RED s` (42_checksum.md R92): the loop as two guarded folds (R93), then one trial subtraction of P
(R94). A carry out or an overflow word left over is never dropped (40_word_arith.md R79, log 11). -/
def execRed (sel : BitVec 3) (s : State) : Result :=
  match Source.ofSel sel with
  | none => .next (s.illegalCommand (encode (.red sel)))
  | some src =>
    issue (.red sel) s (s.active && decide (s.ckst[src.index] = .raw)) (
      let one := foldOnce s.crom (s.ckValue src).toNat
      let two := foldOnce s.crom one.1
      if one.2 || two.2 then .fault .carryLost
      else if wordAt two.1 Config.feWords ≠ 0 then .fault .foldUnfinished
      else
        let trial := subw Config.feWords (two.1 % 2 ^ Config.feBits) s.crom.p.toNat false
        let v := if trial.2 then two.1 else trial.1
        .next { s.putChecksum src v .reduced with cf := trial.2 }.complete)

/-- CK[s][255:0], the low part (10_state.md R34). -/
def State.ckLow (s : State) (src : Source) : Nat := (s.ckValue src).toNat % 2 ^ Config.feBits

/-- `CHK j` (42_checksum.md R95). -/
def execChk (sel : BitVec 3) (s : State) : Result :=
  match Identity.ofSel sel with
  | none => .next (s.illegalCommand (encode (.chk sel)))
  | some j =>
    issue (.chk sel) s
      (s.active && decide (s.ckst[j.x.index] = .reduced) && decide (s.ckst[j.y.index] = .reduced) &&
        decide (s.ckst[j.w.index] = .reduced) && !s.chkok[j.index]) (
      if mulmod (s.ckLow j.x) (s.ckLow j.y) s.crom.p.toNat = s.ckLow j.w then
        .next { s with chkok := s.chkok.set j.index true }.complete
      else .next (s.raise .checksumMismatch (BitVec.ofNat 32 j.index) (encode (.chk sel))))

end Sys2Proof.Machine
end

