-- ==== Sys2Proof/Machine/Control.lean ====
section
/-!
DEFINITION. The control commands NOP, START, FIN and CLR (45_control.md).
-/

namespace Sys2Proof.Machine

/-- `NOP` (45_control.md R107): only PC changes. -/
def execNop (s : State) : Result := issue .nop s true (.next s.complete)

/-- The lengths START expects, in the order A, B, C, K, KN (45_control.md R108). -/
def expectedLength (k : Fin 5) : Word :=
  match k with
  | 0 => 264
  | 1 => 264
  | 2 => 1204
  | 3 => 264
  | 4 => 1204

/-- The smallest k, from 0 up, whose declared length is wrong (45_control.md R108). -/
def State.wrongLength (s : State) : Option (Fin 5) :=
  [0, 1, 2, 3, 4].find? (fun k => decide (s.seenWlen k ≠ expectedLength k))

/-- `START` (45_control.md R108). -/
def execStart (s : State) : Result :=
  issue .start s (decide (s.runstate = .idle)) (
    match s.wrongLength with
    | some k => .next (s.raise .malformedWitness (BitVec.ofNat 32 k) (encode .start))
    | none => .next { s with runstate := .active }.complete)

/-- `FIN` (45_control.md R109). -/
def execFin (s : State) : Result :=
  issue .fin s (s.active && s.chkok[0] && s.chkok[1] && s.rv)
    (.next { s with runstate := .accept }.complete)

/-- `CLR` (45_control.md R110): executed in every RUNSTATE, requires nothing, does not end with
PC + 1. -/
def execClr (s : State) : Result := .next s.clear

end Sys2Proof.Machine
end

