-- ==== Sys2Proof/Machine/Ladder.lean ====
section
/-!
DEFINITION. The challenge load and the power ladder: LDZ and LADDER (41_challenge_ladder.md).
-/

namespace Sys2Proof.Machine

/-- `LDZ` (41_challenge_ladder.md R86): one trial subtraction ZIN − P over 8 narrow words. -/
def execLdz (s : State) : Result :=
  issue .ldz s (s.active && !s.zv) (
    let trial := subw Config.feWords s.seenZin s.crom.p.toNat false
    let z := if trial.2 then s.seenZin else trial.1
    .next { s with z := some (BitVec.ofNat 256 z), cf := trial.2, zv := true }.complete)

/-- PL[i] of the loop of LADDER (41_challenge_ladder.md R87): 1, Z, then mulmod(PL[i−1], Z, P). -/
def ladderEntry (z p : Nat) : Nat → Nat
  | 0 => 1
  | 1 => z
  | i + 2 => mulmod (ladderEntry z p (i + 1)) z p

/-- `LADDER` (41_challenge_ladder.md R87). -/
def execLadder (s : State) : Result :=
  issue .ladder s (s.active && s.zv && !s.plv) (
    let entry := ladderEntry s.zValue.toNat s.crom.p.toNat
    .next { s with
      pl := some (Vector.ofFn fun i : Fin 43 => BitVec.ofNat 256 (entry i))
      plv := true }.complete)

end Sys2Proof.Machine
end

