-- ==== Sys2Proof/Machine/Reconciler.lean ====
section
/-!
DEFINITION. The exact subtraction and the final conditional reduction: SUBX and FRED
(44_reconciler.md).
-/

namespace Sys2Proof.Machine

/-- hi of SUBX: some word 64 .. 128 of the difference is not zero (44_reconciler.md R103). -/
def highWordsNonzero (t : Nat) : Bool :=
  (List.range (Config.canWords - Config.resWords)).any
    (fun j => decide (wordAt t (Config.resWords + j) ≠ 0))

/-- `SUBX` (44_reconciler.md R103): D and CF are written before the fault test. -/
def execSubx (s : State) : Result :=
  issue .subx s (s.active && s.canv[0] && s.canv[1] && !s.dv) (
    let diff := subw Config.canWords (s.canValue .c).toNat (s.canValue .kn).toNat false
    let hi := highWordsNonzero diff.1
    let written := { s with d := some (BitVec.ofNat 4128 diff.1), cf := diff.2 }
    if diff.2 || hi then
      .next (written.raise .magnitudeInconsistency (BitVec.ofNat 32 (diff.2.toNat + 2 * hi.toNat))
        (encode .subx))
    else .next { written with dv := true }.complete)

/-- `FRED` (44_reconciler.md R104): one trial subtraction DL − N64 over 64 narrow words. -/
def execFred (s : State) : Result :=
  issue .fred s (s.active && s.dv && !s.rv) (
    let dl := s.dValue.toNat % 2 ^ 2048
    let trial := subw Config.resWords dl s.crom.n.toNat false
    let r := if trial.2 then dl else trial.1
    .next { s with r := some (BitVec.ofNat 2048 r), cf := trial.2, rv := true }.complete)

end Sys2Proof.Machine
end

