-- ==== Sys2Proof/Machine/Dispatch.lean ====
section
/-!
DEFINITION. One arm per command, each a call of its meaning.
-/

namespace Sys2Proof.Machine

def exec (i : Instr) (s : State) : Host.Outcome State Fault Refusal :=
  match i with
  | .nop => Sys2Proof.Machine.execNop s
  | .start => Sys2Proof.Machine.execStart s
  | .ldz => Sys2Proof.Machine.execLdz s
  | .ladder => Sys2Proof.Machine.execLadder s
  | .acc sel => Sys2Proof.Machine.execAcc sel s
  | .red sel => Sys2Proof.Machine.execRed sel s
  | .chk sel => Sys2Proof.Machine.execChk sel s
  | .canon sel => Sys2Proof.Machine.execCanon sel s
  | .subx => Sys2Proof.Machine.execSubx s
  | .fred => Sys2Proof.Machine.execFred s
  | .fin => Sys2Proof.Machine.execFin s
  | .clr => Sys2Proof.Machine.execClr s

end Sys2Proof.Machine
end

