-- ==== Sys2Proof/Machine/HostPort.lean ====
section
/-!
DEFINITION. The host port: the window (10_state.md R42, 20_memory.md R48), reads, writes and refused
accesses (20_memory.md R54, R55, R57, R61), the acceptance of a command word (30_encoding.md R72), and
what the sequencer does with the word it accepted.
-/

namespace Sys2Proof.Machine

/-- The register at a byte offset of the window, none for an unmapped one (20_memory.md R48). The offset
is a multiple of 4. -/
def portReg (off : Nat) : Option PortReg :=
  if h : off < 0x0C80 then some (.wmem ⟨off / 4, by omega⟩)
  else if off = 0x1000 then some .cmd
  else if off = 0x1004 then some .status
  else if off = 0x1008 then some .progress
  else if off = 0x100C then some .pc
  else if off = 0x1010 then some .errinfo
  else if off = 0x1014 then some .epc
  else if off = 0x1018 then some .ecmd
  else if h : 0x1020 ≤ off ∧ off < 0x1034 then some (.wlen ⟨(off - 0x1020) / 4, by omega⟩)
  else if h : 0x1040 ≤ off ∧ off < 0x1060 then some (.zin ⟨(off - 0x1040) / 4, by omega⟩)
  else if h : 0x1100 ≤ off ∧ off < 0x1200 then some (.res ⟨(off - 0x1100) / 4, by omega⟩)
  else none

/-- The word a register shows (10_state.md R42; CMD is write-only and reads as 0, R42, 20_memory.md R55). -/
def State.regValue (s : State) (reg : PortReg) : Word :=
  match reg with
  | .wmem k => BitVec.ofNat 32 (s.memRead (4 * k) 4)
  | .cmd => 0
  | .status => s.statusWord
  | .progress => s.progressWord
  | .pc => s.pc
  | .errinfo => s.errinfo
  | .epc => s.epc
  | .ecmd => s.ecmd
  | .wlen k => s.wlen[k]
  | .zin k => s.zin[k]
  | .res k => s.resWord k

/-- Whether a host write to a register other than CMD is performed (10_state.md R42; 20_memory.md R55
rows 3 to 5). -/
def State.writable (s : State) (reg : PortReg) : Bool :=
  match reg with
  | .wmem _ | .wlen _ => decide (s.runstate = .idle)
  | .zin _ => !s.runstate.terminal && !s.zv
  | .cmd | .status | .progress | .pc | .errinfo | .epc | .ecmd | .res _ => false

/-- A write of WLEN or ZIN while a command runs is a race with that command's read of it (log 3): the
register and the word displaced are noted, and the index of the free values moves on. -/
def State.noteRace (s : State) (reg : PortReg) (displaced : Word) : State :=
  if s.busy then { s with raced := (reg, displaced) :: s.raced, draws := s.draws + 1 } else s

/-- Store a performed host write: WMEM little-endian (20_memory.md R50), WLENk, ZINk. -/
def State.storeReg (s : State) (reg : PortReg) (v : Word) : State :=
  match reg with
  | .wmem k => { s with wmem := Memory.storeLE s.wmem (4 * k) v.toNat 4 }
  | .wlen k => { s with wlen := s.wlen.set k v }.noteRace (.wlen k) s.wlen[k]
  | .zin k => { s with zin := s.zin.set k v }.noteRace (.zin k) s.zin[k]
  | .cmd | .status | .progress | .pc | .errinfo | .epc | .ecmd | .res _ => s

/-- A refused access: not performed, a read returns 0, BERR is set, no other effect (20_memory.md
R55). -/
def State.refuseAccess (s : State) (kind : AccessKind) : State :=
  match kind with
  | .read => { s with rdata := 0, berr := true }
  | .write _ => { s with berr := true }

/-- A host read of a mapped register (20_memory.md R57). While BUSY = 1 a register other than STATUS
returns any value (R61, log 5). -/
def State.readReg (s : State) (reg : PortReg) : State :=
  if s.busy && decide (reg ≠ .status) then
    { s with rdata := Config.busyRead s.draws, draws := s.draws + 1 }
  else { s with rdata := s.regValue reg }

/-- The word is exactly `CLR` (30_encoding.md R72 step 2). -/
def isClr (cmd : Word) : Bool :=
  match decode cmd with
  | .ok .clr => true
  | _ => false

/-- A host write of `cmd` to CMD (30_encoding.md R72): dropped with OVR while BUSY = 1, ignored in a
terminal state unless it is CLR, else accepted: BUSY = 1, for a CLR in a terminal state too (DEDUCED from
10_state.md R24, log 2). -/
def State.writeCmd (s : State) (cmd : Word) : State :=
  if s.busy then { s with ovr := true }
  else if s.runstate.terminal && !isClr cmd then s
  else s.accept cmd

/-- A host write to a mapped register. -/
def State.writeReg (s : State) (reg : PortReg) (v : Word) : State :=
  if reg = .cmd then s.writeCmd v
  else if s.writable reg then s.storeReg reg v
  else s.refuseAccess (.write v)

/-- One host access (20_memory.md R54, R55): 32 bits wide, at a multiple of 4, at a mapped offset, or
refused. -/
def State.hostAccess (s : State) (a : HostAccess) : State :=
  if a.width = 32 ∧ a.offset % 4 = 0 then
    match portReg a.offset with
    | none => s.refuseAccess a.kind
    | some reg =>
      match a.kind with
      | .read => s.readReg reg
      | .write v => s.writeReg reg v
  else s.refuseAccess a.kind

/-- The sequencer runs the accepted word to completion (30_encoding.md R72 step 3): a command by its
rule, a word that does not decode by R71. -/
def runCommand (s : State) : Result :=
  match decode s.cmd with
  | .ok i => exec i s
  | .error _ => .next (s.illegalCommand s.cmd)

/-- An event that comes before a running command has completed: a reset, or an access of a host that
does not wait (log 2). -/
def PortEvent.precedesCompletion : PortEvent → Bool
  | .access whileBusy _ => whileBusy
  | .reset => true

end Sys2Proof.Machine
end

