-- ==== Sys2Proof/Machine/Step.lean ====
section
/-!
DEFINITION. One step of the machine: an event of the port takes effect, or the running command runs to
completion, or, with neither, MMVC stays idle with all state retained (60_exceptions.md R127).
-/

namespace Sys2Proof.Machine

/-- One step (20_memory.md R60, R61; 70_reset_and_hazards.md R128; log 1, log 2). -/
def step (s : State) : Host.Outcome State Fault Refusal :=
  match s.port with
  | [] => if s.busy then runCommand s else .next s
  | .reset :: rest => .next { s with port := rest }.platformReset
  | .access whileBusy a :: rest =>
    if s.busy && !whileBusy then runCommand s
    else .next ({ s with port := rest }.hostAccess a)

/-- s with the word of a command accepted, so that the next step runs it. A command is not fetched from
a memory (20_memory.md R64): what holds it is BUSY = 1 and the word in progress (`accept`). An event that would
come before the command completes is taken off the port (log 1). -/
def State.withFetchWord (s : State) (nbits w : Nat) : State :=
  { s with port := s.port.dropWhile PortEvent.precedesCompletion }.accept
    (BitVec.ofNat 32 (w % 2 ^ nbits))

end Sys2Proof.Machine
end

