-- ==== Sys2Proof/Safety.lean ====
section
/-!
DEFINITION. The terms the claims are stated in: the Requires lines, the exact numbers a run works with
(checksums, long-form values), the accesses of the host port, and the invariant that
every step keeps.
-/

namespace Sys2Proof.Machine

/-! ## The numbers -/

/-- P as a number: 2^256 − c (00_scope.md R9). -/
def State.p (s : State) : Nat := s.crom.p.toNat

/-- Σ Elem(s, i) · 2^(96 i): the integer an array of the witness denotes (20_memory.md R52,
43_canonicalizer.md R98). -/
def State.arrayValue (s : State) (src : Source) : Nat :=
  ∑ i ∈ Finset.range src.nelem, s.elem src i * 2 ^ (96 * i)

/-- Σ ((Elem(s, i) · PL[i]) mod P): the raw accumulator of a source (42_checksum.md R90). -/
def State.rawSum (s : State) (src : Source) : Nat :=
  ∑ i ∈ Finset.range src.nelem, s.elem src i * (s.plValue i).toNat % s.p

/-- checksum(s) = (Σ Elem(s, i) · Z^i) mod P (42_checksum.md R89). -/
def State.checksum (s : State) (src : Source) : Nat :=
  (∑ i ∈ Finset.range src.nelem, s.elem src i * s.zValue.toNat ^ i) % s.p

/-- One fold of a raw accumulator: the overflow part w of w · 2^256 + lo comes back as w · c
(42_checksum.md R92). -/
def foldValue (c acc : Nat) : Nat :=
  if acc / 2 ^ 256 = 0 then acc else acc % 2 ^ 256 + acc / 2 ^ 256 * c

/-- The lengths of the witness layout, A, B, C, K, KN (45_control.md R108). -/
def witnessLengths : Vector Word 5 := #v[264, 264, 1204, 264, 1204]

/-! ## Order of commands -/

/-- The Requires line of a command (45_control.md R107 to R110, 41_challenge_ladder.md R86, R87,
42_checksum.md R90, R92, R95, 43_canonicalizer.md R99, 44_reconciler.md R103, R104), for a state that
is not terminal. A selector out of range names no command: no Requires line holds. -/
def Requires (i : Instr) (s : State) : Prop :=
  match i with
  | .nop | .clr => True
  | .start => s.runstate = .idle
  | .ldz => s.runstate = .active ∧ s.zv = false
  | .ladder => s.runstate = .active ∧ s.zv = true ∧ s.plv = false
  | .acc sel => ∃ src, Source.ofSel sel = some src ∧
      s.runstate = .active ∧ s.plv = true ∧ s.ckst[src.index] = .empty
  | .red sel => ∃ src, Source.ofSel sel = some src ∧
      s.runstate = .active ∧ s.ckst[src.index] = .raw
  | .chk sel => ∃ j, Identity.ofSel sel = some j ∧
      s.runstate = .active ∧ s.ckst[j.x.index] = .reduced ∧ s.ckst[j.y.index] = .reduced ∧
      s.ckst[j.w.index] = .reduced ∧ s.chkok[j.index] = false
  | .canon sel => ∃ t, Product.ofSel sel = some t ∧
      s.runstate = .active ∧ s.canv[t.index] = false
  | .subx => s.runstate = .active ∧ s.canv[0] = true ∧ s.canv[1] = true ∧ s.dv = false
  | .fred => s.runstate = .active ∧ s.dv = true ∧ s.rv = false
  | .fin => s.runstate = .active ∧ s.chkok[0] = true ∧ s.chkok[1] = true ∧ s.rv = true

/-- No progress flag is set (10_state.md R29). -/
def State.noProgress (s : State) : Prop :=
  s.zv = false ∧ s.plv = false ∧ (∀ src : Source, s.ckst[src.index] = .empty) ∧
  (∀ j : Identity, s.chkok[j.index] = false) ∧ (∀ t : Product, s.canv[t.index] = false) ∧
  s.dv = false ∧ s.rv = false

/-! ## The host port -/

/-- Nothing comes before the running command completes: the next event, if there is one, is an access
of a host that waits (log 2). -/
def State.nothingPrecedes (s : State) : Prop :=
  ∀ e ∈ s.port.head?, e.precedesCompletion = false

/-- The sequencer runs the accepted word in this step. -/
def State.runs (s : State) : Prop := s.busy = true ∧ s.nothingPrecedes

/-- The next event is host access a, taken in this step, and `rest` comes after it. -/
def State.takes (s : State) (a : HostAccess) (rest : List PortEvent) : Prop :=
  ∃ whileBusy, s.port = .access whileBusy a :: rest ∧ (s.busy = false ∨ whileBusy = true)

/-- The step that this state takes is a `CLR` or a reset, the two ways out of a run
(10_state.md R23). -/
def State.restarts (s : State) : Prop :=
  (s.runs ∧ decode s.cmd = .ok .clr) ∨ s.port.head? = some .reset

/-- The mapped offsets of the window (20_memory.md R48). -/
def mappedOffset (off : Nat) : Prop :=
  off < 0x0C80 ∨ (0x1000 ≤ off ∧ off < 0x101C) ∨ (0x1020 ≤ off ∧ off < 0x1034) ∨
  (0x1040 ≤ off ∧ off < 0x1060) ∨ (0x1100 ≤ off ∧ off < 0x1200)

/-- The refused accesses: the five rows of 20_memory.md R55. -/
def State.Refuses (s : State) (a : HostAccess) : Prop :=
  ¬ mappedOffset a.offset ∨
  (a.offset % 4 ≠ 0 ∨ a.width ≠ 32) ∨
  (a.kind ≠ .read ∧
    ((0x1004 ≤ a.offset ∧ a.offset < 0x101C) ∨ (0x1100 ≤ a.offset ∧ a.offset < 0x1200))) ∨
  (a.kind ≠ .read ∧ (a.offset < 0x0C80 ∨ (0x1020 ≤ a.offset ∧ a.offset < 0x1034)) ∧
    s.runstate ≠ .idle) ∨
  (a.kind ≠ .read ∧ (0x1040 ≤ a.offset ∧ a.offset < 0x1060) ∧
    (s.zv = true ∨ s.runstate = .accept ∨ s.runstate = .reject))

/-- What the register at an offset shows when no command runs (10_state.md R42, 20_memory.md R50). -/
def State.Shows (s : State) (off : Nat) (v : Word) : Prop :=
  (∃ k < 800, off = 4 * k ∧
    v = s.wmemByte (4 * k + 3) ++ s.wmemByte (4 * k + 2) ++ s.wmemByte (4 * k + 1) ++ s.wmemByte (4 * k)) ∨
  (off = 0x1000 ∧ v = 0) ∨ (off = 0x1004 ∧ v = s.statusWord) ∨ (off = 0x1008 ∧ v = s.progressWord) ∨
  (off = 0x100C ∧ v = s.pc) ∨ (off = 0x1010 ∧ v = s.errinfo) ∨ (off = 0x1014 ∧ v = s.epc) ∨
  (off = 0x1018 ∧ v = s.ecmd) ∨
  (∃ k : Fin 5, off = 0x1020 + 4 * k ∧ v = s.wlen[k]) ∨
  (∃ k : Fin 8, off = 0x1040 + 4 * k ∧ v = s.zin[k]) ∨
  (∃ k < 64, off = 0x1100 + 4 * k ∧
    v = if s.runstate = .accept then BitVec.ofNat 32 (s.rValue.toNat / 2 ^ (32 * k)) else 0)

/-! ## The invariant -/

/-- What holds of MMVC in every reachable state. Each field cites the rule it formalises. -/
structure State.Inv (s : State) : Prop where
  /-- WMEM is in canonical form (20_memory.md R47: 3200 bytes). -/
  memory : Memory.wf s.wmem = true
  /-- CROM holds parameters in range (00_scope.md R9). -/
  constants : s.crom.wf = true
  /-- A race is recorded only while a command runs (log 3). -/
  quiet : s.busy = false → s.raced = []
  /-- In a terminal state only CLR is ever accepted (30_encoding.md R72 step 2). -/
  running : s.busy = true → s.runstate.terminal = true → decode s.cmd = .ok .clr
  /-- ERR ≠ 0 in REJECT and only there, and codes 7 to 15 are never written (10_state.md R28,
  60_exceptions.md R114). -/
  record : (s.err = 0 ↔ s.runstate ≠ .reject) ∧ s.err.toNat ≤ 6
  /-- With no fault the record is clear (10_state.md R28). -/
  clearRecord : s.err = 0 → s.errinfo = 0 ∧ s.epc = 0 ∧ s.ecmd = 0
  /-- In IDLE nothing has been done (10_state.md R29). -/
  fresh : s.runstate = .idle → s.noProgress
  /-- Z holds a residue (10_state.md R32). -/
  challenge : s.zv = true → ∃ z, s.z = some z ∧ z.toNat < s.p
  /-- PL[i] = Z^i mod P (10_state.md R33). -/
  ladder : s.plv = true → s.zv = true ∧ ∃ pl, s.pl = some pl ∧
    ∀ (i : Nat) (h : i < 43), pl[i].toNat = s.zValue.toNat ^ i % s.p
  /-- A raw CK[s] is the exact sum (10_state.md R34, 42_checksum.md R90). -/
  raw : ∀ src : Source, s.ckst[src.index] = .raw → s.plv = true ∧
    ∃ v, s.ck[src.index] = some v ∧ v.toNat = s.rawSum src
  /-- A reduced CK[s] is the checksum of its source (10_state.md R34, 42_checksum.md R89). -/
  reduced : ∀ src : Source, s.ckst[src.index] = .reduced → s.plv = true ∧
    ∃ v, s.ck[src.index] = some v ∧ v.toNat = s.checksum src
  /-- A passed identity holds of the witness (10_state.md R29, 42_checksum.md R95). -/
  identity : ∀ j : Identity, s.chkok[j.index] = true →
    s.ckst[j.x.index] = .reduced ∧ s.ckst[j.y.index] = .reduced ∧ s.ckst[j.w.index] = .reduced ∧
    s.checksum j.x * s.checksum j.y % s.p = s.checksum j.w
  /-- CAN[t] is the exact value of the product (10_state.md R35, 43_canonicalizer.md R100). -/
  canonical : ∀ t : Product, s.canv[t.index] = true →
    ∃ v, s.can[t.index] = some v ∧ v.toNat = s.arrayValue t.source
  /-- D is the exact difference and fits in 64 words (10_state.md R36, 44_reconciler.md R103). -/
  difference : s.dv = true → s.canv[0] = true ∧ s.canv[1] = true ∧
    ∃ d, s.d = some d ∧ d.toNat + s.arrayValue .kn = s.arrayValue .c ∧ d.toNat < 2 ^ 2048
  /-- R is D reduced once by N (10_state.md R37, 44_reconciler.md R104). -/
  remainder : s.rv = true → s.dv = true ∧ ∃ r, s.r = some r ∧
    r.toNat = if s.dValue.toNat < s.crom.n.toNat then s.dValue.toNat
      else s.dValue.toNat - s.crom.n.toNat
  /-- ACCEPT only after every step of the state machine (45_control.md R109). -/
  accepted : s.runstate = .accept → s.chkok[0] = true ∧ s.chkok[1] = true ∧ s.rv = true

end Sys2Proof.Machine
end

