-- ==== Sys2Proof/Certificates/Slice0/Obligations.lean ====
section
/-!
DEFINITION. The statements for the provers. "Free" means that the statement holds for every value of
a free value. Every statement about an instruction gives the whole next state, so what it does not name
is unchanged; the bytes of WMEM are said once for all commands in `NoCommandWritesMemory`.
-/

open Sys2Proof Sys2Proof.Machine

/-! ## Encoding -/

/-- Decode and encode agree on every command and on every word that decodes (30_encoding.md R68,
R70). -/
def Obligations.DecodeAndEncodeAgree : Prop :=
  (∀ i : Instr, i.WellFormed → decode (encode i) = .ok i) ∧
  (∀ (w : Word) (i : Instr), decode w = .ok i → i.WellFormed ∧ encode i = w)

/-- Words written out from the encoding of 30_encoding.md R67 and R73 decode to what they stand for. -/
def Obligations.WrittenOutWordsDecode : Prop :=
  decode 0b00000000000000000000000000000001 = .ok .start ∧
  decode 0b00000000000000000000000000000011 = .ok .ladder ∧
  decode 0b00000000000000000000000000000100 = .ok (.acc 0) ∧
  decode 0b00000000000000000000010100000101 = .ok (.red 5) ∧
  decode 0b00000000000000000000000100000110 = .ok (.chk 1) ∧
  decode 0b00000000000000000000000100000111 = .ok (.canon 1) ∧
  decode 0b00000000000000000000000000001000 = .ok .subx ∧
  decode 0b00000000000000000000000000001010 = .ok .fin

/-- The words that decode are the 24 of 30_encoding.md R70, and there are 24 of them. -/
def Obligations.LegalWordsAreExactlyTwentyFour : Prop :=
  ∃ legal : List Word, legal.Nodup ∧ legal.length = 24 ∧
    (∀ w : Word, (∃ i, decode w = .ok i) ↔ w ∈ legal) ∧
    (∀ w : Word, w ∈ legal ↔
      w.toNat ≤ 3 ∨ (∃ s ≤ 5, w.toNat = 4 + 0x100 * s) ∨ (∃ s ≤ 5, w.toNat = 5 + 0x100 * s) ∨
      w.toNat = 0x006 ∨ w.toNat = 0x106 ∨ w.toNat = 0x007 ∨ w.toNat = 0x107 ∨
      (0x008 ≤ w.toNat ∧ w.toNat ≤ 0x00B))

/-! ## From a command word to its rule -/

/-- The step that runs a word that decodes is `exec` of the command, with nothing around it: BUSY falls
and PC counts inside the command (30_encoding.md R72 step 3). -/
def Obligations.StepRunsTheDecodedCommand : Prop :=
  ∀ (s : State) (i : Instr), s.runs → decode s.cmd = .ok i → step s = exec i s

/-- A word that does not decode ends in IllegalCommand(0), and which words those are (30_encoding.md
R71). -/
def Obligations.IllegalWordIsRejected : Prop :=
  (∀ s : State, s.runs → s.runstate = .idle ∨ s.runstate = .active →
    (∀ i, decode s.cmd ≠ .ok i) → step s = .next (s.raise .illegalCommand 0 s.cmd)) ∧
  (∀ w : Word, (∀ i, decode w ≠ .ok i) ↔
    w.toNat / 2 ^ 11 ≠ 0 ∨ 0x0C ≤ w.toNat % 256 ∨
    (w.toNat % 256 ∈ [0x00, 0x01, 0x02, 0x03, 0x08, 0x09, 0x0A, 0x0B] ∧ w.toNat / 256 % 8 ≠ 0) ∨
    (w.toNat % 256 ∈ [0x04, 0x05] ∧ 6 ≤ w.toNat / 256 % 8) ∨
    (w.toNat % 256 ∈ [0x06, 0x07] ∧ 2 ≤ w.toNat / 256 % 8))

/-- A CMD write is dropped with OVR while BUSY = 1, ignored in a terminal state unless it is CLR, and
else accepted (30_encoding.md R72 steps 1 to 3). R72 says BUSY <- 1 for IDLE and ACTIVE; of a CLR in a
terminal state it says only that CLR is executed, and that BUSY = 1 there too until it has run is the
model's choice, deduced from 10_state.md R24 (log 2). Latching the word, and OVR and BERR for STATUS
(log 4), is the model's own record. -/
def Obligations.CommandWordAcceptance : Prop :=
  ∀ (s : State) (w : Word) (rest : List PortEvent), s.takes ⟨.write w, 0x1000, 32⟩ rest →
    (s.busy = true → step s = .next { s with port := rest, ovr := true }) ∧
    (s.busy = false → s.runstate.terminal = true → decode w ≠ .ok .clr →
      step s = .next { s with port := rest }) ∧
    (s.busy = false → s.runstate.terminal = false ∨ decode w = .ok .clr →
      step s = .next { s with
        port := rest, busy := true, cmd := w, ovrBefore := s.ovr, berrBefore := s.berr, raced := [] })

/-- `raise` writes the fault record, RUNSTATE and BUSY, with the codes of 60_exceptions.md R114, and
nothing else of the machine (R116). -/
def Obligations.FaultEntryWritesTheRecord : Prop :=
  (∀ (s : State) (cause : Cause) (info cmd : Word), s.raise cause info cmd =
    { s with
      err := cause.code, errinfo := info, epc := s.pc, ecmd := cmd, runstate := .reject,
      busy := false, raced := [] }) ∧
  Cause.code .malformedWitness = 1 ∧ Cause.code .checksumMismatch = 2 ∧
  Cause.code .canonicalizationOverflow = 3 ∧ Cause.code .magnitudeInconsistency = 4 ∧
  Cause.code .illegalCommand = 5 ∧ Cause.code .sequenceError = 6

/-- In ACCEPT and REJECT every command but CLR is ignored, without a fault (30_encoding.md R72 step 2,
60_exceptions.md R118). -/
def Obligations.TerminalStateIgnoresEveryCommandButClr : Prop :=
  ∀ (i : Instr) (s : State), i ≠ .clr → s.runstate.terminal = true →
    exec i s = .next { s with busy := false, raced := [] }

/-- A command whose selector names nothing is no command: IllegalCommand(0) with its word
(30_encoding.md R69, R71; log 13). -/
def Obligations.SelectorOutOfRangeIsIllegal : Prop :=
  ∀ (i : Instr) (s : State), ¬ i.WellFormed → s.runstate.terminal = false →
    exec i s = .next (s.raise .illegalCommand 0 (encode i))

/-! ## Control commands -/

/-- `NOP` (45_control.md R107). -/
def Obligations.NopOnlyCounts : Prop :=
  encode .nop = 0x00000000 ∧
  (∀ s : State, s.runstate = .idle ∨ s.runstate = .active →
    exec .nop s = .next { s with pc := s.pc + 1, busy := false, raced := [] }) ∧
  (∀ s : State, s.runstate = .accept ∨ s.runstate = .reject →
    exec .nop s = .next { s with busy := false, raced := [] })

/-- `START` (45_control.md R108). `seenWlen` is the declared length that START reads: what the host wrote.
Of a write that lands while START runs, whether START sees it is open, and is free in the model (log 3,
`WritesDuringACommandAreSeenWholeOrNot`). -/
def Obligations.StartFreezesOrRejects : Prop :=
  encode .start = 0x00000001 ∧
  (∀ s : State, s.raced = [] → ∀ k : Fin 5, s.seenWlen k = s.wlen[k]) ∧
  (∀ s : State, s.runstate = .idle → (∀ k : Fin 5, s.seenWlen k = witnessLengths[k]) →
    exec .start s = .next { s with
      runstate := .active, pc := s.pc + 1, busy := false, raced := [] }) ∧
  (∀ (s : State) (k : Fin 5), s.runstate = .idle → s.seenWlen k ≠ witnessLengths[k] →
    (∀ j < k, s.seenWlen j = witnessLengths[j]) →
    exec .start s = .next (s.raise .malformedWitness (BitVec.ofNat 32 k) 0x00000001)) ∧
  (∀ s : State, s.runstate = .active →
    exec .start s = .next (s.raise .sequenceError 0 0x00000001))

/-- `FIN` (45_control.md R109). -/
def Obligations.FinAccepts : Prop :=
  encode .fin = 0x0000000A ∧
  (∀ s : State, s.runstate = .active → s.chkok[0] = true → s.chkok[1] = true → s.rv = true →
    exec .fin s = .next { s with
      runstate := .accept, pc := s.pc + 1, busy := false, raced := [] }) ∧
  (∀ s : State, s.runstate = .idle ∨
      (s.runstate = .active ∧ (s.chkok[0] = false ∨ s.chkok[1] = false ∨ s.rv = false)) →
    exec .fin s = .next (s.raise .sequenceError 0 0x0000000A))

/-- `CLR` (45_control.md R110): in every state, every piece of state but WMEM back to its reset value;
CROM is constant. That this takes in an OVR, BERR, WLEN or ZIN that the host set while the CLR itself ran,
which the spec does not order against the CLR (10_state.md R27), is the model's choice (log 20), and so is
that the host's events to come and the word it last read are untouched (log 17). -/
def Obligations.ClrStartsAfresh : Prop :=
  encode .clr = 0x0000000B ∧
  ∀ s : State, ∃ t, exec .clr s = .next t ∧
    t.runstate = .idle ∧ t.busy = false ∧ t.pc = 0 ∧
    t.err = 0 ∧ t.errinfo = 0 ∧ t.epc = 0 ∧ t.ecmd = 0 ∧
    t.cf = false ∧ t.ovr = false ∧ t.berr = false ∧ t.progressWord = 0 ∧
    (∀ k : Fin 5, t.wlen[k] = 0) ∧ (∀ k : Fin 8, t.zin[k] = 0) ∧
    t.z = none ∧ t.pl = none ∧ (∀ src : Source, t.ck[src.index] = none) ∧
    (∀ p : Product, t.can[p.index] = none) ∧ t.d = none ∧ t.r = none ∧ t.carry = none ∧
    (∀ a, t.wmemByte a = s.wmemByte a) ∧ t.crom = s.crom ∧ t.port = s.port ∧ t.rdata = s.rdata

/-! ## Challenge and ladder -/

/-- `LDZ` (41_challenge_ladder.md R86): Z = ZIN mod P, CF = 1 when ZIN was below P. `seenZin` is the ZIN that
LDZ reads: the words ZIN0 .. ZIN7 (10_state.md R31). Of a write that lands while LDZ runs, whether LDZ sees
it is open, and is free in the model (log 3, `WritesDuringACommandAreSeenWholeOrNot`). -/
def Obligations.LdzReducesTheChallenge : Prop :=
  encode .ldz = 0x00000002 ∧
  (∀ s : State, s.raced = [] → s.seenZin = ∑ k : Fin 8, s.zin[k].toNat * 2 ^ (32 * k.val)) ∧
  (∀ s : State, s.crom.wf = true → s.runstate = .active → s.zv = false →
    exec .ldz s = .next { s with
      z := some (BitVec.ofNat 256 (s.seenZin % s.p)), cf := decide (s.seenZin < s.p), zv := true,
      pc := s.pc + 1, busy := false, raced := [] } ∧
    s.seenZin % s.p < s.p ∧ s.p < 2 ^ 256) ∧
  (∀ s : State, s.runstate.terminal = false → ¬ Requires .ldz s →
    exec .ldz s = .next (s.raise .sequenceError 0 0x00000002))

/-- `LADDER` (41_challenge_ladder.md R87): PL[0] = 1, PL[1] = Z, PL[i + 1] = PL[i] · Z mod P, and so
Z^i mod P when Z is a residue. -/
def Obligations.LadderHoldsThePowers : Prop :=
  encode .ladder = 0x00000003 ∧
  (∀ s : State, s.crom.wf = true → s.runstate = .active → s.zv = true → s.plv = false →
    ∃ pl : Vector (BitVec 256) 43,
      exec .ladder s = .next { s with
        pl := some pl, plv := true, pc := s.pc + 1, busy := false, raced := [] } ∧
      pl[0] = 1 ∧ pl[1] = s.zValue ∧
      (∀ (i : Nat) (h : i + 1 < 43), 1 ≤ i →
        pl[i + 1].toNat = pl[i].toNat * s.zValue.toNat % s.p) ∧
      (s.zValue.toNat < s.p → ∀ (i : Nat) (h : i < 43), pl[i].toNat = s.zValue.toNat ^ i % s.p)) ∧
  (∀ s : State, s.runstate.terminal = false → ¬ Requires .ladder s →
    exec .ladder s = .next (s.raise .sequenceError 0 0x00000003))

/-- After a LADDER that ran, PL[0] = 1 and PL[i] = mulmod(PL[i−1], Z, P) for i in 1 .. 42, when Z is a
residue (41_challenge_ladder.md R88). -/
def Obligations.LadderEntriesAreRepeatedProducts : Prop :=
  ∀ s : State, s.crom.wf = true → Requires .ladder s → s.zValue.toNat < s.p →
    ∃ t, exec .ladder s = .next t ∧ t.plv = true ∧ t.plValue 0 = 1 ∧
      ∀ i, 1 ≤ i → i < 43 →
        (t.plValue i).toNat = mulmod (t.plValue (i - 1)).toNat s.zValue.toNat s.p

/-! ## Checksums -/

/-- `ACC s` (42_checksum.md R90): CK[s] is the exact sum of (Elem(s, i) · PL[i]) mod P, and congruent to
checksum(s) when PL holds the powers of Z. -/
def Obligations.AccSumsTheTerms : Prop :=
  (∀ sel, encode (.acc sel) = BitVec.ofNat 32 (0x00000004 + 0x100 * sel.toNat)) ∧
  (∀ (s : State) (sel : BitVec 3) (src : Source), Source.ofSel sel = some src →
    s.crom.wf = true → s.runstate = .active → s.plv = true → s.ckst[src.index] = .empty →
    ∃ v : BitVec 288,
      exec (.acc sel) s = .next { s with
        ck := s.ck.set src.index (some v), ckst := s.ckst.set src.index .raw,
        pc := s.pc + 1, busy := false, raced := [] } ∧
      v.toNat = ∑ i ∈ Finset.range src.nelem, s.elem src i * (s.plValue i).toNat % s.p ∧
      ((∀ i < src.nelem, (s.plValue i).toNat = s.zValue.toNat ^ i % s.p) →
        v.toNat % s.p = s.checksum src)) ∧
  (∀ (s : State) (sel : BitVec 3), (Instr.acc sel).WellFormed → s.runstate.terminal = false →
    ¬ Requires (.acc sel) s →
    exec (.acc sel) s = .next (s.raise .sequenceError 0 (BitVec.ofNat 32 (0x00000004 + 0x100 * sel.toNat))))

/-- The overflow word of a raw accumulator is at most n − 1, and the running sum never carries out of
288 bits (42_checksum.md R91). -/
def Obligations.AccOverflowWordIsSmall : Prop :=
  (∀ (s t : State) (sel : BitVec 3) (src : Source), Source.ofSel sel = some src →
    s.crom.wf = true → s.plv = true → s.ckst[src.index] = .empty → s.runstate = .active →
    exec (.acc sel) s = .next t →
    (t.ckValue src).toNat ≤ src.nelem * (s.p - 1) ∧
    (t.ckValue src).toNat / 2 ^ 256 ≤ src.nelem - 1) ∧
  (∀ (s : State) (sel : BitVec 3), s.crom.wf = true → exec (.acc sel) s ≠ .fault .carryLost)

/-- `RED s` (42_checksum.md R92, R94): the result is the raw value mod P for every raw value of 288 bits,
and CF = 1 exactly when the folded value was below P. -/
def Obligations.RedIsTheCanonicalResidue : Prop :=
  (∀ sel, encode (.red sel) = BitVec.ofNat 32 (0x00000005 + 0x100 * sel.toNat)) ∧
  (∀ (s : State) (sel : BitVec 3) (src : Source), Source.ofSel sel = some src →
    s.crom.wf = true → s.runstate = .active → s.ckst[src.index] = .raw →
    exec (.red sel) s = .next { s with
      ck := s.ck.set src.index (some (BitVec.ofNat 288 ((s.ckValue src).toNat % s.p))),
      ckst := s.ckst.set src.index .reduced,
      cf := decide (foldValue s.crom.c.toNat (foldValue s.crom.c.toNat (s.ckValue src).toNat) < s.p),
      pc := s.pc + 1, busy := false, raced := [] } ∧
    (s.ckValue src).toNat % s.p < s.p) ∧
  (∀ (s : State) (sel : BitVec 3), (Instr.red sel).WellFormed → s.runstate.terminal = false →
    ¬ Requires (.red sel) s →
    exec (.red sel) s = .next (s.raise .sequenceError 0 (BitVec.ofNat 32 (0x00000005 + 0x100 * sel.toNat))))

/-- Two folds always suffice and carry nothing out: RED ends in neither of the model's faults
(42_checksum.md R93, 40_word_arith.md R79). -/
def Obligations.TwoFoldsSuffice : Prop :=
  ∀ (s : State) (sel : BitVec 3), s.crom.wf = true →
    exec (.red sel) s ≠ .fault .carryLost ∧ exec (.red sel) s ≠ .fault .foldUnfinished

/-- `CHK j` (42_checksum.md R95). -/
def Obligations.ChkPassesOrMismatches : Prop :=
  (∀ sel, encode (.chk sel) = BitVec.ofNat 32 (0x00000006 + 0x100 * sel.toNat)) ∧
  (∀ (s : State) (sel : BitVec 3) (j : Identity), Identity.ofSel sel = some j →
    s.crom.wf = true → Requires (.chk sel) s →
    (s.ckValue j.x).toNat % 2 ^ 256 * ((s.ckValue j.y).toNat % 2 ^ 256) % s.p
      = (s.ckValue j.w).toNat % 2 ^ 256 →
    exec (.chk sel) s = .next { s with
      chkok := s.chkok.set j.index true, pc := s.pc + 1, busy := false, raced := [] }) ∧
  (∀ (s : State) (sel : BitVec 3) (j : Identity), Identity.ofSel sel = some j →
    s.crom.wf = true → Requires (.chk sel) s →
    (s.ckValue j.x).toNat % 2 ^ 256 * ((s.ckValue j.y).toNat % 2 ^ 256) % s.p
      ≠ (s.ckValue j.w).toNat % 2 ^ 256 →
    exec (.chk sel) s = .next (s.raise .checksumMismatch (BitVec.ofNat 32 j.index)
      (BitVec.ofNat 32 (0x00000006 + 0x100 * sel.toNat)))) ∧
  (∀ (s : State) (sel : BitVec 3), (Instr.chk sel).WellFormed → s.runstate.terminal = false →
    ¬ Requires (.chk sel) s →
    exec (.chk sel) s = .next (s.raise .sequenceError 0 (BitVec.ofNat 32 (0x00000006 + 0x100 * sel.toNat))))

/-- If a product array holds the true long-form product, slot k = Σ_{i+j=k} x_i · y_j, then CHK passes,
whatever the challenge (42_checksum.md R97). -/
def Obligations.TrueProductPassesTheIdentity : Prop :=
  ∀ (s : State) (sel : BitVec 3) (j : Identity), s.Inv → Identity.ofSel sel = some j →
    Requires (.chk sel) s →
    (∀ k < 43, s.elem j.w k = ∑ i ∈ Finset.range 22,
      if i ≤ k ∧ k - i < 22 then s.elem j.x i * s.elem j.y (k - i) else 0) →
    exec (.chk sel) s = .next { s with
      chkok := s.chkok.set j.index true, pc := s.pc + 1, busy := false, raced := [] }

/-! ## Canonicalizer -/

/-- `CANON t` (43_canonicalizer.md R99, R100): CAN[t] is the exact value of the product when that is below
2^4128, else CanonicalizationOverflow(t). What CAN[t] and CARRY hold after the fault is left open
(U4). -/
def Obligations.CanonIsExactOrOverflows : Prop :=
  (∀ sel, encode (.canon sel) = BitVec.ofNat 32 (0x00000007 + 0x100 * sel.toNat)) ∧
  (∀ (s : State) (sel : BitVec 3) (t : Product), Product.ofSel sel = some t →
    s.runstate = .active → s.canv[t.index] = false → s.arrayValue t.source < 2 ^ 4128 →
    ∃ v : BitVec 4128, v.toNat = s.arrayValue t.source ∧
      exec (.canon sel) s = .next { s with
        can := s.can.set t.index (some v), carry := some 0, canv := s.canv.set t.index true,
        pc := s.pc + 1, busy := false, raced := [] }) ∧
  (∀ (s : State) (sel : BitVec 3) (t : Product), Product.ofSel sel = some t →
    s.runstate = .active → s.canv[t.index] = false → 2 ^ 4128 ≤ s.arrayValue t.source →
    ∃ can carry,
      exec (.canon sel) s = .next (State.raise { s with can := s.can.set t.index can, carry := carry }
        .canonicalizationOverflow (BitVec.ofNat 32 t.index)
        (BitVec.ofNat 32 (0x00000007 + 0x100 * sel.toNat)))) ∧
  (∀ (s : State) (sel : BitVec 3), (Instr.canon sel).WellFormed → s.runstate.terminal = false →
    ¬ Requires (.canon sel) s →
    exec (.canon sel) s = .next (s.raise .sequenceError 0 (BitVec.ofNat 32 (0x00000007 + 0x100 * sel.toNat))))

/-! ## Reconciler -/

/-- `SUBX` (44_reconciler.md R103): D is the difference modulo 2^4128 and CF its borrow, fault or not;
ERRINFO bit 0 is the borrow, bit 1 says that D needs more than 64 words. -/
def Obligations.SubxIsExactOrRejects : Prop :=
  encode .subx = 0x00000008 ∧
  (∀ s : State, Requires .subx s →
    s.canValue .kn ≤ s.canValue .c → (s.canValue .c - s.canValue .kn).toNat < 2 ^ 2048 →
    exec .subx s = .next { s with
      d := some (s.canValue .c - s.canValue .kn), cf := false, dv := true,
      pc := s.pc + 1, busy := false, raced := [] }) ∧
  (∀ s : State, Requires .subx s →
    ¬ (s.canValue .kn ≤ s.canValue .c ∧ (s.canValue .c - s.canValue .kn).toNat < 2 ^ 2048) →
    exec .subx s = .next (State.raise { s with
        d := some (s.canValue .c - s.canValue .kn), cf := decide (s.canValue .c < s.canValue .kn) }
      .magnitudeInconsistency
      ((if s.canValue .c < s.canValue .kn then 1 else 0) +
        (if 2 ^ 2048 ≤ (s.canValue .c - s.canValue .kn).toNat then 2 else 0)) 0x00000008)) ∧
  (∀ s : State, s.runstate.terminal = false → ¬ Requires .subx s →
    exec .subx s = .next (s.raise .sequenceError 0 0x00000008))

/-- `FRED` (44_reconciler.md R104): one conditional subtraction of N from the low 2048 bits of D. -/
def Obligations.FredReducesOnce : Prop :=
  encode .fred = 0x00000009 ∧
  (∀ s : State, Requires .fred s →
    exec .fred s = .next { s with
      r := some (if s.dValue.toNat % 2 ^ 2048 < s.crom.n.toNat then s.dValue.setWidth 2048
        else s.dValue.setWidth 2048 - s.crom.n),
      cf := decide (s.dValue.toNat % 2 ^ 2048 < s.crom.n.toNat), rv := true,
      pc := s.pc + 1, busy := false, raced := [] }) ∧
  (∀ s : State, s.runstate.terminal = false → ¬ Requires .fred s →
    exec .fred s = .next (s.raise .sequenceError 0 0x00000009))

/-- What FRED guarantees and what not: R ≡ D (mod N), R ≤ D, R = D or R = D − N, and R < N exactly when
D < 2 · N (44_reconciler.md R105), for the D < 2^2048 that SUBX leaves. -/
def Obligations.FredGuarantees : Prop :=
  ∀ s : State, s.crom.wf = true → Requires .fred s → s.dValue.toNat < 2 ^ 2048 →
    ∃ t, exec .fred s = .next t ∧ t.rv = true ∧
      t.rValue.toNat % s.crom.n.toNat = s.dValue.toNat % s.crom.n.toNat ∧
      t.rValue.toNat ≤ s.dValue.toNat ∧
      (t.rValue.toNat = s.dValue.toNat ∨ t.rValue.toNat + s.crom.n.toNat = s.dValue.toNat) ∧
      (t.rValue.toNat < s.crom.n.toNat ↔ s.dValue.toNat < 2 * s.crom.n.toNat)

/-! ## What no command does -/

/-- No command stores to WMEM or changes CROM, the events to come or the word last read
(00_scope.md R15, 10_state.md R20). -/
def Obligations.NoCommandWritesMemory : Prop :=
  ∀ (i : Instr) (s t : State), exec i s = .next t →
    (∀ a, t.wmemByte a = s.wmemByte a) ∧ t.crom = s.crom ∧ t.port = s.port ∧ t.rdata = s.rdata

/-- CF is written by LDZ, RED, SUBX and FRED, cleared by CLR, and left alone by every other command
(10_state.md R26). -/
def Obligations.OnlyFourCommandsWriteCf : Prop :=
  ∀ (i : Instr) (s t : State), exec i s = .next t →
    ¬ (i = .ldz ∨ (∃ sel, i = .red sel) ∨ i = .subx ∨ i = .fred) →
    t.cf = if i = .clr then false else s.cf

/-- Every command terminates and every step answers a next state, for a CROM in range
(70_reset_and_hazards.md R137, 60_exceptions.md R115). -/
def Obligations.EveryStepAnswersANextState : Prop :=
  (∀ (i : Instr) (s : State), s.crom.wf = true → ∃ t, exec i s = .next t) ∧
  (∀ s : State, s.crom.wf = true → ∃ t, step s = .next t)

/-! ## The machine as a whole -/

/-- The codes of RUNSTATE, its reset value and its only transitions (10_state.md R23). -/
def Obligations.RunStateChangesOnlyAsAllowed : Prop :=
  RunState.code .idle = 0 ∧ RunState.code .active = 1 ∧ RunState.code .accept = 2 ∧
  RunState.code .reject = 3 ∧ State.reset.runstate = .idle ∧
  ∀ s t : State, step s = .next t →
    t.runstate = s.runstate ∨
    (s.runstate = .idle ∧ t.runstate = .active ∧ s.runs ∧ decode s.cmd = .ok .start) ∨
    (s.runstate = .active ∧ t.runstate = .accept ∧ s.runs ∧ decode s.cmd = .ok .fin) ∨
    ((s.runstate = .idle ∨ s.runstate = .active) ∧ t.runstate = .reject ∧ s.runs ∧
      ∃ u cause info, t = State.raise u cause info s.cmd) ∨
    (t.runstate = .idle ∧ s.restarts)

/-- ACCEPT is entered by FIN alone, with both identities checked and the remainder there
(10_state.md R23, 45_control.md R109). -/
def Obligations.AcceptOnlyByFin : Prop :=
  ∀ s t : State, step s = .next t → s.runstate ≠ .accept → t.runstate = .accept →
    s.runs ∧ decode s.cmd = .ok .fin ∧ s.runstate = .active ∧
    s.chkok[0] = true ∧ s.chkok[1] = true ∧ s.rv = true ∧
    t = { s with runstate := .accept, pc := s.pc + 1, busy := false, raced := [] }

/-- A fault leaves the state before the faulting command, with the writes of `raise` and, for SUBX, D and
CF, and, for CANON, CAN and CARRY (60_exceptions.md R116, R117). -/
def Obligations.FaultsArePrecise : Prop :=
  ∀ s t : State, step s = .next t → s.runstate ≠ .reject → t.runstate = .reject →
    s.runs ∧ 1 ≤ t.err.toNat ∧ t.err.toNat ≤ 6 ∧
    ∃ d cf can carry,
      t = { s with
        err := t.err, errinfo := t.errinfo, epc := s.pc, ecmd := s.cmd, runstate := .reject,
        busy := false, raced := [], d := d, cf := cf, can := can, carry := carry } ∧
      (decode s.cmd ≠ .ok .subx → d = s.d ∧ cf = s.cf) ∧
      ((∀ sel, decode s.cmd ≠ .ok (.canon sel)) → can = s.can ∧ carry = s.carry)

/-- Within a run no progress flag goes back and no datum whose flag is set is written again
(10_state.md R22, R29). -/
def Obligations.ProgressNeverGoesBack : Prop :=
  ∀ s t : State, step s = .next t → ¬ s.restarts →
    (s.zv = true → t.zv = true ∧ t.z = s.z) ∧
    (s.plv = true → t.plv = true ∧ t.pl = s.pl) ∧
    (∀ src : Source, s.ckst[src.index] = .reduced →
      t.ckst[src.index] = .reduced ∧ t.ck[src.index] = s.ck[src.index]) ∧
    (∀ src : Source, s.ckst[src.index] = .raw → t.ckst[src.index] ≠ .empty) ∧
    (∀ j : Identity, s.chkok[j.index] = true → t.chkok[j.index] = true) ∧
    (∀ p : Product, s.canv[p.index] = true → t.canv[p.index] = true ∧ t.can[p.index] = s.can[p.index]) ∧
    (s.dv = true → t.dv = true ∧ t.d = s.d) ∧
    (s.rv = true → t.rv = true ∧ t.r = s.r)

/-- In ACCEPT and REJECT nothing but CLR and reset changes the outcome, the fault record, the progress
or any datum (30_encoding.md R72, 60_exceptions.md R121, 10_state.md R28). -/
def Obligations.TerminalStateIsFrozen : Prop :=
  ∀ s t : State, step s = .next t → s.runstate.terminal = true → ¬ s.restarts →
    t = { s with
      busy := t.busy, cmd := t.cmd, ovrBefore := t.ovrBefore, berrBefore := t.berrBefore,
      ovr := t.ovr, berr := t.berr, raced := t.raced, port := t.port, rdata := t.rdata, draws := t.draws }

/-- Outside IDLE the witness and its declared lengths are frozen until CLR or reset, and ZIN from LDZ on
(20_memory.md R58, R55). -/
def Obligations.WitnessIsFrozenOutsideIdle : Prop :=
  ∀ s t : State, step s = .next t → s.runstate ≠ .idle → ¬ s.restarts →
    (∀ a, t.wmemByte a = s.wmemByte a) ∧ t.wlen = s.wlen ∧ t.crom = s.crom ∧
    (s.zv = true → t.zin = s.zin)

/-- OVR and BERR are sticky: only CLR and reset clear them (10_state.md R27). -/
def Obligations.PortFlagsAreSticky : Prop :=
  ∀ s t : State, step s = .next t → ¬ s.restarts →
    (s.ovr = true → t.ovr = true) ∧ (s.berr = true → t.berr = true) ∧
    (s.ovr = false → t.ovr = true → s.busy = true ∧ ∃ w rest, s.takes ⟨.write w, 0x1000, 32⟩ rest) ∧
    (s.berr = false → t.berr = true → ∃ a rest, s.takes a rest ∧ s.Refuses a)

/-- BUSY falls when the command completes or faults, the events to come untouched (10_state.md R24,
30_encoding.md R72 d). -/
def Obligations.BusyFallsWhenTheCommandEnds : Prop :=
  ∀ s t : State, s.runs → step s = .next t → t.busy = false ∧ t.port = s.port

/-- Two commands that run in both orders leave the same data and the same flags in either (20_memory.md
R66), but for CF and CARRY, which the last writer sets. -/
def Obligations.IndependentCommandsCommute : Prop :=
  ∀ (i j : Instr) (s si sij sj sji : State), s.raced = [] →
    exec i s = .next si → exec j si = .next sij → exec j s = .next sj → exec i sj = .next sji →
    si.runstate = .active → sij.runstate = .active → sj.runstate = .active → sji.runstate = .active →
    sij.z = sji.z ∧ sij.pl = sji.pl ∧ sij.ck = sji.ck ∧ sij.can = sji.can ∧ sij.d = sji.d ∧
    sij.r = sji.r ∧ sij.progressWord = sji.progressWord ∧ sij.pc = sji.pc ∧
    sij.err = sji.err ∧ sij.wmem = sji.wmem ∧ sij.wlen = sji.wlen ∧ sij.zin = sji.zin

/-! ## Host port -/

/-- The refused accesses are those of 20_memory.md R55: not performed, a read returns 0, BERR set, no other
effect; every other access leaves BERR. -/
def Obligations.RefusedAccessesOnlySetBerr : Prop :=
  (∀ (s : State) (a : HostAccess) (rest : List PortEvent), s.takes a rest → s.Refuses a →
    step s = .next { s with
      port := rest, berr := true, rdata := if a.kind = .read then 0 else s.rdata }) ∧
  (∀ (s : State) (a : HostAccess) (rest : List PortEvent), s.takes a rest → ¬ s.Refuses a →
    ∃ t, step s = .next t ∧ t.berr = s.berr)

/-- With no command running a host read returns what 10_state.md R42 says the register holds, R only in
ACCEPT (R45), and has no side effect (20_memory.md R57). -/
def Obligations.HostReadsShowTheRegisters : Prop :=
  ∀ (s : State) (off : Nat) (v : Word) (rest : List PortEvent), s.busy = false →
    s.takes ⟨.read, off, 32⟩ rest → s.Shows off v →
    step s = .next { s with port := rest, rdata := v }

/-- While BUSY = 1 a read of STATUS shows BUSY = 1 and the other fields, OVR and BERR among them with their
values from before the command (`StatusStandsStillWhileACommandRuns`), and a read of another register
returns some value and changes nothing of the machine (20_memory.md R61). The fields that hold OVR and BERR
from before the command (log 4), and that the other value is drawn by a counter (log 5), are the
model's own. -/
def Obligations.ReadsWhileBusy : Prop :=
  ∀ (s : State) (off : Nat) (rest : List PortEvent), s.busy = true →
    s.takes ⟨.read, off, 32⟩ rest → mappedOffset off → off % 4 = 0 →
    (off = 0x1004 → step s = .next { s with port := rest, rdata := s.statusWord } ∧
      s.statusWord.getLsbD 2 = true ∧
      s.statusWord.getLsbD 8 = s.ovrBefore ∧ s.statusWord.getLsbD 9 = s.berrBefore) ∧
    (off ≠ 0x1004 → ∃ v, step s = .next { s with port := rest, rdata := v, draws := s.draws + 1 })

/-- Performed host writes: WMEM word k stores bytes 4k .. 4k + 3 little-endian and no other (20_memory.md
R50), WLENk and ZINk store the word (10_state.md R30, R31), with no other effect (R57). A write of WLEN or
ZIN while a command runs is also noted as a race, with the word it displaced, which is the model's own
record (log 3). -/
def Obligations.HostWritesLand : Prop :=
  (∀ (s : State) (k : Fin 800) (v : Word) (rest : List PortEvent), s.takes ⟨.write v, 4 * k, 32⟩ rest →
    s.runstate = .idle →
    ∃ m, step s = .next { s with port := rest, wmem := m } ∧
      ∀ a, State.wmemByte { s with port := rest, wmem := m } a =
        if 4 * k.val ≤ a ∧ a < 4 * k.val + 4 then v.extractLsb' (8 * (a - 4 * k)) 8 else s.wmemByte a) ∧
  (∀ (s : State) (k : Fin 5) (v : Word) (rest : List PortEvent),
    s.takes ⟨.write v, 0x1020 + 4 * k, 32⟩ rest → s.runstate = .idle →
    step s = .next { s with
      port := rest, wlen := s.wlen.set k v,
      raced := if s.busy then (.wlen k, s.wlen[k]) :: s.raced else s.raced,
      draws := if s.busy then s.draws + 1 else s.draws }) ∧
  (∀ (s : State) (k : Fin 8) (v : Word) (rest : List PortEvent),
    s.takes ⟨.write v, 0x1040 + 4 * k, 32⟩ rest → s.runstate = .idle ∨ s.runstate = .active →
    s.zv = false →
    step s = .next { s with
      port := rest, zin := s.zin.set k v,
      raced := if s.busy then (.zin k, s.zin[k]) :: s.raced else s.raced,
      draws := if s.busy then s.draws + 1 else s.draws })

/-- From the moment a command word is accepted until the command ends, STATUS reads with BUSY = 1 and every
other field as before the command (20_memory.md R61): acceptance changes bit 2 alone, and no event but a
reset changes the register while the command runs. -/
def Obligations.StatusStandsStillWhileACommandRuns : Prop :=
  (∀ (s t : State) (w : Word) (rest : List PortEvent), s.takes ⟨.write w, 0x1000, 32⟩ rest →
    s.busy = false → step s = .next t → t.busy = true → t.statusWord = s.statusWord ||| 0x00000004) ∧
  (∀ s t : State, s.busy = true → ¬ s.runs → s.port.head? ≠ some .reset → step s = .next t →
    t.busy = true ∧ t.statusWord = s.statusWord)

/-- A host write of WLEN or ZIN that lands while a command runs is seen by that command whole or not at all
(20_memory.md R56, R60, R61): each word that the command reads is the one the register holds or one that a
write displaced while the command ran, and with one such write the command reads all its inputs as they
were before the write or all as they are after it. Which of the two is free (log 3). -/
def Obligations.WritesDuringACommandAreSeenWholeOrNot : Prop :=
  (∀ (s : State) (k : Fin 5), s.seenWlen k = s.wlen[k] ∨ (.wlen k, s.seenWlen k) ∈ s.raced) ∧
  (∀ (s : State) (k : Fin 8), s.seenZinWord k = s.zin[k] ∨ (.zin k, s.seenZinWord k) ∈ s.raced) ∧
  (∀ (s t : State) (a : HostAccess) (rest : List PortEvent), s.takes a rest → s.busy = true →
    s.raced = [] → step s = .next t →
    ((∀ k : Fin 5, t.seenWlen k = s.wlen[k]) ∧ (∀ k : Fin 8, t.seenZinWord k = s.zin[k])) ∨
    ((∀ k : Fin 5, t.seenWlen k = t.wlen[k]) ∧ (∀ k : Fin 8, t.seenZinWord k = t.zin[k])))

/-- The layout of STATUS (10_state.md R43). While a command runs bits 8 and 9 are OVR and BERR from before it
(20_memory.md R61); that they are kept in the fields `ovrBefore` and `berrBefore` is the model's choice of
form (log 4). -/
def Obligations.StatusLayout : Prop :=
  State.reset.statusWord = 0x00000000 ∧
  ∀ s : State,
    s.statusWord.extractLsb' 0 2 = s.runstate.code ∧
    s.statusWord.getLsbD 2 = s.busy ∧
    s.statusWord.getLsbD 3 = s.cf ∧
    s.statusWord.extractLsb' 4 4 = s.err ∧
    s.statusWord.getLsbD 8 = (if s.busy then s.ovrBefore else s.ovr) ∧
    s.statusWord.getLsbD 9 = (if s.busy then s.berrBefore else s.berr) ∧
    s.statusWord.extractLsb' 10 22 = 0

/-- The layout of PROGRESS (10_state.md R44); with every flag as the standard program leaves it the
register reads 0x000FEAAB. -/
def Obligations.ProgressLayout : Prop :=
  State.reset.progressWord = 0x00000000 ∧
  (∀ s : State,
    s.progressWord.getLsbD 0 = s.zv ∧
    s.progressWord.getLsbD 1 = s.plv ∧
    (∀ src : Source, s.progressWord.extractLsb' (2 + 2 * src.index) 2 = s.ckst[src.index].code) ∧
    (∀ j : Identity, s.progressWord.getLsbD (14 + j.index) = s.chkok[j.index]) ∧
    (∀ t : Product, s.progressWord.getLsbD (16 + t.index) = s.canv[t.index]) ∧
    s.progressWord.getLsbD 18 = s.dv ∧
    s.progressWord.getLsbD 19 = s.rv ∧
    s.progressWord.extractLsb' 20 12 = 0) ∧
  (∀ s : State, s.zv = true → s.plv = true → (∀ src : Source, s.ckst[src.index] = .reduced) →
    (∀ j : Identity, s.chkok[j.index] = true) → (∀ t : Product, s.canv[t.index] = true) →
    s.dv = true → s.rv = true → s.progressWord = 0x000FEAAB)

/-! ## Memories -/

/-- The contents of CROM: N_OP at bytes 0 .. 263, P at 264 .. 295, CC at 296 .. 327 (10_state.md R41). -/
def Obligations.CromLayout : Prop :=
  ∀ m : Crom, m.wf = true →
    m.read 0 264 = m.n.toNat ∧ m.read 264 32 = 2 ^ 256 - m.c.toNat ∧ m.read 296 32 = m.c.toNat ∧
    ∀ a, 256 ≤ a → a < 264 → m.byte a = 0

/-- An Operand's limbs denote the little-endian integer of its 264 bytes: A, B and K in WMEM, N in CROM
(20_memory.md R50, R51, R52). -/
def Obligations.OperandIsTheIntegerOfItsBytes : Prop :=
  ∀ s : State,
    s.arrayValue .a = s.memRead 0 264 ∧ s.arrayValue .b = s.memRead 264 264 ∧
    s.arrayValue .k = s.memRead 1732 264 ∧ s.arrayValue .n = s.crom.n.toNat

/-- Every element of the witness is the little-endian number of its own bytes (20_memory.md R49, R51, R52):
the limbs of A, B and K are 12 bytes of WMEM each, those of N 12 bytes of CROM, the slots of C and KN 28
bytes of WMEM each. -/
def Obligations.ElementsAreTheirBytes : Prop :=
  (∀ src : Source, src.nelem = if src = .c ∨ src = .kn then 43 else 22) ∧
  (∀ s : State, ∀ i < 22,
    s.elem .a i = s.memRead (0 + 12 * i) 12 ∧ s.elem .b i = s.memRead (264 + 12 * i) 12 ∧
    s.elem .k i = s.memRead (1732 + 12 * i) 12 ∧ s.elem .n i = s.crom.read (0 + 12 * i) 12) ∧
  (∀ s : State, ∀ i < 43,
    s.elem .c i = s.memRead (528 + 28 * i) 28 ∧ s.elem .kn i = s.memRead (1996 + 28 * i) 28) ∧
  (∀ (s : State) (addr n : Nat),
    s.memRead addr n = ∑ k ∈ Finset.range n, (s.wmemByte (addr + k)).toNat * 2 ^ (8 * k)) ∧
  (∀ (m : Crom) (addr n : Nat),
    m.read addr n = ∑ k ∈ Finset.range n, (m.byte (addr + k)).toNat * 2 ^ (8 * k))

/-! ## Reset -/

/-- A reset, at any moment, leaves the values of 70_reset_and_hazards.md R129, and CROM as it is; the
registers the host can read are 0 (R128, R129). What WMEM holds is free and left open here (U1). -/
def Obligations.ResetLeavesTheResetValues : Prop :=
  ∀ (s : State) (rest : List PortEvent), s.port = .reset :: rest →
    ∃ t, step s = .next t ∧
      t.runstate = .idle ∧ t.busy = false ∧ t.pc = 0 ∧
      t.err = 0 ∧ t.errinfo = 0 ∧ t.epc = 0 ∧ t.ecmd = 0 ∧
      t.cf = false ∧ t.ovr = false ∧ t.berr = false ∧ t.noProgress ∧
      (∀ k : Fin 5, t.wlen[k] = 0) ∧ (∀ k : Fin 8, t.zin[k] = 0) ∧
      t.z = none ∧ t.pl = none ∧ (∀ src : Source, t.ck[src.index] = none) ∧
      (∀ p : Product, t.can[p.index] = none) ∧ t.d = none ∧ t.r = none ∧ t.carry = none ∧
      t.crom = s.crom ∧ t.port = rest ∧
      t.statusWord = 0 ∧ t.progressWord = 0 ∧ (∀ k, t.resWord k = 0)

/-- With no event and no command in progress the machine waits, all state retained
(70_reset_and_hazards.md R128, 60_exceptions.md R127). -/
def Obligations.IdleMachineWaits : Prop :=
  ∀ s : State, s.port = [] → s.busy = false → step s = .next s

/-! ## The invariant -/

/-- The invariant holds after reset. -/
def Obligations.InvariantHoldsAtReset : Prop := State.reset.Inv

/-- Every step keeps the invariant: canonical memory, parameters in range, the fault record, the ladder as
powers of Z, every checksum and canonical integer the exact number of the frozen witness, ACCEPT only
after every step of the state machine. -/
def Obligations.StepKeepsTheInvariant : Prop :=
  ∀ s t : State, s.Inv → step s = .next t → t.Inv

/-- What an ACCEPT delivers: both identities hold of the checksums of the witness, the two products fit and
do not underflow, R is their exact difference reduced once by N, the host reads R; and if the products are
those of A · B and K · N with K the floor quotient, R is A · B mod N (45_control.md R109,
44_reconciler.md R103 to R106). -/
def Obligations.AcceptDeliversTheReducedDifference : Prop :=
  ∀ s t : State, s.Inv → step s = .next t → s.runstate ≠ .accept → t.runstate = .accept →
    t.checksum .a * t.checksum .b % t.p = t.checksum .c ∧
    t.checksum .k * t.checksum .n % t.p = t.checksum .kn ∧
    t.arrayValue .kn ≤ t.arrayValue .c ∧ t.arrayValue .c < 2 ^ 4128 ∧
    ∃ r : BitVec 2048, t.r = some r ∧ (∀ k < 64, t.resWord k = r.extractLsb' (32 * k) 32) ∧
      r.toNat = (if t.arrayValue .c - t.arrayValue .kn < t.crom.n.toNat
        then t.arrayValue .c - t.arrayValue .kn
        else t.arrayValue .c - t.arrayValue .kn - t.crom.n.toNat) ∧
      (t.arrayValue .c = t.arrayValue .a * t.arrayValue .b →
        t.arrayValue .kn = t.arrayValue .k * t.arrayValue .n →
        t.arrayValue .k = t.arrayValue .a * t.arrayValue .b / t.crom.n.toNat →
        r.toNat = t.arrayValue .a * t.arrayValue .b % t.crom.n.toNat)
end

