-- ==== Sys2Proof/Laws/Arith.lean ====
section
/-!
SUPPORT. What the word arithmetic computes, as exact integer laws (40_word_arith.md R75 to R80): the
lemmas to cite instead of unfolding the ripple loops.
-/

namespace Sys2Proof.Machine

theorem wordAt_toNat (x k : Nat) : (wordAt x k).toNat = x / 2 ^ (32 * k) % 2 ^ 32 := by
  simp [wordAt]

/-- The low k + 1 words are the low k words and word k on top. -/
theorem mod_succ_word (x k : Nat) :
    x % 2 ^ (32 * (k + 1)) = x % 2 ^ (32 * k) + (wordAt x k).toNat * 2 ^ (32 * k) := by
  rw [wordAt_toNat, show 32 * (k + 1) = 32 * k + 32 by ring, pow_add, Nat.mod_mul, Nat.mul_comm]
  ring

/-- s + 2^32 · cout = x + y + cin (40_word_arith.md R75). -/
theorem adc32_law (x y : Word) (cin : Bool) :
    (adc32 x y cin).1.toNat + 2 ^ 32 * (adc32 x y cin).2.toNat = x.toNat + y.toNat + cin.toNat := by
  have hx := x.isLt
  have hy := y.isLt
  have hc : cin.toNat ≤ 1 := Bool.toNat_le cin
  simp only [adc32, BitVec.toNat_ofNat]
  by_cases h : (x.toNat + y.toNat + cin.toNat) / 2 ^ 32 = 1
  · rw [decide_eq_true h, Bool.toNat_true]
    omega
  · rw [decide_eq_false h, Bool.toNat_false]
    omega

/-- d − 2^32 · bout = x − y − bin (40_word_arith.md R76). -/
theorem sbb32_law (x y : Word) (bin : Bool) :
    (sbb32 x y bin).1.toNat + y.toNat + bin.toNat = x.toNat + 2 ^ 32 * (sbb32 x y bin).2.toNat := by
  have hx := x.isLt
  have hy := y.isLt
  have hc : bin.toNat ≤ 1 := Bool.toNat_le bin
  simp only [sbb32]
  split <;> simp <;> omega

/-- The n-word sum is an n-word number. -/
theorem addw_lt (n x y : Nat) (cin : Bool) : (addw n x y cin).1 < 2 ^ (32 * n) := by
  induction n with
  | zero => simp [addw]
  | succ k ih =>
    have hw := (adc32 (wordAt x k) (wordAt y k) (addw k x y cin).2).1.isLt
    simp only [addw]
    calc _ < 2 ^ (32 * k) + (adc32 (wordAt x k) (wordAt y k) (addw k x y cin).2).1.toNat * 2 ^ (32 * k) := by
          omega
      _ = ((adc32 (wordAt x k) (wordAt y k) (addw k x y cin).2).1.toNat + 1) * 2 ^ (32 * k) := by ring
      _ ≤ 2 ^ 32 * 2 ^ (32 * k) := Nat.mul_le_mul_right _ hw
      _ = 2 ^ (32 * (k + 1)) := by rw [← pow_add]; congr 1; ring

theorem addw_law_mod (n x y : Nat) (cin : Bool) :
    (addw n x y cin).1 + 2 ^ (32 * n) * (addw n x y cin).2.toNat =
      x % 2 ^ (32 * n) + y % 2 ^ (32 * n) + cin.toNat := by
  induction n with
  | zero => simp [addw, Nat.mod_one]
  | succ k ih =>
    have hw := adc32_law (wordAt x k) (wordAt y k) (addw k x y cin).2
    simp only [addw]
    rw [mod_succ_word x, mod_succ_word y, show 32 * (k + 1) = 32 * k + 32 by ring, pow_add]
    generalize adc32 (wordAt x k) (wordAt y k) (addw k x y cin).2 = top at hw ⊢
    generalize 2 ^ (32 * k) = m at ih ⊢
    calc (addw k x y cin).1 + top.1.toNat * m + m * 2 ^ 32 * top.2.toNat
        = (addw k x y cin).1 + m * (top.1.toNat + 2 ^ 32 * top.2.toNat) := by ring
      _ = ((addw k x y cin).1 + m * (addw k x y cin).2.toNat) +
            m * ((wordAt x k).toNat + (wordAt y k).toNat) := by rw [hw]; ring
      _ = _ := by rw [ih]; ring

/-- S + 2^(32n) · cout = X + Y + cin (40_word_arith.md R77). -/
theorem addw_law (n x y : Nat) (cin : Bool) (hx : x < 2 ^ (32 * n)) (hy : y < 2 ^ (32 * n)) :
    (addw n x y cin).1 + 2 ^ (32 * n) * (addw n x y cin).2.toNat = x + y + cin.toNat := by
  rw [addw_law_mod, Nat.mod_eq_of_lt hx, Nat.mod_eq_of_lt hy]

/-- A sum that fits in n words carries nothing out. -/
theorem addw_eq (n x y : Nat) (cin : Bool) (h : x + y + cin.toNat < 2 ^ (32 * n)) :
    addw n x y cin = (x + y + cin.toNat, false) := by
  have law := addw_law n x y cin (by omega) (by omega)
  cases hc : (addw n x y cin).2 with
  | false =>
    rw [hc] at law
    exact Prod.ext (by simpa using law) hc
  | true =>
    rw [hc] at law
    simp only [Bool.toNat_true] at law
    omega

/-- The n-word difference is an n-word number. -/
theorem subw_lt (n x y : Nat) (bin : Bool) : (subw n x y bin).1 < 2 ^ (32 * n) := by
  induction n with
  | zero => simp [subw]
  | succ k ih =>
    have hw := (sbb32 (wordAt x k) (wordAt y k) (subw k x y bin).2).1.isLt
    simp only [subw]
    calc _ < 2 ^ (32 * k) + (sbb32 (wordAt x k) (wordAt y k) (subw k x y bin).2).1.toNat * 2 ^ (32 * k) := by
          omega
      _ = ((sbb32 (wordAt x k) (wordAt y k) (subw k x y bin).2).1.toNat + 1) * 2 ^ (32 * k) := by ring
      _ ≤ 2 ^ 32 * 2 ^ (32 * k) := Nat.mul_le_mul_right _ hw
      _ = 2 ^ (32 * (k + 1)) := by rw [← pow_add]; congr 1; ring

theorem subw_law_mod (n x y : Nat) (bin : Bool) :
    (subw n x y bin).1 + y % 2 ^ (32 * n) + bin.toNat =
      x % 2 ^ (32 * n) + 2 ^ (32 * n) * (subw n x y bin).2.toNat := by
  induction n with
  | zero => simp [subw, Nat.mod_one]
  | succ k ih =>
    have hw := sbb32_law (wordAt x k) (wordAt y k) (subw k x y bin).2
    simp only [subw]
    rw [mod_succ_word x, mod_succ_word y, show 32 * (k + 1) = 32 * k + 32 by ring, pow_add]
    generalize sbb32 (wordAt x k) (wordAt y k) (subw k x y bin).2 = top at hw ⊢
    generalize 2 ^ (32 * k) = m at ih ⊢
    have key : m * (top.1.toNat + (wordAt y k).toNat + (subw k x y bin).2.toNat) =
        m * ((wordAt x k).toNat + 2 ^ 32 * top.2.toNat) := by rw [hw]
    linarith [key, ih, Nat.mul_comm m top.1.toNat, Nat.mul_comm m (wordAt y k).toNat,
      Nat.mul_comm m (wordAt x k).toNat, Nat.mul_add m (top.1.toNat + (wordAt y k).toNat) (subw k x y bin).2.toNat,
      Nat.mul_add m top.1.toNat (wordAt y k).toNat, Nat.mul_add m (wordAt x k).toNat (2 ^ 32 * top.2.toNat),
      Nat.mul_assoc m (2 ^ 32) top.2.toNat]

/-- T − 2^(32n) · bout = X − Y − bin (40_word_arith.md R78). -/
theorem subw_law (n x y : Nat) (bin : Bool) (hx : x < 2 ^ (32 * n)) (hy : y < 2 ^ (32 * n)) :
    (subw n x y bin).1 + y + bin.toNat = x + 2 ^ (32 * n) * (subw n x y bin).2.toNat := by
  have h := subw_law_mod n x y bin
  rwa [Nat.mod_eq_of_lt hx, Nat.mod_eq_of_lt hy] at h

/-- With no borrow in, bout = 1 exactly when X < Y, and then T = X − Y + 2^(32n) (40_word_arith.md
R78). -/
theorem subw_eq (n x y : Nat) (hx : x < 2 ^ (32 * n)) (hy : y < 2 ^ (32 * n)) :
    subw n x y false = if x < y then (x + 2 ^ (32 * n) - y, true) else (x - y, false) := by
  have law := subw_law n x y false hx hy
  have lt := subw_lt n x y false
  split <;> rename_i h <;> cases hb : (subw n x y false).2 <;> rw [hb] at law <;>
    simp only [Bool.toNat_true, Bool.toNat_false] at law <;>
    first
      | exact absurd law (by omega)
      | exact Prod.ext (by show _ = _; omega) hb

/-- mulmod answers the canonical residue (40_word_arith.md R80). -/
theorem mulmod_eq (x y m : Nat) (h : m ≠ 0) : mulmod x y m = x * y % m := by
  simp [mulmod, h]

theorem mulmod_lt (x y m : Nat) (h : m < 2 ^ 256) : mulmod x y m < 2 ^ 256 := by
  unfold mulmod
  split
  · exact (Config.mulmodByZero x y).isLt
  · exact lt_trans (Nat.mod_lt _ (by omega)) h

/-- A number of n bytes. -/
theorem ofBytes_lt (f : Nat → Byte) (n : Nat) : ofBytes f n < 2 ^ (8 * n) := by
  induction n with
  | zero => simp [ofBytes]
  | succ k ih =>
    have hb := (f k).isLt
    simp only [ofBytes]
    calc _ < 2 ^ (8 * k) + (f k).toNat * 2 ^ (8 * k) := by omega
      _ = ((f k).toNat + 1) * 2 ^ (8 * k) := by ring
      _ ≤ 2 ^ 8 * 2 ^ (8 * k) := Nat.mul_le_mul_right _ hb
      _ = 2 ^ (8 * (k + 1)) := by rw [← pow_add]; congr 1; ring

/-- A number of n narrow words. -/
theorem ofWords_lt (f : Nat → Word) (n : Nat) : ofWords f n < 2 ^ (32 * n) := by
  induction n with
  | zero => simp [ofWords]
  | succ k ih =>
    have hb := (f k).isLt
    simp only [ofWords]
    calc _ < 2 ^ (32 * k) + (f k).toNat * 2 ^ (32 * k) := by omega
      _ = ((f k).toNat + 1) * 2 ^ (32 * k) := by ring
      _ ≤ 2 ^ 32 * 2 ^ (32 * k) := Nat.mul_le_mul_right _ hb
      _ = 2 ^ (32 * (k + 1)) := by rw [← pow_add]; congr 1; ring

theorem ofBytes_congr {f g : Nat → Byte} {n : Nat} (h : ∀ k < n, f k = g k) :
    ofBytes f n = ofBytes g n := by
  induction n with
  | zero => rfl
  | succ k ih => rw [ofBytes, ofBytes, ih fun j hj => h j (by omega), h k (by omega)]

end Sys2Proof.Machine
end

