-- ==== Sys2Proof/Laws/State.lean ====
section
/-!
SUPPORT. One lemma per field per update of the state, true by rfl, so that no later proof unfolds a
record update.
-/

namespace Sys2Proof.Machine

/-! ## Accepting a command word (30_encoding.md R72) -/

@[simp] theorem State.accept_runstate (s : State) (cmd : Word) :
    (s.accept cmd).runstate = s.runstate := rfl
@[simp] theorem State.accept_busy (s : State) (cmd : Word) :
    (s.accept cmd).busy = true := rfl
@[simp] theorem State.accept_pc (s : State) (cmd : Word) :
    (s.accept cmd).pc = s.pc := rfl
@[simp] theorem State.accept_err (s : State) (cmd : Word) :
    (s.accept cmd).err = s.err := rfl
@[simp] theorem State.accept_errinfo (s : State) (cmd : Word) :
    (s.accept cmd).errinfo = s.errinfo := rfl
@[simp] theorem State.accept_epc (s : State) (cmd : Word) :
    (s.accept cmd).epc = s.epc := rfl
@[simp] theorem State.accept_ecmd (s : State) (cmd : Word) :
    (s.accept cmd).ecmd = s.ecmd := rfl
@[simp] theorem State.accept_cf (s : State) (cmd : Word) :
    (s.accept cmd).cf = s.cf := rfl
@[simp] theorem State.accept_ovr (s : State) (cmd : Word) :
    (s.accept cmd).ovr = s.ovr := rfl
@[simp] theorem State.accept_berr (s : State) (cmd : Word) :
    (s.accept cmd).berr = s.berr := rfl
@[simp] theorem State.accept_zv (s : State) (cmd : Word) :
    (s.accept cmd).zv = s.zv := rfl
@[simp] theorem State.accept_plv (s : State) (cmd : Word) :
    (s.accept cmd).plv = s.plv := rfl
@[simp] theorem State.accept_ckst (s : State) (cmd : Word) :
    (s.accept cmd).ckst = s.ckst := rfl
@[simp] theorem State.accept_chkok (s : State) (cmd : Word) :
    (s.accept cmd).chkok = s.chkok := rfl
@[simp] theorem State.accept_canv (s : State) (cmd : Word) :
    (s.accept cmd).canv = s.canv := rfl
@[simp] theorem State.accept_dv (s : State) (cmd : Word) :
    (s.accept cmd).dv = s.dv := rfl
@[simp] theorem State.accept_rv (s : State) (cmd : Word) :
    (s.accept cmd).rv = s.rv := rfl
@[simp] theorem State.accept_wlen (s : State) (cmd : Word) :
    (s.accept cmd).wlen = s.wlen := rfl
@[simp] theorem State.accept_zin (s : State) (cmd : Word) :
    (s.accept cmd).zin = s.zin := rfl
@[simp] theorem State.accept_z (s : State) (cmd : Word) :
    (s.accept cmd).z = s.z := rfl
@[simp] theorem State.accept_pl (s : State) (cmd : Word) :
    (s.accept cmd).pl = s.pl := rfl
@[simp] theorem State.accept_ck (s : State) (cmd : Word) :
    (s.accept cmd).ck = s.ck := rfl
@[simp] theorem State.accept_can (s : State) (cmd : Word) :
    (s.accept cmd).can = s.can := rfl
@[simp] theorem State.accept_d (s : State) (cmd : Word) :
    (s.accept cmd).d = s.d := rfl
@[simp] theorem State.accept_r (s : State) (cmd : Word) :
    (s.accept cmd).r = s.r := rfl
@[simp] theorem State.accept_carry (s : State) (cmd : Word) :
    (s.accept cmd).carry = s.carry := rfl
@[simp] theorem State.accept_wmem (s : State) (cmd : Word) :
    (s.accept cmd).wmem = s.wmem := rfl
@[simp] theorem State.accept_crom (s : State) (cmd : Word) :
    (s.accept cmd).crom = s.crom := rfl
@[simp] theorem State.accept_cmd (s : State) (cmd : Word) :
    (s.accept cmd).cmd = cmd := rfl
@[simp] theorem State.accept_ovrBefore (s : State) (cmd : Word) :
    (s.accept cmd).ovrBefore = s.ovr := rfl
@[simp] theorem State.accept_berrBefore (s : State) (cmd : Word) :
    (s.accept cmd).berrBefore = s.berr := rfl
@[simp] theorem State.accept_raced (s : State) (cmd : Word) :
    (s.accept cmd).raced = [] := rfl
@[simp] theorem State.accept_port (s : State) (cmd : Word) :
    (s.accept cmd).port = s.port := rfl
@[simp] theorem State.accept_rdata (s : State) (cmd : Word) :
    (s.accept cmd).rdata = s.rdata := rfl
@[simp] theorem State.accept_resets (s : State) (cmd : Word) :
    (s.accept cmd).resets = s.resets := rfl
@[simp] theorem State.accept_draws (s : State) (cmd : Word) :
    (s.accept cmd).draws = s.draws := rfl

/-! ## Taking a fault (60_exceptions.md R116) -/

@[simp] theorem State.raise_runstate (s : State) (cause : Cause) (info cmd : Word) :
    (s.raise cause info cmd).runstate = .reject := rfl
@[simp] theorem State.raise_busy (s : State) (cause : Cause) (info cmd : Word) :
    (s.raise cause info cmd).busy = false := rfl
@[simp] theorem State.raise_pc (s : State) (cause : Cause) (info cmd : Word) :
    (s.raise cause info cmd).pc = s.pc := rfl
@[simp] theorem State.raise_err (s : State) (cause : Cause) (info cmd : Word) :
    (s.raise cause info cmd).err = cause.code := rfl
@[simp] theorem State.raise_errinfo (s : State) (cause : Cause) (info cmd : Word) :
    (s.raise cause info cmd).errinfo = info := rfl
@[simp] theorem State.raise_epc (s : State) (cause : Cause) (info cmd : Word) :
    (s.raise cause info cmd).epc = s.pc := rfl
@[simp] theorem State.raise_ecmd (s : State) (cause : Cause) (info cmd : Word) :
    (s.raise cause info cmd).ecmd = cmd := rfl
@[simp] theorem State.raise_cf (s : State) (cause : Cause) (info cmd : Word) :
    (s.raise cause info cmd).cf = s.cf := rfl
@[simp] theorem State.raise_ovr (s : State) (cause : Cause) (info cmd : Word) :
    (s.raise cause info cmd).ovr = s.ovr := rfl
@[simp] theorem State.raise_berr (s : State) (cause : Cause) (info cmd : Word) :
    (s.raise cause info cmd).berr = s.berr := rfl
@[simp] theorem State.raise_zv (s : State) (cause : Cause) (info cmd : Word) :
    (s.raise cause info cmd).zv = s.zv := rfl
@[simp] theorem State.raise_plv (s : State) (cause : Cause) (info cmd : Word) :
    (s.raise cause info cmd).plv = s.plv := rfl
@[simp] theorem State.raise_ckst (s : State) (cause : Cause) (info cmd : Word) :
    (s.raise cause info cmd).ckst = s.ckst := rfl
@[simp] theorem State.raise_chkok (s : State) (cause : Cause) (info cmd : Word) :
    (s.raise cause info cmd).chkok = s.chkok := rfl
@[simp] theorem State.raise_canv (s : State) (cause : Cause) (info cmd : Word) :
    (s.raise cause info cmd).canv = s.canv := rfl
@[simp] theorem State.raise_dv (s : State) (cause : Cause) (info cmd : Word) :
    (s.raise cause info cmd).dv = s.dv := rfl
@[simp] theorem State.raise_rv (s : State) (cause : Cause) (info cmd : Word) :
    (s.raise cause info cmd).rv = s.rv := rfl
@[simp] theorem State.raise_wlen (s : State) (cause : Cause) (info cmd : Word) :
    (s.raise cause info cmd).wlen = s.wlen := rfl
@[simp] theorem State.raise_zin (s : State) (cause : Cause) (info cmd : Word) :
    (s.raise cause info cmd).zin = s.zin := rfl
@[simp] theorem State.raise_z (s : State) (cause : Cause) (info cmd : Word) :
    (s.raise cause info cmd).z = s.z := rfl
@[simp] theorem State.raise_pl (s : State) (cause : Cause) (info cmd : Word) :
    (s.raise cause info cmd).pl = s.pl := rfl
@[simp] theorem State.raise_ck (s : State) (cause : Cause) (info cmd : Word) :
    (s.raise cause info cmd).ck = s.ck := rfl
@[simp] theorem State.raise_can (s : State) (cause : Cause) (info cmd : Word) :
    (s.raise cause info cmd).can = s.can := rfl
@[simp] theorem State.raise_d (s : State) (cause : Cause) (info cmd : Word) :
    (s.raise cause info cmd).d = s.d := rfl
@[simp] theorem State.raise_r (s : State) (cause : Cause) (info cmd : Word) :
    (s.raise cause info cmd).r = s.r := rfl
@[simp] theorem State.raise_carry (s : State) (cause : Cause) (info cmd : Word) :
    (s.raise cause info cmd).carry = s.carry := rfl
@[simp] theorem State.raise_wmem (s : State) (cause : Cause) (info cmd : Word) :
    (s.raise cause info cmd).wmem = s.wmem := rfl
@[simp] theorem State.raise_crom (s : State) (cause : Cause) (info cmd : Word) :
    (s.raise cause info cmd).crom = s.crom := rfl
@[simp] theorem State.raise_cmd (s : State) (cause : Cause) (info cmd : Word) :
    (s.raise cause info cmd).cmd = s.cmd := rfl
@[simp] theorem State.raise_ovrBefore (s : State) (cause : Cause) (info cmd : Word) :
    (s.raise cause info cmd).ovrBefore = s.ovrBefore := rfl
@[simp] theorem State.raise_berrBefore (s : State) (cause : Cause) (info cmd : Word) :
    (s.raise cause info cmd).berrBefore = s.berrBefore := rfl
@[simp] theorem State.raise_raced (s : State) (cause : Cause) (info cmd : Word) :
    (s.raise cause info cmd).raced = [] := rfl
@[simp] theorem State.raise_port (s : State) (cause : Cause) (info cmd : Word) :
    (s.raise cause info cmd).port = s.port := rfl
@[simp] theorem State.raise_rdata (s : State) (cause : Cause) (info cmd : Word) :
    (s.raise cause info cmd).rdata = s.rdata := rfl
@[simp] theorem State.raise_resets (s : State) (cause : Cause) (info cmd : Word) :
    (s.raise cause info cmd).resets = s.resets := rfl
@[simp] theorem State.raise_draws (s : State) (cause : Cause) (info cmd : Word) :
    (s.raise cause info cmd).draws = s.draws := rfl

/-! ## Completing a command (30_encoding.md R72) -/

@[simp] theorem State.complete_runstate (s : State) :
    (s.complete).runstate = s.runstate := rfl
@[simp] theorem State.complete_busy (s : State) :
    (s.complete).busy = false := rfl
@[simp] theorem State.complete_pc (s : State) :
    (s.complete).pc = s.pc + 1 := rfl
@[simp] theorem State.complete_err (s : State) :
    (s.complete).err = s.err := rfl
@[simp] theorem State.complete_errinfo (s : State) :
    (s.complete).errinfo = s.errinfo := rfl
@[simp] theorem State.complete_epc (s : State) :
    (s.complete).epc = s.epc := rfl
@[simp] theorem State.complete_ecmd (s : State) :
    (s.complete).ecmd = s.ecmd := rfl
@[simp] theorem State.complete_cf (s : State) :
    (s.complete).cf = s.cf := rfl
@[simp] theorem State.complete_ovr (s : State) :
    (s.complete).ovr = s.ovr := rfl
@[simp] theorem State.complete_berr (s : State) :
    (s.complete).berr = s.berr := rfl
@[simp] theorem State.complete_zv (s : State) :
    (s.complete).zv = s.zv := rfl
@[simp] theorem State.complete_plv (s : State) :
    (s.complete).plv = s.plv := rfl
@[simp] theorem State.complete_ckst (s : State) :
    (s.complete).ckst = s.ckst := rfl
@[simp] theorem State.complete_chkok (s : State) :
    (s.complete).chkok = s.chkok := rfl
@[simp] theorem State.complete_canv (s : State) :
    (s.complete).canv = s.canv := rfl
@[simp] theorem State.complete_dv (s : State) :
    (s.complete).dv = s.dv := rfl
@[simp] theorem State.complete_rv (s : State) :
    (s.complete).rv = s.rv := rfl
@[simp] theorem State.complete_wlen (s : State) :
    (s.complete).wlen = s.wlen := rfl
@[simp] theorem State.complete_zin (s : State) :
    (s.complete).zin = s.zin := rfl
@[simp] theorem State.complete_z (s : State) :
    (s.complete).z = s.z := rfl
@[simp] theorem State.complete_pl (s : State) :
    (s.complete).pl = s.pl := rfl
@[simp] theorem State.complete_ck (s : State) :
    (s.complete).ck = s.ck := rfl
@[simp] theorem State.complete_can (s : State) :
    (s.complete).can = s.can := rfl
@[simp] theorem State.complete_d (s : State) :
    (s.complete).d = s.d := rfl
@[simp] theorem State.complete_r (s : State) :
    (s.complete).r = s.r := rfl
@[simp] theorem State.complete_carry (s : State) :
    (s.complete).carry = s.carry := rfl
@[simp] theorem State.complete_wmem (s : State) :
    (s.complete).wmem = s.wmem := rfl
@[simp] theorem State.complete_crom (s : State) :
    (s.complete).crom = s.crom := rfl
@[simp] theorem State.complete_cmd (s : State) :
    (s.complete).cmd = s.cmd := rfl
@[simp] theorem State.complete_ovrBefore (s : State) :
    (s.complete).ovrBefore = s.ovrBefore := rfl
@[simp] theorem State.complete_berrBefore (s : State) :
    (s.complete).berrBefore = s.berrBefore := rfl
@[simp] theorem State.complete_raced (s : State) :
    (s.complete).raced = [] := rfl
@[simp] theorem State.complete_port (s : State) :
    (s.complete).port = s.port := rfl
@[simp] theorem State.complete_rdata (s : State) :
    (s.complete).rdata = s.rdata := rfl
@[simp] theorem State.complete_resets (s : State) :
    (s.complete).resets = s.resets := rfl
@[simp] theorem State.complete_draws (s : State) :
    (s.complete).draws = s.draws := rfl

/-! ## Ignoring a word (30_encoding.md R72) -/

@[simp] theorem State.ignoreWord_runstate (s : State) :
    (s.ignoreWord).runstate = s.runstate := rfl
@[simp] theorem State.ignoreWord_busy (s : State) :
    (s.ignoreWord).busy = false := rfl
@[simp] theorem State.ignoreWord_pc (s : State) :
    (s.ignoreWord).pc = s.pc := rfl
@[simp] theorem State.ignoreWord_err (s : State) :
    (s.ignoreWord).err = s.err := rfl
@[simp] theorem State.ignoreWord_errinfo (s : State) :
    (s.ignoreWord).errinfo = s.errinfo := rfl
@[simp] theorem State.ignoreWord_epc (s : State) :
    (s.ignoreWord).epc = s.epc := rfl
@[simp] theorem State.ignoreWord_ecmd (s : State) :
    (s.ignoreWord).ecmd = s.ecmd := rfl
@[simp] theorem State.ignoreWord_cf (s : State) :
    (s.ignoreWord).cf = s.cf := rfl
@[simp] theorem State.ignoreWord_ovr (s : State) :
    (s.ignoreWord).ovr = s.ovr := rfl
@[simp] theorem State.ignoreWord_berr (s : State) :
    (s.ignoreWord).berr = s.berr := rfl
@[simp] theorem State.ignoreWord_zv (s : State) :
    (s.ignoreWord).zv = s.zv := rfl
@[simp] theorem State.ignoreWord_plv (s : State) :
    (s.ignoreWord).plv = s.plv := rfl
@[simp] theorem State.ignoreWord_ckst (s : State) :
    (s.ignoreWord).ckst = s.ckst := rfl
@[simp] theorem State.ignoreWord_chkok (s : State) :
    (s.ignoreWord).chkok = s.chkok := rfl
@[simp] theorem State.ignoreWord_canv (s : State) :
    (s.ignoreWord).canv = s.canv := rfl
@[simp] theorem State.ignoreWord_dv (s : State) :
    (s.ignoreWord).dv = s.dv := rfl
@[simp] theorem State.ignoreWord_rv (s : State) :
    (s.ignoreWord).rv = s.rv := rfl
@[simp] theorem State.ignoreWord_wlen (s : State) :
    (s.ignoreWord).wlen = s.wlen := rfl
@[simp] theorem State.ignoreWord_zin (s : State) :
    (s.ignoreWord).zin = s.zin := rfl
@[simp] theorem State.ignoreWord_z (s : State) :
    (s.ignoreWord).z = s.z := rfl
@[simp] theorem State.ignoreWord_pl (s : State) :
    (s.ignoreWord).pl = s.pl := rfl
@[simp] theorem State.ignoreWord_ck (s : State) :
    (s.ignoreWord).ck = s.ck := rfl
@[simp] theorem State.ignoreWord_can (s : State) :
    (s.ignoreWord).can = s.can := rfl
@[simp] theorem State.ignoreWord_d (s : State) :
    (s.ignoreWord).d = s.d := rfl
@[simp] theorem State.ignoreWord_r (s : State) :
    (s.ignoreWord).r = s.r := rfl
@[simp] theorem State.ignoreWord_carry (s : State) :
    (s.ignoreWord).carry = s.carry := rfl
@[simp] theorem State.ignoreWord_wmem (s : State) :
    (s.ignoreWord).wmem = s.wmem := rfl
@[simp] theorem State.ignoreWord_crom (s : State) :
    (s.ignoreWord).crom = s.crom := rfl
@[simp] theorem State.ignoreWord_cmd (s : State) :
    (s.ignoreWord).cmd = s.cmd := rfl
@[simp] theorem State.ignoreWord_ovrBefore (s : State) :
    (s.ignoreWord).ovrBefore = s.ovrBefore := rfl
@[simp] theorem State.ignoreWord_berrBefore (s : State) :
    (s.ignoreWord).berrBefore = s.berrBefore := rfl
@[simp] theorem State.ignoreWord_raced (s : State) :
    (s.ignoreWord).raced = [] := rfl
@[simp] theorem State.ignoreWord_port (s : State) :
    (s.ignoreWord).port = s.port := rfl
@[simp] theorem State.ignoreWord_rdata (s : State) :
    (s.ignoreWord).rdata = s.rdata := rfl
@[simp] theorem State.ignoreWord_resets (s : State) :
    (s.ignoreWord).resets = s.resets := rfl
@[simp] theorem State.ignoreWord_draws (s : State) :
    (s.ignoreWord).draws = s.draws := rfl

/-! ## Writing CK[s] and CKST[s] (42_checksum.md R90, R92) -/

@[simp] theorem State.putChecksum_runstate (s : State) (src : Source) (v : Nat) (stage : ChecksumState) :
    (s.putChecksum src v stage).runstate = s.runstate := rfl
@[simp] theorem State.putChecksum_busy (s : State) (src : Source) (v : Nat) (stage : ChecksumState) :
    (s.putChecksum src v stage).busy = s.busy := rfl
@[simp] theorem State.putChecksum_pc (s : State) (src : Source) (v : Nat) (stage : ChecksumState) :
    (s.putChecksum src v stage).pc = s.pc := rfl
@[simp] theorem State.putChecksum_err (s : State) (src : Source) (v : Nat) (stage : ChecksumState) :
    (s.putChecksum src v stage).err = s.err := rfl
@[simp] theorem State.putChecksum_errinfo (s : State) (src : Source) (v : Nat) (stage : ChecksumState) :
    (s.putChecksum src v stage).errinfo = s.errinfo := rfl
@[simp] theorem State.putChecksum_epc (s : State) (src : Source) (v : Nat) (stage : ChecksumState) :
    (s.putChecksum src v stage).epc = s.epc := rfl
@[simp] theorem State.putChecksum_ecmd (s : State) (src : Source) (v : Nat) (stage : ChecksumState) :
    (s.putChecksum src v stage).ecmd = s.ecmd := rfl
@[simp] theorem State.putChecksum_cf (s : State) (src : Source) (v : Nat) (stage : ChecksumState) :
    (s.putChecksum src v stage).cf = s.cf := rfl
@[simp] theorem State.putChecksum_ovr (s : State) (src : Source) (v : Nat) (stage : ChecksumState) :
    (s.putChecksum src v stage).ovr = s.ovr := rfl
@[simp] theorem State.putChecksum_berr (s : State) (src : Source) (v : Nat) (stage : ChecksumState) :
    (s.putChecksum src v stage).berr = s.berr := rfl
@[simp] theorem State.putChecksum_zv (s : State) (src : Source) (v : Nat) (stage : ChecksumState) :
    (s.putChecksum src v stage).zv = s.zv := rfl
@[simp] theorem State.putChecksum_plv (s : State) (src : Source) (v : Nat) (stage : ChecksumState) :
    (s.putChecksum src v stage).plv = s.plv := rfl
@[simp] theorem State.putChecksum_ckst (s : State) (src : Source) (v : Nat) (stage : ChecksumState) :
    (s.putChecksum src v stage).ckst = s.ckst.set src.index stage := rfl
@[simp] theorem State.putChecksum_chkok (s : State) (src : Source) (v : Nat) (stage : ChecksumState) :
    (s.putChecksum src v stage).chkok = s.chkok := rfl
@[simp] theorem State.putChecksum_canv (s : State) (src : Source) (v : Nat) (stage : ChecksumState) :
    (s.putChecksum src v stage).canv = s.canv := rfl
@[simp] theorem State.putChecksum_dv (s : State) (src : Source) (v : Nat) (stage : ChecksumState) :
    (s.putChecksum src v stage).dv = s.dv := rfl
@[simp] theorem State.putChecksum_rv (s : State) (src : Source) (v : Nat) (stage : ChecksumState) :
    (s.putChecksum src v stage).rv = s.rv := rfl
@[simp] theorem State.putChecksum_wlen (s : State) (src : Source) (v : Nat) (stage : ChecksumState) :
    (s.putChecksum src v stage).wlen = s.wlen := rfl
@[simp] theorem State.putChecksum_zin (s : State) (src : Source) (v : Nat) (stage : ChecksumState) :
    (s.putChecksum src v stage).zin = s.zin := rfl
@[simp] theorem State.putChecksum_z (s : State) (src : Source) (v : Nat) (stage : ChecksumState) :
    (s.putChecksum src v stage).z = s.z := rfl
@[simp] theorem State.putChecksum_pl (s : State) (src : Source) (v : Nat) (stage : ChecksumState) :
    (s.putChecksum src v stage).pl = s.pl := rfl
@[simp] theorem State.putChecksum_ck (s : State) (src : Source) (v : Nat) (stage : ChecksumState) :
    (s.putChecksum src v stage).ck = s.ck.set src.index (some (BitVec.ofNat 288 v)) := rfl
@[simp] theorem State.putChecksum_can (s : State) (src : Source) (v : Nat) (stage : ChecksumState) :
    (s.putChecksum src v stage).can = s.can := rfl
@[simp] theorem State.putChecksum_d (s : State) (src : Source) (v : Nat) (stage : ChecksumState) :
    (s.putChecksum src v stage).d = s.d := rfl
@[simp] theorem State.putChecksum_r (s : State) (src : Source) (v : Nat) (stage : ChecksumState) :
    (s.putChecksum src v stage).r = s.r := rfl
@[simp] theorem State.putChecksum_carry (s : State) (src : Source) (v : Nat) (stage : ChecksumState) :
    (s.putChecksum src v stage).carry = s.carry := rfl
@[simp] theorem State.putChecksum_wmem (s : State) (src : Source) (v : Nat) (stage : ChecksumState) :
    (s.putChecksum src v stage).wmem = s.wmem := rfl
@[simp] theorem State.putChecksum_crom (s : State) (src : Source) (v : Nat) (stage : ChecksumState) :
    (s.putChecksum src v stage).crom = s.crom := rfl
@[simp] theorem State.putChecksum_cmd (s : State) (src : Source) (v : Nat) (stage : ChecksumState) :
    (s.putChecksum src v stage).cmd = s.cmd := rfl
@[simp] theorem State.putChecksum_ovrBefore (s : State) (src : Source) (v : Nat) (stage : ChecksumState) :
    (s.putChecksum src v stage).ovrBefore = s.ovrBefore := rfl
@[simp] theorem State.putChecksum_berrBefore (s : State) (src : Source) (v : Nat) (stage : ChecksumState) :
    (s.putChecksum src v stage).berrBefore = s.berrBefore := rfl
@[simp] theorem State.putChecksum_raced (s : State) (src : Source) (v : Nat) (stage : ChecksumState) :
    (s.putChecksum src v stage).raced = s.raced := rfl
@[simp] theorem State.putChecksum_port (s : State) (src : Source) (v : Nat) (stage : ChecksumState) :
    (s.putChecksum src v stage).port = s.port := rfl
@[simp] theorem State.putChecksum_rdata (s : State) (src : Source) (v : Nat) (stage : ChecksumState) :
    (s.putChecksum src v stage).rdata = s.rdata := rfl
@[simp] theorem State.putChecksum_resets (s : State) (src : Source) (v : Nat) (stage : ChecksumState) :
    (s.putChecksum src v stage).resets = s.resets := rfl
@[simp] theorem State.putChecksum_draws (s : State) (src : Source) (v : Nat) (stage : ChecksumState) :
    (s.putChecksum src v stage).draws = s.draws := rfl

/-! ## CLR (45_control.md R110) -/

@[simp] theorem State.clear_runstate (s : State) :
    (s.clear).runstate = .idle := rfl
@[simp] theorem State.clear_busy (s : State) :
    (s.clear).busy = false := rfl
@[simp] theorem State.clear_pc (s : State) :
    (s.clear).pc = 0 := rfl
@[simp] theorem State.clear_err (s : State) :
    (s.clear).err = 0 := rfl
@[simp] theorem State.clear_errinfo (s : State) :
    (s.clear).errinfo = 0 := rfl
@[simp] theorem State.clear_epc (s : State) :
    (s.clear).epc = 0 := rfl
@[simp] theorem State.clear_ecmd (s : State) :
    (s.clear).ecmd = 0 := rfl
@[simp] theorem State.clear_cf (s : State) :
    (s.clear).cf = false := rfl
@[simp] theorem State.clear_ovr (s : State) :
    (s.clear).ovr = false := rfl
@[simp] theorem State.clear_berr (s : State) :
    (s.clear).berr = false := rfl
@[simp] theorem State.clear_zv (s : State) :
    (s.clear).zv = false := rfl
@[simp] theorem State.clear_plv (s : State) :
    (s.clear).plv = false := rfl
@[simp] theorem State.clear_ckst (s : State) :
    (s.clear).ckst = Vector.replicate 6 .empty := rfl
@[simp] theorem State.clear_chkok (s : State) :
    (s.clear).chkok = Vector.replicate 2 false := rfl
@[simp] theorem State.clear_canv (s : State) :
    (s.clear).canv = Vector.replicate 2 false := rfl
@[simp] theorem State.clear_dv (s : State) :
    (s.clear).dv = false := rfl
@[simp] theorem State.clear_rv (s : State) :
    (s.clear).rv = false := rfl
@[simp] theorem State.clear_wlen (s : State) :
    (s.clear).wlen = Vector.replicate 5 0 := rfl
@[simp] theorem State.clear_zin (s : State) :
    (s.clear).zin = Vector.replicate 8 0 := rfl
@[simp] theorem State.clear_z (s : State) :
    (s.clear).z = none := rfl
@[simp] theorem State.clear_pl (s : State) :
    (s.clear).pl = none := rfl
@[simp] theorem State.clear_ck (s : State) :
    (s.clear).ck = Vector.replicate 6 none := rfl
@[simp] theorem State.clear_can (s : State) :
    (s.clear).can = Vector.replicate 2 none := rfl
@[simp] theorem State.clear_d (s : State) :
    (s.clear).d = none := rfl
@[simp] theorem State.clear_r (s : State) :
    (s.clear).r = none := rfl
@[simp] theorem State.clear_carry (s : State) :
    (s.clear).carry = none := rfl
@[simp] theorem State.clear_wmem (s : State) :
    (s.clear).wmem = s.wmem := rfl
@[simp] theorem State.clear_crom (s : State) :
    (s.clear).crom = s.crom := rfl
@[simp] theorem State.clear_cmd (s : State) :
    (s.clear).cmd = 0 := rfl
@[simp] theorem State.clear_ovrBefore (s : State) :
    (s.clear).ovrBefore = false := rfl
@[simp] theorem State.clear_berrBefore (s : State) :
    (s.clear).berrBefore = false := rfl
@[simp] theorem State.clear_raced (s : State) :
    (s.clear).raced = [] := rfl
@[simp] theorem State.clear_port (s : State) :
    (s.clear).port = s.port := rfl
@[simp] theorem State.clear_rdata (s : State) :
    (s.clear).rdata = s.rdata := rfl
@[simp] theorem State.clear_resets (s : State) :
    (s.clear).resets = s.resets := rfl
@[simp] theorem State.clear_draws (s : State) :
    (s.clear).draws = s.draws := rfl

/-! ## The platform reset (70_reset_and_hazards.md R129) -/

@[simp] theorem State.platformReset_runstate (s : State) :
    (s.platformReset).runstate = .idle := rfl
@[simp] theorem State.platformReset_busy (s : State) :
    (s.platformReset).busy = false := rfl
@[simp] theorem State.platformReset_pc (s : State) :
    (s.platformReset).pc = 0 := rfl
@[simp] theorem State.platformReset_err (s : State) :
    (s.platformReset).err = 0 := rfl
@[simp] theorem State.platformReset_errinfo (s : State) :
    (s.platformReset).errinfo = 0 := rfl
@[simp] theorem State.platformReset_epc (s : State) :
    (s.platformReset).epc = 0 := rfl
@[simp] theorem State.platformReset_ecmd (s : State) :
    (s.platformReset).ecmd = 0 := rfl
@[simp] theorem State.platformReset_cf (s : State) :
    (s.platformReset).cf = false := rfl
@[simp] theorem State.platformReset_ovr (s : State) :
    (s.platformReset).ovr = false := rfl
@[simp] theorem State.platformReset_berr (s : State) :
    (s.platformReset).berr = false := rfl
@[simp] theorem State.platformReset_zv (s : State) :
    (s.platformReset).zv = false := rfl
@[simp] theorem State.platformReset_plv (s : State) :
    (s.platformReset).plv = false := rfl
@[simp] theorem State.platformReset_ckst (s : State) :
    (s.platformReset).ckst = Vector.replicate 6 .empty := rfl
@[simp] theorem State.platformReset_chkok (s : State) :
    (s.platformReset).chkok = Vector.replicate 2 false := rfl
@[simp] theorem State.platformReset_canv (s : State) :
    (s.platformReset).canv = Vector.replicate 2 false := rfl
@[simp] theorem State.platformReset_dv (s : State) :
    (s.platformReset).dv = false := rfl
@[simp] theorem State.platformReset_rv (s : State) :
    (s.platformReset).rv = false := rfl
@[simp] theorem State.platformReset_wlen (s : State) :
    (s.platformReset).wlen = Vector.replicate 5 0 := rfl
@[simp] theorem State.platformReset_zin (s : State) :
    (s.platformReset).zin = Vector.replicate 8 0 := rfl
@[simp] theorem State.platformReset_z (s : State) :
    (s.platformReset).z = none := rfl
@[simp] theorem State.platformReset_pl (s : State) :
    (s.platformReset).pl = none := rfl
@[simp] theorem State.platformReset_ck (s : State) :
    (s.platformReset).ck = Vector.replicate 6 none := rfl
@[simp] theorem State.platformReset_can (s : State) :
    (s.platformReset).can = Vector.replicate 2 none := rfl
@[simp] theorem State.platformReset_d (s : State) :
    (s.platformReset).d = none := rfl
@[simp] theorem State.platformReset_r (s : State) :
    (s.platformReset).r = none := rfl
@[simp] theorem State.platformReset_carry (s : State) :
    (s.platformReset).carry = none := rfl
@[simp] theorem State.platformReset_wmem (s : State) :
    (s.platformReset).wmem = [] := rfl
@[simp] theorem State.platformReset_crom (s : State) :
    (s.platformReset).crom = s.crom := rfl
@[simp] theorem State.platformReset_cmd (s : State) :
    (s.platformReset).cmd = 0 := rfl
@[simp] theorem State.platformReset_ovrBefore (s : State) :
    (s.platformReset).ovrBefore = false := rfl
@[simp] theorem State.platformReset_berrBefore (s : State) :
    (s.platformReset).berrBefore = false := rfl
@[simp] theorem State.platformReset_raced (s : State) :
    (s.platformReset).raced = [] := rfl
@[simp] theorem State.platformReset_port (s : State) :
    (s.platformReset).port = s.port := rfl
@[simp] theorem State.platformReset_rdata (s : State) :
    (s.platformReset).rdata = s.rdata := rfl
@[simp] theorem State.platformReset_resets (s : State) :
    (s.platformReset).resets = s.resets + 1 := rfl
@[simp] theorem State.platformReset_draws (s : State) :
    (s.platformReset).draws = s.draws := rfl

end Sys2Proof.Machine
end

