-- ==== Sys2Proof/Laws/Memory.lean ====
section
/-!
SUPPORT. WMEM: what a store and a read say of each other, and that every memory operation keeps the
canonical form.
-/

namespace Sys2Proof.Machine

/-- A byte reads back what was stored there, and every other address is left alone. -/
theorem Memory.find_store (m : Memory) (a b : Nat) (v : Byte) :
    Memory.find (Memory.store m a v) b = if a = b then some v else Memory.find m b := by
  induction m with
  | nil => simp [Memory.store, Memory.find]
  | cons cell m ih =>
    obtain ⟨k, w⟩ := cell
    simp only [Memory.store]
    split
    · by_cases hab : a = b <;> simp [Memory.find, hab]
    · split
      · rename_i h1 h2
        subst h2
        by_cases hab : a = b <;> simp [Memory.find, hab]
      · rename_i h1 h2
        simp only [Memory.find, ih]
        by_cases hkb : k = b
        · have : a ≠ b := by omega
          simp [hkb, this]
        · simp [hkb]

/-- After a store of n bytes, byte k of the value is at addr + k and no other address has changed
(00_scope.md R15). -/
theorem Memory.find_storeLE (m : Memory) (addr v n b : Nat) :
    Memory.find (Memory.storeLE m addr v n) b =
      if addr ≤ b ∧ b < addr + n then some (BitVec.ofNat 8 (v / 2 ^ (8 * (b - addr))))
      else Memory.find m b := by
  induction n with
  | zero => simp [Memory.storeLE]
  | succ k ih =>
    rw [Memory.storeLE, Memory.find_store, ih]
    by_cases hb : addr + k = b
    · subst hb
      simp
    · rw [if_neg hb]
      by_cases hin : addr ≤ b ∧ b < addr + k
      · rw [if_pos hin, if_pos ⟨hin.1, by omega⟩]
      · rw [if_neg hin, if_neg (by omega)]

theorem Memory.risingAbove_store (m : Memory) (low a : Nat) (v : Byte) (hlow : low < a)
    (h : Memory.risingAbove low m = true) : Memory.risingAbove low (Memory.store m a v) = true := by
  induction m generalizing low with
  | nil => simpa [Memory.store, Memory.risingAbove] using hlow
  | cons cell m ih =>
    obtain ⟨k, w⟩ := cell
    simp only [Memory.risingAbove, Bool.and_eq_true, decide_eq_true_eq] at h
    simp only [Memory.store]
    split
    · rename_i hak
      simp [Memory.risingAbove, hlow, hak, h.2]
    · split
      · rename_i hak
        subst hak
        simp [Memory.risingAbove, hlow, h.2]
      · simp only [Memory.risingAbove, Bool.and_eq_true, decide_eq_true_eq]
        exact ⟨h.1, ih k (by omega) h.2⟩

theorem Memory.all_store (m : Memory) (a bound : Nat) (v : Byte) (ha : a < bound)
    (h : m.all (fun cell => decide (cell.1 < bound)) = true) :
    (Memory.store m a v).all (fun cell => decide (cell.1 < bound)) = true := by
  induction m with
  | nil => simpa [Memory.store] using ha
  | cons cell m ih =>
    obtain ⟨k, w⟩ := cell
    simp only [List.all_cons, Bool.and_eq_true, decide_eq_true_eq] at h
    simp only [Memory.store]
    split
    · simp only [List.all_cons, Bool.and_eq_true, decide_eq_true_eq]
      exact ⟨ha, h.1, h.2⟩
    · split
      · simp only [List.all_cons, Bool.and_eq_true, decide_eq_true_eq]
        exact ⟨ha, h.2⟩
      · simp only [List.all_cons, Bool.and_eq_true, decide_eq_true_eq]
        exact ⟨h.1, ih h.2⟩

theorem Memory.rising_store (m : Memory) (a : Nat) (v : Byte) (h : Memory.rising m = true) :
    Memory.rising (Memory.store m a v) = true := by
  cases m with
  | nil => rfl
  | cons cell m =>
    obtain ⟨k, w⟩ := cell
    have hk : Memory.risingAbove k m = true := h
    rw [Memory.store]
    by_cases hlt : a < k
    · simp [hlt, Memory.rising, Memory.risingAbove, hk]
    · by_cases heq : a = k
      · subst heq
        simpa [Memory.rising] using hk
      · simpa [hlt, heq, Memory.rising] using Memory.risingAbove_store m k a v (by omega) hk

/-- A store inside WMEM keeps the canonical form. -/
theorem Memory.wf_store (m : Memory) (a : Nat) (v : Byte) (ha : a < 3200)
    (h : Memory.wf m = true) : Memory.wf (Memory.store m a v) = true := by
  simp only [Memory.wf, Bool.and_eq_true] at h ⊢
  exact ⟨Memory.rising_store m a v h.1, Memory.all_store m a 3200 v ha h.2⟩

/-- A store of n bytes inside WMEM keeps the canonical form. -/
theorem Memory.wf_storeLE (m : Memory) (addr v n : Nat) (ha : addr + n ≤ 3200)
    (h : Memory.wf m = true) : Memory.wf (Memory.storeLE m addr v n) = true := by
  induction n with
  | zero => exact h
  | succ k ih => exact Memory.wf_store _ _ _ (by omega) (ih (by omega))

/-- A byte of WMEM depends on WMEM and on the count of resets alone. -/
theorem State.wmemByte_congr {s t : State} (hm : t.wmem = s.wmem) (hr : t.resets = s.resets)
    (a : Nat) : t.wmemByte a = s.wmemByte a := by
  simp [State.wmemByte, hm, hr]

/-- A byte of WMEM after a store of n bytes. -/
theorem State.wmemByte_storeLE (s : State) (addr v n a : Nat) :
    State.wmemByte { s with wmem := Memory.storeLE s.wmem addr v n } a =
      if addr ≤ a ∧ a < addr + n then BitVec.ofNat 8 (v / 2 ^ (8 * (a - addr))) else s.wmemByte a := by
  simp only [State.wmemByte, Memory.find_storeLE]
  split <;> rfl

end Sys2Proof.Machine
end

