-- ==== Sys2Proof/Laws/Ops.lean ====
section
/-!
SUPPORT. What each shared operation can do, said once: the tests before a command's body, the loops of
the commands, the elements, the parts of CROM, the host port. Later proofs cite these and do not unfold
the operation.
-/

namespace Sys2Proof.Machine

/-! ## The tests before a body (30_encoding.md R72, 60_exceptions.md R118) -/

theorem issue_terminal {i : Instr} {s : State} {req : Bool} {body : Result}
    (h : s.runstate.terminal = true) : issue i s req body = .next s.ignoreWord := by
  simp [issue, h]

theorem issue_sequenceError {i : Instr} {s : State} {req : Bool} {body : Result}
    (h : s.runstate.terminal = false) (hr : req = false) :
    issue i s req body = .next (s.raise .sequenceError 0 (encode i)) := by
  simp [issue, h, hr]

theorem issue_runs {i : Instr} {s : State} {req : Bool} {body : Result}
    (h : s.runstate.terminal = false) (hr : req = true) : issue i s req body = body := by
  simp [issue, h, hr]

/-- What a command can answer before and in its body. -/
theorem issue_cases {i : Instr} {s t : State} {req : Bool} {body : Result}
    (h : issue i s req body = .next t) :
    (s.runstate.terminal = true ∧ t = s.ignoreWord) ∨
    (s.runstate.terminal = false ∧ req = false ∧ t = s.raise .sequenceError 0 (encode i)) ∨
    (s.runstate.terminal = false ∧ req = true ∧ body = .next t) := by
  unfold issue at h
  split at h
  · exact .inl ⟨‹_›, by injection h with h; exact h.symm⟩
  · rename_i ht
    split at h
    · exact .inr (.inr ⟨by simpa using ht, ‹_›, h⟩)
    · rename_i hr
      exact .inr (.inl ⟨by simpa using ht, by simpa using hr, by injection h with h; exact h.symm⟩)

theorem active_iff {s : State} : s.active = true ↔ s.runstate = .active := by
  simp [State.active]

theorem terminal_of_active {s : State} (h : s.runstate = .active) :
    s.runstate.terminal = false := by
  simp [h, RunState.terminal]

theorem terminal_of_idle {s : State} (h : s.runstate = .idle) : s.runstate.terminal = false := by
  simp [h, RunState.terminal]

/-- A word that does not decode (30_encoding.md R71). -/
theorem illegalCommand_live {s : State} {w : Word} (h : s.runstate.terminal = false) :
    s.illegalCommand w = s.raise .illegalCommand 0 w := by
  simp [State.illegalCommand, h]

theorem illegalCommand_terminal {s : State} {w : Word} (h : s.runstate.terminal = true) :
    s.illegalCommand w = s.ignoreWord := by
  simp [State.illegalCommand, h]

/-! ## Registers kept by selector (00_scope.md R19) -/

/-- A register kept by source reads back what was put there, and the others are left alone. -/
theorem Source.getElem_set {α : Type} (v : Vector α 6) (src other : Source) (x : α) :
    (v.set src.index x)[other.index] = if src = other then x else v[other.index] := by
  cases src <;> cases other <;> simp [Source.index]

/-- A register kept by product reads back what was put there, and the other is left alone. -/
theorem Product.getElem_set {α : Type} (v : Vector α 2) (p other : Product) (x : α) :
    (v.set p.index x)[other.index] = if p = other then x else v[other.index] := by
  cases p <;> cases other <;> simp [Product.index]

/-- A register kept by identity reads back what was put there, and the other is left alone. -/
theorem Identity.getElem_set {α : Type} (v : Vector α 2) (j other : Identity) (x : α) :
    (v.set j.index x)[other.index] = if j = other then x else v[other.index] := by
  cases j <;> cases other <;> simp [Identity.index]

/-! ## The host inputs as a running command sees them (log 3) -/

/-- Taking back host writes changes WLEN and ZIN alone. -/
theorem takeBackLatest_eq (writes : List (PortReg × Word)) (s : State) (n : Nat) :
    s.takeBackLatest writes n = { s with
      wlen := (s.takeBackLatest writes n).wlen, zin := (s.takeBackLatest writes n).zin } := by
  induction writes generalizing s n with
  | nil => rfl
  | cons write earlier ih =>
    unfold State.takeBackLatest
    split
    · rfl
    · rw [ih]
      obtain ⟨reg, v⟩ := write
      cases reg <;> rfl

/-- With no write during the run the inputs are as they are. -/
@[simp] theorem atInput_of_quiet {s : State} (h : s.raced = []) : s.atInput = s := by
  simp [State.atInput, h, State.takeBackLatest]

/-! ## Elements (20_memory.md R52) -/

/-- An element fits in 224 bits. -/
theorem elem_lt (s : State) (src : Source) (i : Nat) : s.elem src i < 2 ^ 224 := by
  have h12 : ∀ f : Nat → Byte, ofBytes f 12 < 2 ^ 224 := fun f =>
    lt_trans (ofBytes_lt f 12) (by norm_num)
  cases src
  case a | b | k | n => exact h12 _
  case c | kn => exact ofBytes_lt _ 28

/-- A limb of an Operand fits in 96 bits. -/
theorem elem_lt_limb (s : State) (src : Source) (i : Nat) (h : src.nelem = Config.W) :
    s.elem src i < 2 ^ 96 := by
  cases src
  case c | kn => simp [Source.nelem, Config.W, Config.L] at h
  case a | b | k | n => exact ofBytes_lt _ 12

theorem nelem_le (src : Source) : src.nelem ≤ 43 := by
  cases src <;> simp [Source.nelem, Config.W, Config.L]

/-- Elements depend on WMEM, on the count of resets and on CROM alone. -/
theorem elem_congr {s t : State} (hm : t.wmem = s.wmem) (hr : t.resets = s.resets)
    (hc : t.crom = s.crom) (src : Source) (i : Nat) : t.elem src i = s.elem src i := by
  have hb : ∀ a, t.wmemByte a = s.wmemByte a := State.wmemByte_congr hm hr
  cases src <;> simp [State.elem, State.memRead, hb, hc]

/-! ## CROM (10_state.md R41) -/

/-- P = 2^256 − c as a number, for parameters in range (00_scope.md R9). -/
theorem crom_p {m : Crom} (h : m.wf = true) : m.p.toNat = 2 ^ 256 - m.c.toNat := by
  have hc : m.c.toNat ≠ 0 := by
    intro h0
    simp only [Crom.wf, Bool.and_eq_true, decide_eq_true_eq] at h
    exact h.1 (BitVec.eq_of_toNat_eq (by simpa using h0))
  have := m.c.isLt
  simp only [Crom.p, BitVec.toNat_ofNat]
  exact Nat.mod_eq_of_lt (by omega)

theorem crom_p_pos {m : Crom} (h : m.wf = true) : 2 ^ 255 < m.p.toNat := by
  have := m.c.isLt
  rw [crom_p h]
  omega

theorem crom_p_ne_zero {m : Crom} (h : m.wf = true) : m.p.toNat ≠ 0 := by
  have := crom_p_pos h
  omega

theorem crom_cc (m : Crom) : m.cc.toNat = m.c.toNat := by
  have := m.c.isLt
  simp only [Crom.cc, BitVec.toNat_setWidth]
  exact Nat.mod_eq_of_lt (by omega)

/-! ## The loops of the commands -/

/-- The loop of ACC: the exact sum, and no carry out (42_checksum.md R90, R91). -/
theorem accumulate_eq (elem power : Nat → Nat) (p n : Nat) (hp : p < 2 ^ 256) (hn : n ≤ 43) :
    accumulate elem power p n =
      (∑ i ∈ Finset.range n, mulmod (elem i) (power i) p, false) ∧
    ∑ i ∈ Finset.range n, mulmod (elem i) (power i) p ≤ n * (2 ^ 256 - 1) := by
  induction n with
  | zero => simp [accumulate]
  | succ k ih =>
    obtain ⟨heq, hle⟩ := ih (by omega)
    have hm := mulmod_lt (elem k) (power k) p hp
    rw [Finset.sum_range_succ]
    refine ⟨?_, by omega⟩
    have hsum : addw Config.accWords (∑ i ∈ Finset.range k, mulmod (elem i) (power i) p)
        (mulmod (elem k) (power k) p) false =
        (∑ i ∈ Finset.range k, mulmod (elem i) (power i) p + mulmod (elem k) (power k) p, false) := by
      rw [addw_eq]
      · simp
      · simp only [Bool.toNat_false, Config.accWords]
        omega
    simp [accumulate, heq, hsum]

/-- One guarded fold of RED computes `foldValue` and carries nothing out, for any accumulator of 288
bits (42_checksum.md R92, R93). -/
theorem foldOnce_eq (m : Crom) (acc : Nat) (hm : m.wf = true) (hacc : acc < 2 ^ 288) :
    foldOnce m acc = (foldValue m.c.toNat acc, false) := by
  have hw : (wordAt acc Config.feWords).toNat = acc / 2 ^ 256 := by
    rw [wordAt_toNat, Config.feWords]
    exact Nat.mod_eq_of_lt (by omega)
  have hwlt : acc / 2 ^ 256 < 2 ^ 32 := by omega
  by_cases h0 : acc / 2 ^ 256 = 0
  · have : wordAt acc Config.feWords = 0 := BitVec.eq_of_toNat_eq (by simpa [hw] using h0)
    rw [foldOnce, this, foldValue, if_pos h0]
    rfl
  · have hne : wordAt acc Config.feWords ≠ 0 := by
      intro h
      rw [h] at hw
      exact h0 (by simpa using hw.symm)
    have hc := m.c.isLt
    have hprod : acc / 2 ^ 256 * m.c.toNat < 2 ^ 96 := by
      calc _ ≤ acc / 2 ^ 256 * 2 ^ 64 := Nat.mul_le_mul_left _ hc.le
        _ < 2 ^ 32 * 2 ^ 64 := Nat.mul_lt_mul_of_pos_right hwlt (by norm_num)
        _ = 2 ^ 96 := by norm_num
    have hmul : mulmod (wordAt acc Config.feWords).toNat m.cc.toNat m.p.toNat
        = acc / 2 ^ 256 * m.c.toNat := by
      rw [mulmod_eq _ _ _ (crom_p_ne_zero hm), hw, crom_cc]
      exact Nat.mod_eq_of_lt (by have := crom_p_pos hm; omega)
    have hlo : acc % 2 ^ 256 < 2 ^ 256 := Nat.mod_lt _ (by norm_num)
    simp only [foldOnce, hne, if_false, hmul, foldValue, h0, Config.feBits]
    rw [addw_eq _ _ _ _ (by simp only [Bool.toNat_false, Config.accWords]; omega)]
    simp

/-- What the folds keep and how far they shrink the accumulator (42_checksum.md R93). -/
theorem foldValue_bounds (c acc : Nat) (hc : c < 2 ^ 64) (hacc : acc < 2 ^ 288) :
    foldValue c acc < 2 ^ 256 + 2 ^ 96 ∧ foldValue c (foldValue c acc) < 2 ^ 256 := by
  have hone : foldValue c acc < 2 ^ 256 + 2 ^ 96 := by
    unfold foldValue
    split
    · omega
    · have : acc / 2 ^ 256 * c < 2 ^ 32 * 2 ^ 64 :=
        Nat.mul_lt_mul_of_lt_of_le (by omega) hc.le (by norm_num)
      have hlo : acc % 2 ^ 256 < 2 ^ 256 := Nat.mod_lt _ (by norm_num)
      omega
  refine ⟨hone, ?_⟩
  generalize foldValue c acc = x at hone
  unfold foldValue
  split
  · omega
  · have h1 : x / 2 ^ 256 = 1 := by omega
    rw [h1, one_mul]
    omega

/-- A fold keeps the value modulo 2^256 − c (42_checksum.md R92). -/
theorem foldValue_mod (c acc : Nat) (hc : c < 2 ^ 256) :
    foldValue c acc % (2 ^ 256 - c) = acc % (2 ^ 256 - c) := by
  unfold foldValue
  split
  · rfl
  · have hsplit : acc = acc % 2 ^ 256 + acc / 2 ^ 256 * c + acc / 2 ^ 256 * (2 ^ 256 - c) := by
      have h1 : acc / 2 ^ 256 * c + acc / 2 ^ 256 * (2 ^ 256 - c) = acc / 2 ^ 256 * 2 ^ 256 := by
        rw [← Nat.mul_add]
        congr 1
        omega
      have h2 := Nat.mod_add_div acc (2 ^ 256)
      rw [Nat.mul_comm] at h2
      omega
    conv_rhs => rw [hsplit]
    rw [Nat.add_mul_mod_self_right]

/-- The loop of CANON after n slots: nothing is lost, CARRY stays below 2^129, the limbs and the carry
are the value of the slots (43_canonicalizer.md R100, R101). -/
theorem canonPass_eq (elem : Nat → Nat) (n : Nat) (he : ∀ i, elem i < 2 ^ 224) :
    (canonPass elem n).lost = false ∧ (canonPass elem n).carry < 2 ^ 129 ∧
    (canonPass elem n).limbs < 2 ^ (96 * n) ∧
    (canonPass elem n).limbs + (canonPass elem n).carry * 2 ^ (96 * n) =
      ∑ i ∈ Finset.range n, elem i * 2 ^ (96 * i) := by
  induction n with
  | zero => simp [canonPass]
  | succ k ih =>
    obtain ⟨hlost, hcarry, hlimbs, hval⟩ := ih
    have hek := he k
    have hadd : addw Config.feWords (elem k) (canonPass elem k).carry false =
        (elem k + (canonPass elem k).carry, false) := by
      rw [addw_eq]
      · simp
      · simp only [Bool.toNat_false, Config.feWords]
        omega
    simp only [canonPass, hadd, hlost, Bool.or_false, Config.limbBits]
    generalize (canonPass elem k).carry = r at *
    generalize (canonPass elem k).limbs = l at *
    have hpow : 2 ^ (96 * (k + 1)) = 2 ^ 96 * 2 ^ (96 * k) := by
      rw [← pow_add]
      congr 1
      ring
    have hmod : (elem k + r) % 2 ^ 96 < 2 ^ 96 := Nat.mod_lt _ (by norm_num)
    refine ⟨trivial, by omega, ?_, ?_⟩
    · rw [hpow]
      calc l + (elem k + r) % 2 ^ 96 * 2 ^ (96 * k)
          < 2 ^ (96 * k) + (elem k + r) % 2 ^ 96 * 2 ^ (96 * k) := by omega
        _ = ((elem k + r) % 2 ^ 96 + 1) * 2 ^ (96 * k) := by ring
        _ ≤ 2 ^ 96 * 2 ^ (96 * k) := Nat.mul_le_mul_right _ hmod
    · rw [Finset.sum_range_succ, ← hval, hpow]
      have hdm := Nat.mod_add_div (elem k + r) (2 ^ 96)
      generalize (elem k + r) % 2 ^ 96 = lo at hdm
      generalize (elem k + r) / 2 ^ 96 = hi at hdm
      calc l + lo * 2 ^ (96 * k) + hi * (2 ^ 96 * 2 ^ (96 * k))
          = l + (lo + 2 ^ 96 * hi) * 2 ^ (96 * k) := by ring
        _ = l + (elem k + r) * 2 ^ (96 * k) := by rw [hdm]
        _ = l + r * 2 ^ (96 * k) + elem k * 2 ^ (96 * k) := by ring

set_option exponentiation.threshold 5000 in
/-- hi of SUBX says whether a 129-word difference needs more than 64 words (44_reconciler.md R103). -/
theorem highWordsNonzero_iff (t : Nat) (ht : t < 2 ^ 4128) :
    highWordsNonzero t = decide (2 ^ 2048 ≤ t) := by
  have hzero : ∀ n, n ≤ 65 → (∀ j < n, wordAt t (64 + j) = 0) → t / 2 ^ 2048 % 2 ^ (32 * n) = 0 := by
    intro n hn hw
    induction n with
    | zero => rw [Nat.mul_zero, pow_zero, Nat.mod_one]
    | succ k ih =>
      have h1 := ih (by omega) fun j hj => hw j (by omega)
      have h2 : t / 2 ^ 2048 / 2 ^ (32 * k) % 2 ^ 32 = 0 := by
        have := congrArg BitVec.toNat (hw k (by omega))
        rw [wordAt_toNat, show 32 * (64 + k) = 2048 + 32 * k by ring, pow_add, ← Nat.div_div_eq_div_mul] at this
        simpa using this
      rw [show 32 * (k + 1) = 32 * k + 32 by ring, pow_add, Nat.mod_mul, h1, h2]
      simp
  rw [Bool.eq_iff_iff]
  simp only [highWordsNonzero, Config.canWords, Config.resWords, List.any_eq_true, List.mem_range,
    decide_eq_true_eq]
  constructor
  · rintro ⟨j, hj, hne⟩
    by_contra hlt
    apply hne
    apply BitVec.eq_of_toNat_eq
    rw [wordAt_toNat]
    have : t / 2 ^ (32 * (64 + j)) = 0 := by
      apply Nat.div_eq_of_lt
      calc t < 2 ^ 2048 := by omega
        _ ≤ 2 ^ (32 * (64 + j)) := Nat.pow_le_pow_right (by norm_num) (by omega)
    simp [this]
  · intro hle
    by_contra hno
    push Not at hno
    have h := hzero 65 le_rfl fun j hj => hno j (by omega)
    have hlt : t / 2 ^ 2048 < 2 ^ (32 * 65) := by
      rw [Nat.div_lt_iff_lt_mul (by positivity), ← pow_add]
      exact ht
    rw [Nat.mod_eq_of_lt hlt] at h
    have hpos : 0 < t / 2 ^ 2048 := Nat.div_pos hle (by positivity)
    omega

/-- Every entry of the ladder but PL[1] is below P, and PL[1] is Z (41_challenge_ladder.md R87). -/
theorem ladderEntry_lt (z p : Nat) (hz : z < 2 ^ 256) (hp : p < 2 ^ 256) (i : Nat) :
    ladderEntry z p i < 2 ^ 256 := by
  match i with
  | 0 => simp [ladderEntry]
  | 1 => simpa [ladderEntry] using hz
  | i + 2 => exact mulmod_lt _ _ _ hp

/-- For Z below P, entry i is Z^i mod P (41_challenge_ladder.md R87). -/
theorem ladderEntry_eq (z p : Nat) (hp : 1 < p) (hz : z < p) (i : Nat) :
    ladderEntry z p i = z ^ i % p := by
  induction i with
  | zero => simp [ladderEntry, Nat.mod_eq_of_lt hp]
  | succ k ih =>
    match k with
    | 0 => simp [ladderEntry, Nat.mod_eq_of_lt hz]
    | j + 1 =>
      rw [ladderEntry, mulmod_eq _ _ _ (by omega), ih, pow_succ z (j + 1), Nat.mul_mod, Nat.mod_mod,
        ← Nat.mul_mod]

end Sys2Proof.Machine
end

