-- ==== Sys2Proof/Laws/Step.lean ====
section
/-!
SUPPORT. What a step and a host access can do, said once.
-/

namespace Sys2Proof.Machine

/-- The next event is not one that comes before the running command completes. -/
theorem step_runs {s : State} (hb : s.busy = true)
    (hp : ∀ e ∈ s.port.head?, e.precedesCompletion = false) : step s = runCommand s := by
  unfold step
  match hport : s.port with
  | [] => simp [hb]
  | .reset :: rest => simp [hport, PortEvent.precedesCompletion] at hp
  | .access wb a :: rest =>
    have : wb = false := by simpa [hport, PortEvent.precedesCompletion] using hp
    simp [hb, this]

/-- Everything that one step can do. -/
theorem step_cases {s t : State} (h : step s = .next t) :
    (s.port = [] ∧ s.busy = false ∧ t = s) ∨
    (∃ rest, s.port = .reset :: rest ∧ t = State.platformReset { s with port := rest }) ∨
    (∃ wb a rest, s.port = .access wb a :: rest ∧ (s.busy = false ∨ wb = true) ∧
      t = State.hostAccess { s with port := rest } a) ∨
    (s.busy = true ∧ (∀ e ∈ s.port.head?, e.precedesCompletion = false) ∧
      runCommand s = .next t) := by
  unfold step at h
  split at h
  · rename_i hp
    split at h
    · exact .inr (.inr (.inr ⟨‹_›, by simp [hp], h⟩))
    · rename_i hb
      exact .inl ⟨hp, by simpa using hb, by injection h with h; exact h.symm⟩
  · rename_i rest hp
    exact .inr (.inl ⟨rest, hp, by injection h with h; exact h.symm⟩)
  · rename_i wb a rest hp
    split at h
    · rename_i hb
      simp only [Bool.and_eq_true, Bool.not_eq_true'] at hb
      exact .inr (.inr (.inr ⟨hb.1, by simp [hp, PortEvent.precedesCompletion, hb.2], h⟩))
    · rename_i hb
      refine .inr (.inr (.inl ⟨wb, a, rest, hp, ?_, by injection h with h; exact h.symm⟩))
      cases hbusy : s.busy <;> cases wb <;> simp_all

/-- Everything that a running word can do. -/
theorem runCommand_cases {s t : State} (h : runCommand s = .next t) :
    (∃ i, decode s.cmd = .ok i ∧ exec i s = .next t) ∨
    (∃ e, decode s.cmd = .error e ∧ t = s.illegalCommand s.cmd) := by
  unfold runCommand at h
  split at h
  · exact .inl ⟨_, ‹_›, h⟩
  · exact .inr ⟨_, ‹_›, by injection h with h; exact h.symm⟩

/-- Everything that one host access can do. -/
theorem hostAccess_cases (s : State) (a : HostAccess) :
    s.hostAccess a = s.refuseAccess a.kind ∨
    (∃ reg, a.kind = .read ∧ portReg a.offset = some reg ∧ s.hostAccess a = s.readReg reg) ∨
    (∃ v, a.kind = .write v ∧ portReg a.offset = some .cmd ∧ s.hostAccess a = s.writeCmd v) ∨
    (∃ reg v, a.kind = .write v ∧ portReg a.offset = some reg ∧ s.writable reg = true ∧
      s.hostAccess a = s.storeReg reg v) := by
  unfold State.hostAccess
  split
  · split
    · exact .inl rfl
    · rename_i reg hreg
      split
      · exact .inr (.inl ⟨reg, ‹_›, hreg, rfl⟩)
      · rename_i v hk
        unfold State.writeReg
        split
        · rename_i hc
          exact .inr (.inr (.inl ⟨v, hk, by rw [hreg, hc], rfl⟩))
        · split
          · exact .inr (.inr (.inr ⟨reg, v, hk, hreg, ‹_›, rfl⟩))
          · exact .inl (by rw [hk])
  · exact .inl rfl

/-- Noting a race changes the model's own record alone. -/
theorem noteRace_eq (s : State) (reg : PortReg) (displaced : Word) :
    s.noteRace reg displaced = { s with
      raced := (s.noteRace reg displaced).raced, draws := (s.noteRace reg displaced).draws } := by
  unfold State.noteRace
  split <;> rfl

/-- A store of the host changes WMEM, WLEN or ZIN, and the model's own record. -/
theorem storeReg_eq (s : State) (reg : PortReg) (v : Word) :
    s.storeReg reg v = { s with
      wmem := (s.storeReg reg v).wmem, wlen := (s.storeReg reg v).wlen,
      zin := (s.storeReg reg v).zin, raced := (s.storeReg reg v).raced,
      draws := (s.storeReg reg v).draws } := by
  cases reg with
  | wlen k => simp only [State.storeReg]; rw [noteRace_eq]
  | zin k => simp only [State.storeReg]; rw [noteRace_eq]
  | _ => rfl

/-- The offset of a register (20_memory.md R48). -/
def PortReg.offset : PortReg → Nat
  | .wmem k => 4 * k
  | .cmd => 0x1000
  | .status => 0x1004
  | .progress => 0x1008
  | .pc => 0x100C
  | .errinfo => 0x1010
  | .epc => 0x1014
  | .ecmd => 0x1018
  | .wlen k => 0x1020 + 4 * k
  | .zin k => 0x1040 + 4 * k
  | .res k => 0x1100 + 4 * k

/-- A register is found at its own offset, -/
theorem portReg_offset (reg : PortReg) : portReg reg.offset = some reg := by
  cases reg with
  | wmem k =>
    have h : 4 * k.val < 0x0C80 := by omega
    simp [PortReg.offset, portReg, h]
  | wlen k =>
    revert k
    decide
  | zin k =>
    revert k
    decide
  | res k =>
    revert k
    decide
  | _ => rfl

/-- and nowhere else. -/
theorem offset_of_portReg {off : Nat} {reg : PortReg} (h4 : off % 4 = 0)
    (h : portReg off = some reg) : off = reg.offset := by
  unfold portReg at h
  by_cases h0 : off < 0x0C80
  · rw [dif_pos h0] at h
    injection h with h
    rw [← h]
    show off = 4 * (off / 4)
    omega
  · rw [dif_neg h0] at h
    repeat' split at h
    all_goals first | contradiction | (injection h with h; rw [← h])
    all_goals simp only [PortReg.offset]
    all_goals omega

/-- The mapped offsets are those of the registers (20_memory.md R48). -/
theorem portReg_isSome {off : Nat} (h4 : off % 4 = 0) :
    (portReg off).isSome = true ↔ mappedOffset off := by
  constructor
  · intro h
    obtain ⟨reg, hreg⟩ := Option.isSome_iff_exists.mp h
    rw [offset_of_portReg h4 hreg]
    unfold mappedOffset
    cases reg <;> simp only [PortReg.offset] <;> omega
  · intro h
    unfold mappedOffset at h
    unfold portReg
    by_cases h0 : off < 0x0C80
    · rw [dif_pos h0]
      rfl
    · rw [dif_neg h0]
      repeat' split
      all_goals first | rfl | (exfalso; omega)

/-- What no host access changes: RUNSTATE, PC, the fault record, CF, every progress flag, every datum of a
run, CROM, the events to come. -/
theorem hostAccess_eq (s : State) (a : HostAccess) :
    s.hostAccess a = { s with
      busy := (s.hostAccess a).busy, cmd := (s.hostAccess a).cmd,
      ovrBefore := (s.hostAccess a).ovrBefore, berrBefore := (s.hostAccess a).berrBefore,
      ovr := (s.hostAccess a).ovr, berr := (s.hostAccess a).berr, wmem := (s.hostAccess a).wmem, wlen := (s.hostAccess a).wlen,
      zin := (s.hostAccess a).zin, raced := (s.hostAccess a).raced,
      rdata := (s.hostAccess a).rdata, draws := (s.hostAccess a).draws } := by
  rcases hostAccess_cases s a with h | ⟨reg, -, -, h⟩ | ⟨v, -, -, h⟩ | ⟨reg, v, -, -, -, h⟩ <;> rw [h]
  · cases a.kind <;> rfl
  · unfold State.readReg
    split <;> rfl
  · unfold State.writeCmd
    split
    · rfl
    · split <;> rfl
  · rw [storeReg_eq]

/-- CMD is never stored to as a plain register. -/
theorem writable_ne_cmd {s : State} {reg : PortReg} (h : s.writable reg = true) : reg ≠ .cmd := by
  rintro rfl
  simp [State.writable] at h

/-- `CLR` and no other word is `isClr` (30_encoding.md R72 step 2). -/
theorem isClr_iff (w : Word) : isClr w = true ↔ decode w = .ok .clr := by
  unfold isClr
  split <;> simp_all

end Sys2Proof.Machine
end

