-- ==== Sys2Proof/Laws/Exec.lean ====
section
/-!
SUPPORT. Everything that one command can do, said once: ignored in a terminal state, a fault, or its own
effect. Proofs about all commands cite `exec_cases` and do not unfold a meaning; the exact values are
what the statements about each command say.
-/

namespace Sys2Proof.Machine

/-- Command i has its own effect on s and leaves t: the tests before its body hold, and t differs from s
only as shown. -/
def Completes (i : Instr) (s t : State) : Prop :=
  match i with
  | .nop => s.runstate.terminal = false ∧ t = s.complete
  | .start => s.runstate = .idle ∧ s.wrongLength = none ∧
      t = { s with runstate := .active }.complete
  | .ldz => s.runstate = .active ∧ s.zv = false ∧
      ∃ z cf, t = { s with z := some z, cf := cf, zv := true }.complete
  | .ladder => s.runstate = .active ∧ s.zv = true ∧ s.plv = false ∧
      ∃ pl, t = { s with pl := some pl, plv := true }.complete
  | .acc sel => ∃ src, Source.ofSel sel = some src ∧
      s.runstate = .active ∧ s.plv = true ∧ s.ckst[src.index] = .empty ∧
      ∃ v, t = (s.putChecksum src v .raw).complete
  | .red sel => ∃ src, Source.ofSel sel = some src ∧
      s.runstate = .active ∧ s.ckst[src.index] = .raw ∧
      ∃ v cf, t = { s.putChecksum src v .reduced with cf := cf }.complete
  | .chk sel => ∃ j, Identity.ofSel sel = some j ∧
      s.runstate = .active ∧ s.ckst[j.x.index] = .reduced ∧ s.ckst[j.y.index] = .reduced ∧
      s.ckst[j.w.index] = .reduced ∧ s.chkok[j.index] = false ∧
      mulmod (s.ckLow j.x) (s.ckLow j.y) s.crom.p.toNat = s.ckLow j.w ∧
      t = { s with chkok := s.chkok.set j.index true }.complete
  | .canon sel => ∃ p, Product.ofSel sel = some p ∧
      s.runstate = .active ∧ s.canv[p.index] = false ∧
      ∃ v, t = { s with
        can := s.can.set p.index (some v), carry := some 0
        canv := s.canv.set p.index true }.complete
  | .subx => s.runstate = .active ∧ s.canv[0] = true ∧ s.canv[1] = true ∧ s.dv = false ∧
      ∃ d, t = { s with d := some d, cf := false, dv := true }.complete
  | .fred => s.runstate = .active ∧ s.dv = true ∧ s.rv = false ∧
      ∃ r cf, t = { s with r := some r, cf := cf, rv := true }.complete
  | .fin => s.runstate = .active ∧ s.chkok[0] = true ∧ s.chkok[1] = true ∧ s.rv = true ∧
      t = { s with runstate := .accept }.complete
  | .clr => t = s.clear

/-- The order test of a command in a state that is not terminal, or its body. -/
theorem issue_live {i : Instr} {s t : State} {req : Bool} {body : Result}
    (h : issue i s req body = .next t) (ht : s.runstate.terminal = false) :
    t = s.raise .sequenceError 0 (encode i) ∨ (req = true ∧ body = .next t) := by
  rcases issue_cases h with ⟨h1, -⟩ | ⟨-, -, h2⟩ | ⟨-, h1, h2⟩
  · rw [ht] at h1
    cases h1
  · exact .inl h2
  · exact .inr ⟨h1, h2⟩

/-- In a terminal state every command but CLR is ignored. -/
theorem exec_terminal {i : Instr} {s : State} (hi : i ≠ .clr) (ht : s.runstate.terminal = true) :
    exec i s = .next s.ignoreWord := by
  cases i
  case clr => exact absurd rfl hi
  case acc | red | chk | canon =>
    simp only [exec, execAcc, execRed, execChk, execCanon]
    split
    · rw [illegalCommand_terminal ht]
    · exact issue_terminal ht
  all_goals exact issue_terminal ht

/-- Everything that a command can do in a state that is not terminal: a fault, with D and CF written first
by SUBX and CAN and CARRY by CANON, or its own effect. -/
theorem exec_live {i : Instr} {s t : State} (h : exec i s = .next t)
    (ht : s.runstate.terminal = false) :
    (∃ cause info, t = s.raise cause info (encode i)) ∨
    (i = .subx ∧ s.runstate = .active ∧ s.dv = false ∧ ∃ d cf info,
      t = State.raise { s with d := d, cf := cf } .magnitudeInconsistency info (encode i)) ∨
    (∃ sel p, i = .canon sel ∧ Product.ofSel sel = some p ∧ s.runstate = .active ∧
      s.canv[p.index] = false ∧ ∃ carry info,
      t = State.raise { s with can := s.can.set p.index none, carry := carry }
        .canonicalizationOverflow info (encode i)) ∨
    Completes i s t := by
  cases i
  case nop =>
    rcases issue_live h ht with h | ⟨-, h⟩
    · exact .inl ⟨_, _, h⟩
    · injection h with h
      exact .inr (.inr (.inr ⟨ht, h.symm⟩))
  case start =>
    rcases issue_live h ht with h | ⟨hr, h⟩
    · exact .inl ⟨_, _, h⟩
    · split at h <;> injection h with h
      · exact .inl ⟨_, _, h.symm⟩
      · exact .inr (.inr (.inr ⟨by simpa using hr, ‹_›, h.symm⟩))
  case ldz =>
    rcases issue_live h ht with h | ⟨hr, h⟩
    · exact .inl ⟨_, _, h⟩
    · injection h with h
      simp only [Bool.and_eq_true, Bool.not_eq_true', active_iff] at hr
      exact .inr (.inr (.inr ⟨hr.1, hr.2, _, _, h.symm⟩))
  case ladder =>
    rcases issue_live h ht with h | ⟨hr, h⟩
    · exact .inl ⟨_, _, h⟩
    · injection h with h
      simp only [Bool.and_eq_true, Bool.not_eq_true', active_iff] at hr
      exact .inr (.inr (.inr ⟨hr.1.1, hr.1.2, hr.2, _, h.symm⟩))
  case acc sel =>
    simp only [exec, execAcc] at h
    split at h
    · injection h with h
      exact .inl ⟨_, _, by rw [← h, illegalCommand_live ht]⟩
    · rename_i src hs
      rcases issue_live h ht with h | ⟨hr, h⟩
      · exact .inl ⟨_, _, h⟩
      · split at h
        · cases h
        · injection h with h
          simp only [Bool.and_eq_true, decide_eq_true_eq, active_iff] at hr
          exact .inr (.inr (.inr ⟨src, hs, hr.1.1, hr.1.2, hr.2, _, h.symm⟩))
  case red sel =>
    simp only [exec, execRed] at h
    split at h
    · injection h with h
      exact .inl ⟨_, _, by rw [← h, illegalCommand_live ht]⟩
    · rename_i src hs
      rcases issue_live h ht with h | ⟨hr, h⟩
      · exact .inl ⟨_, _, h⟩
      · split at h
        · cases h
        · split at h
          · cases h
          · injection h with h
            simp only [Bool.and_eq_true, decide_eq_true_eq, active_iff] at hr
            exact .inr (.inr (.inr ⟨src, hs, hr.1, hr.2, _, _, h.symm⟩))
  case chk sel =>
    simp only [exec, execChk] at h
    split at h
    · injection h with h
      exact .inl ⟨_, _, by rw [← h, illegalCommand_live ht]⟩
    · rename_i j hj
      rcases issue_live h ht with h | ⟨hr, h⟩
      · exact .inl ⟨_, _, h⟩
      · simp only [Bool.and_eq_true, decide_eq_true_eq, Bool.not_eq_true', active_iff] at hr
        obtain ⟨⟨⟨⟨ha, hx⟩, hy⟩, hw⟩, hc⟩ := hr
        split at h <;> injection h with h
        · exact .inr (.inr (.inr ⟨j, hj, ha, hx, hy, hw, hc, ‹_›, h.symm⟩))
        · exact .inl ⟨_, _, h.symm⟩
  case canon sel =>
    simp only [exec, execCanon] at h
    split at h
    · injection h with h
      exact .inl ⟨_, _, by rw [← h, illegalCommand_live ht]⟩
    · rename_i p hp
      rcases issue_live h ht with h | ⟨hr, h⟩
      · exact .inl ⟨_, _, h⟩
      · simp only [Bool.and_eq_true, Bool.not_eq_true', active_iff] at hr
        split at h
        · cases h
        · split at h <;> rename_i hcarry <;> injection h with h
          · exact .inr (.inr (.inl ⟨sel, p, rfl, hp, hr.1, hr.2, _, _, h.symm⟩))
          · simp only [ne_eq, not_not] at hcarry
            rw [hcarry] at h
            exact .inr (.inr (.inr ⟨p, hp, hr.1, hr.2, _, h.symm⟩))
  case subx =>
    rcases issue_live h ht with h | ⟨hr, h⟩
    · exact .inl ⟨_, _, h⟩
    · simp only [Bool.and_eq_true, Bool.not_eq_true', active_iff] at hr
      dsimp only at h
      split at h <;> rename_i hb <;> injection h with h
      · exact .inr (.inl ⟨rfl, hr.1.1.1, hr.2, _, _, _, h.symm⟩)
      · simp only [Bool.or_eq_true, not_or, Bool.not_eq_true] at hb
        rw [hb.1] at h
        exact .inr (.inr (.inr ⟨hr.1.1.1, hr.1.1.2, hr.1.2, hr.2, _, h.symm⟩))
  case fred =>
    rcases issue_live h ht with h | ⟨hr, h⟩
    · exact .inl ⟨_, _, h⟩
    · injection h with h
      simp only [Bool.and_eq_true, Bool.not_eq_true', active_iff] at hr
      exact .inr (.inr (.inr ⟨hr.1.1, hr.1.2, hr.2, _, _, h.symm⟩))
  case fin =>
    rcases issue_live h ht with h | ⟨hr, h⟩
    · exact .inl ⟨_, _, h⟩
    · injection h with h
      simp only [Bool.and_eq_true, active_iff] at hr
      exact .inr (.inr (.inr ⟨hr.1.1.1, hr.1.1.2, hr.1.2, hr.2, h.symm⟩))
  case clr =>
    injection h with h
    exact .inr (.inr (.inr h.symm))

end Sys2Proof.Machine
end

