-- ==== Sys2Proof/Laws/PerInstr.lean ====
section
/-!
SUPPORT. The per-command family `EncodingFields`: the fields of the word of every command
(30_encoding.md R68).
-/

namespace Sys2Proof.Laws.EncodingFields

/-- The word of i has i's opcode, i's selector and zeros above (30_encoding.md R68). -/
def Statement (i : Instr) : Prop :=
  opField (encode i) = i.opcode ∧ selField (encode i) = i.selector ∧ zeroField (encode i) = 0

theorem nop : Statement .nop := by unfold Statement; decide

theorem start : Statement .start := by unfold Statement; decide

theorem ldz : Statement .ldz := by unfold Statement; decide

theorem ladder : Statement .ladder := by unfold Statement; decide

theorem acc (sel : BitVec 3) : Statement (.acc sel) := by unfold Statement; revert sel; decide

theorem red (sel : BitVec 3) : Statement (.red sel) := by unfold Statement; revert sel; decide

theorem chk (sel : BitVec 3) : Statement (.chk sel) := by unfold Statement; revert sel; decide

theorem canon (sel : BitVec 3) : Statement (.canon sel) := by unfold Statement; revert sel; decide

theorem subx : Statement .subx := by unfold Statement; decide

theorem fred : Statement .fred := by unfold Statement; decide

theorem fin : Statement .fin := by unfold Statement; decide

theorem clr : Statement .clr := by unfold Statement; decide

end Sys2Proof.Laws.EncodingFields
end

