-- ==== Sys2Proof/Machine/Program.lean ====
section
/-!
DEFINITION. The spec's way of writing commands down: the text of a command (30_encoding.md R73), the
pseudo-commands (R74) and the standard program (45_control.md R112). No step of the machine uses them:
MMVC sees only the words that the host writes.
-/

namespace Sys2Proof.Machine

/-- The name of a source in a command's text (30_encoding.md R73). -/
def Source.name : Source → String
  | .a => "A"
  | .b => "B"
  | .k => "K"
  | .n => "N"
  | .c => "C"
  | .kn => "KN"

/-- The name of a product in a command's text (30_encoding.md R73). -/
def Product.name : Product → String
  | .c => "C"
  | .kn => "KN"

/-- The selector of a source (00_scope.md R19). -/
def Source.sel (src : Source) : BitVec 3 := BitVec.ofNat 3 src.index

/-- The text of a command (30_encoding.md R73), none for an operand that names nothing. -/
def asm : Instr → Option String
  | .nop => some "NOP"
  | .start => some "START"
  | .ldz => some "LDZ"
  | .ladder => some "LADDER"
  | .acc sel => (Source.ofSel sel).map fun src => "ACC " ++ src.name
  | .red sel => (Source.ofSel sel).map fun src => "RED " ++ src.name
  | .chk sel => (Identity.ofSel sel).map fun j => if j.index = 0 then "CHK 0" else "CHK 1"
  | .canon sel => (Product.ofSel sel).map fun t => "CANON " ++ t.name
  | .subx => some "SUBX"
  | .fred => some "FRED"
  | .fin => some "FIN"
  | .clr => some "CLR"

/-- The pseudo-commands (30_encoding.md R74). -/
inductive Pseudo where
  | cksum (src : Source)
  | cksums
  | idchk
  | recon
  | verify
  deriving DecidableEq, Repr

/-- `CKSUM s`: `ACC s`, `RED s` (30_encoding.md R74). -/
def checksumOf (src : Source) : List Instr := [.acc src.sel, .red src.sel]

/-- The sources in the order of `CKSUMS` (30_encoding.md R74). -/
def sourceOrder : List Source := [.a, .b, .k, .n, .c, .kn]

/-- What a pseudo-command expands to, in order (30_encoding.md R74). -/
def expand : Pseudo → List Instr
  | .cksum src => checksumOf src
  | .cksums => sourceOrder.flatMap checksumOf
  | .idchk => [.chk 0, .chk 1]
  | .recon => [.canon 0, .canon 1, .subx, .fred]
  | .verify =>
    [.start, .ldz, .ladder] ++ sourceOrder.flatMap checksumOf ++ [.chk 0, .chk 1] ++
      [.canon 0, .canon 1, .subx, .fred] ++ [.fin]

/-- The command words of the standard program (45_control.md R112). -/
def standardProgram : List Word := (expand .verify).map encode

end Sys2Proof.Machine
end

