-- ==== Sys2Proof/Tests/Slice0.lean ====
section
/-!
SUPPORT. My own tests: ill-formed commands, words written out from 30_encoding.md R67 and R68, one or two
vectors of 95_test_vectors.md section 2 per command, and for every statement with hypotheses a concrete
state that meets them. Configuration T of 95_test_vectors.md section 0: c = 189, N = 7.
-/

namespace Sys2Proof.Tests

set_option Elab.async false

open Sys2Proof.Machine

/-! ## Small states -/

/-- After reset, in configuration T with N = 7. -/
def boot : State := { State.reset with crom := ⟨189, 7⟩ }

/-- After START: RUNSTATE = ACTIVE, PC = 1. -/
def active : State := { boot with runstate := .active, pc := 1 }

/-- After a fault. -/
def rejected : State := { boot with runstate := .reject, err := 6, epc := 1, ecmd := 0x0A }

/-- The declared lengths that START expects (45_control.md R108). -/
def lengths : Vector Word 5 := #v[264, 264, 1204, 264, 1204]

/-- s with a command word running and no event to come. -/
def running (s : State) (w : Word) : State := s.accept w

/-- s with one host access to come. -/
def facing (s : State) (a : HostAccess) : State := { s with port := [.access true a] }

/-- P of configuration T. -/
def p : Nat := 2 ^ 256 - 189

/-- A property of the state that an outcome reaches. -/
def reaches (o : Result) (q : State → Bool) : Bool :=
  match o with
  | .next t => q t
  | .fault _ | .refused _ => false

/-! ## Well-formed commands (30_encoding.md R69) -/

theorem test_acc_selector_six_is_ill_formed : ¬ (Instr.acc 6).WellFormed := by decide +kernel

theorem test_red_selector_seven_is_ill_formed : ¬ (Instr.red 7).WellFormed := by decide +kernel

theorem test_chk_selector_two_is_ill_formed : ¬ (Instr.chk 2).WellFormed := by decide +kernel

theorem test_canon_selector_three_is_ill_formed : ¬ (Instr.canon 3).WellFormed := by decide +kernel

theorem test_last_selectors_are_well_formed : (Instr.acc 5).WellFormed ∧ (Instr.red 5).WellFormed ∧
    (Instr.chk 1).WellFormed ∧ (Instr.canon 1).WellFormed := by decide +kernel

/-! ## Decoding: words written out bit by bit, `zero` (21 bits), `sel` (3), `op` (8)
(30_encoding.md R67, R68) -/

theorem test_decode_nop : decode 0b000000000000000000000_000_00000000 = .ok .nop := by decide +kernel

theorem test_decode_start : decode 0b000000000000000000000_000_00000001 = .ok .start := by decide +kernel

theorem test_decode_ldz : decode 0b000000000000000000000_000_00000010 = .ok .ldz := by decide +kernel

theorem test_decode_ladder : decode 0b000000000000000000000_000_00000011 = .ok .ladder := by decide +kernel

theorem test_decode_acc : decode 0b000000000000000000000_101_00000100 = .ok (.acc 5) := by decide +kernel

theorem test_decode_red : decode 0b000000000000000000000_010_00000101 = .ok (.red 2) := by decide +kernel

theorem test_decode_chk : decode 0b000000000000000000000_001_00000110 = .ok (.chk 1) := by decide +kernel

theorem test_decode_canon : decode 0b000000000000000000000_001_00000111 = .ok (.canon 1) := by decide +kernel

theorem test_decode_subx : decode 0b000000000000000000000_000_00001000 = .ok .subx := by decide +kernel

theorem test_decode_fred : decode 0b000000000000000000000_000_00001001 = .ok .fred := by decide +kernel

theorem test_decode_fin : decode 0b000000000000000000000_000_00001010 = .ok .fin := by decide +kernel

theorem test_decode_clr : decode 0b000000000000000000000_000_00001011 = .ok .clr := by decide +kernel

/-- The reserved words of 95_test_vectors.md section 2.3. -/
theorem test_reserved_words_are_rejected :
    decode 0x00000604 = .error .selectorOutOfRange ∧ decode 0x00000605 = .error .selectorOutOfRange ∧
    decode 0x00000206 = .error .selectorOutOfRange ∧ decode 0x00000207 = .error .selectorOutOfRange ∧
    decode 0x00000100 = .error .selectorOnFormatN ∧ decode 0x0000010B = .error .selectorOnFormatN ∧
    decode 0x0000000C = .error .opcodeNotAssigned ∧ decode 0x000000FF = .error .opcodeNotAssigned ∧
    decode 0x00000800 = .error .upperBitsNotZero ∧ decode 0xFFFFFFFF = .error .upperBitsNotZero := by
  decide +kernel

/-! ## Word arithmetic (95_test_vectors.md section 2.1, 2.2) -/

theorem test_adc32_wraps : adc32 0xFFFFFFFF 0xFFFFFFFF true = (0xFFFFFFFF, true) := by decide +kernel

theorem test_sbb32_borrows_in_and_out : sbb32 0x12345678 0x9ABCDEF0 true = (0x77777787, true) := by
  decide +kernel

theorem test_addw_ripples : addw 2 0x00000000FFFFFFFF 1 false = (0x0000000100000000, false) := by decide +kernel

theorem test_subw_ripples : subw 3 (2 ^ 64) 1 false = (0xFFFFFFFFFFFFFFFF, false) := by decide +kernel

theorem test_mulmod_top : mulmod (2 ^ 255) 2 p = 0xBD ∧ mulmod (p - 1) (p - 1) p = 1 := by decide +kernel

/-! ## One or two vectors per command (95_test_vectors.md section 2.4 to 2.12) -/

/-- PC = 0xFFFFFFFF, then NOP: PC = 0 (section 2.12). -/
theorem test_nop_wraps_pc :
    reaches (exec .nop { boot with pc := 0xFFFFFFFF }) (fun t => t.pc = 0) = true := by decide +kernel

/-- WLEN = 264, 264, 264, 1204, 1204: MalformedWitness(2), STATUS = 0x00000013 (section 2.12). -/
theorem test_start_reports_the_first_wrong_length :
    reaches (exec .start { boot with wlen := #v[264, 264, 264, 1204, 1204] })
      (fun t => t.errinfo = 2 && t.statusWord = 0x00000013 && t.ecmd = 1 && t.pc = 0) = true := by decide +kernel

theorem test_start_freezes :
    reaches (exec .start { boot with wlen := lengths })
      (fun t => t.statusWord = 0x00000001 && t.pc = 1) = true := by decide +kernel

/-- ZIN = 2^256 − 1: Z = 0xBC, CF = 0, STATUS = 1 (section 2.4). -/
theorem test_ldz_reduces :
    reaches (exec .ldz { active with zin := Vector.replicate 8 0xFFFFFFFF })
      (fun t => t.z = some 0xBC && t.statusWord = 0x00000001 && t.progressWord = 1) = true := by decide +kernel

/-- ZIN = P − 1: Z = P − 1, CF = 1, STATUS = 9 (section 2.4). -/
theorem test_ldz_keeps_a_residue :
    reaches (exec .ldz { active with zin := (Vector.replicate 8 0xFFFFFFFF).set 0 0xFFFFFF42 })
      (fun t => t.z = some (BitVec.ofNat 256 (p - 1)) && t.statusWord = 0x00000009) = true := by decide +kernel

/-- Z = 2: PL[0] = 1, PL[1] = 2, PL[42] = 0x40000000000 (section 2.5). -/
theorem test_ladder_of_two :
    reaches (exec .ladder { active with z := some 2, zv := true })
      (fun t => t.plValue 0 = 1 && t.plValue 1 = 2 && t.plValue 42 = 0x40000000000 &&
        t.progressWord = 3) = true := by decide +kernel

/-- Z = 2^255: PL[2] and PL[42] (section 2.5). -/
theorem test_ladder_reduces :
    reaches (exec .ladder { active with z := some (BitVec.ofNat 256 (2 ^ 255)), zv := true })
      (fun t => t.plValue 2 = 0x40000000000000000000000000000000000000000000000000000000000022B3 &&
        t.plValue 42 = 0xB8834FFF9C2AFB6DA042AE6ADD862FFF9D2CEC536BC4684248094960CC1FF335) = true := by
  decide +kernel

/-- The bytes of A: limb 0 = 3, limb 1 = 5, every other limb 0 (section 2.6). -/
def operandA : Memory :=
  (List.range 264).map fun a => (a, if a = 0 then 3 else if a = 12 then 5 else 0)

/-- The powers of z that LADDER leaves. -/
def powers (z : Nat) : Vector (BitVec 256) 43 := Vector.ofFn fun i => BitVec.ofNat 256 (z ^ i.val % p)

/-- ACTIVE with the ladder of z. -/
def laddered (z : Nat) : State :=
  { active with z := some (BitVec.ofNat 256 z), zv := true, pl := some (powers z), plv := true }

/-- Z = 2: CK[0] = 3 + 5 · 2 = 0xD, RAW (section 2.6). -/
theorem test_acc_a :
    reaches (exec (.acc 0) { laddered 2 with wmem := operandA })
      (fun t => t.ck[0] = some 0xD && t.progressWord = 0x00000007) = true := by decide +kernel

/-- N = 2^64 + 13 in CROM, Z = 2: one limb (section 2.6). -/
theorem test_acc_n_reads_crom :
    reaches (exec (.acc 3) { laddered 2 with crom := ⟨189, 0x1000000000000000D⟩ })
      (fun t => t.ck[3] = some 0x1000000000000000D && t.progressWord = 0x00000103) = true := by decide +kernel

/-- ACTIVE with a raw value in CK[0]. -/
def rawA (v : Nat) : State :=
  { laddered 2 with
    ck := (Vector.replicate 6 none).set 0 (some (BitVec.ofNat 288 v))
    ckst := (Vector.replicate 6 .empty).set 0 .raw }

/-- 11 · P folds once to P exactly: 0, CF = 0 (section 2.7). -/
theorem test_red_takes_the_subtraction :
    reaches (exec (.red 0) (rawA (11 * p)))
      (fun t => t.ck[0] = some 0 && !t.cf && t.progressWord = 0x0000000B) = true := by decide +kernel

/-- 2^257 − 1 folds twice: 0x179, CF = 1 (section 2.7). -/
theorem test_red_folds_twice :
    reaches (exec (.red 0) (rawA (2 ^ 257 - 1))) (fun t => t.ck[0] = some 0x179 && t.cf) = true := by
  decide +kernel

/-- ACTIVE, PC = 15, with x, y, w reduced in the six checksums, x, y, w again for identity 1. -/
def reduced (x y w : Nat) : State :=
  { laddered 2 with
    pc := 15
    ck := #v[some (BitVec.ofNat 288 x), some (BitVec.ofNat 288 y), some (BitVec.ofNat 288 x),
      some (BitVec.ofNat 288 y), some (BitVec.ofNat 288 w), some (BitVec.ofNat 288 w)]
    ckst := Vector.replicate 6 .reduced }

/-- (P − 1) · (P − 1) = 1 passes (section 2.8). -/
theorem test_chk_passes :
    reaches (exec (.chk 0) (reduced (p - 1) (p - 1) 1))
      (fun t => t.chkok[0] && !t.chkok[1] && t.pc = 16) = true := by decide +kernel

/-- 3 · 5 ≠ 0x10 by `CHK 1`: ERR = 2, ERRINFO = 1, EPC = 15, ECMD = 0x106 (section 2.8). -/
theorem test_chk_mismatch :
    reaches (exec (.chk 1) (reduced 3 5 0x10))
      (fun t => t.err = 2 && t.errinfo = 1 && t.epc = 15 && t.ecmd = 0x00000106 && t.pc = 15 &&
        !t.chkok[1] && t.runstate = .reject) = true := by decide +kernel

/-- Slot 0 = 2^96 − 1, slot 1 = 1: words 0, 1, 2 all ones, word 3 = 1 (section 2.9). -/
theorem test_canon_spreads_slots :
    canonPass (fun i => if i = 0 then 2 ^ 96 - 1 else if i = 1 then 1 else 0) 43 =
      ⟨0, 0x1FFFFFFFFFFFFFFFFFFFFFFFF, false⟩ := by decide +kernel

/-- Every slot 2^224 − 1: CARRY = 2^128 + 2^32 (section 2.9). -/
theorem test_canon_carry_out :
    (canonPass (fun _ => 2 ^ 224 - 1) 43).carry = 0x100000000000000000000000100000000 := by decide +kernel

/-- ACTIVE, PC = 19, with x in CAN[0] and y in CAN[1]. -/
def canonical (x y : BitVec 4128) : State :=
  { reduced 3 5 15 with
    pc := 19, can := #v[some x, some y], canv := Vector.replicate 2 true }

/-- 14 − 15: D all ones, MagnitudeInconsistency(3), STATUS = 0x0000004B (section 2.10). -/
theorem test_subx_borrows :
    reaches (exec .subx (canonical 14 15))
      (fun t => t.d = some (BitVec.allOnes 4128) && t.errinfo = 3 && t.statusWord = 0x0000004B &&
        t.epc = 19 && !t.dv) = true := by decide +kernel

/-- 15 − 14: D = 1, DV = 1 (section 2.10). -/
theorem test_subx_subtracts :
    reaches (exec .subx (canonical 15 14)) (fun t => t.d = some 1 && !t.cf && t.dv) = true := by decide +kernel

/-- ACTIVE with d in D, N = 7. -/
def difference (d : BitVec 4128) : State := { canonical 15 14 with d := some d, dv := true }

/-- D = 13: R = 6, CF = 0 (section 2.11). -/
theorem test_fred_subtracts_once :
    reaches (exec .fred (difference 13)) (fun t => t.r = some 6 && !t.cf && t.rv) = true := by decide +kernel

/-- D = 6: R = 6, CF = 1 (section 2.11). -/
theorem test_fred_leaves_a_small_difference :
    reaches (exec .fred (difference 6)) (fun t => t.r = some 6 && t.cf && t.rv) = true := by decide +kernel

/-- FIN just after START: SequenceError, STATUS = 0x00000063, ECMD = 0x0A (section 2.12). -/
theorem test_fin_needs_a_finished_run :
    reaches (exec .fin active)
      (fun t => t.statusWord = 0x00000063 && t.epc = 1 && t.ecmd = 0x0000000A) = true := by decide +kernel

/-- The standard program up to FRED, P1 of section 3.1: PROGRESS = 0x000FEAAB. -/
def finished : State :=
  { difference 1 with
    pc := 21, chkok := Vector.replicate 2 true, r := some 1, rv := true }

/-- FIN at the end of P1: STATUS = 0x00000002 with CF = 0, PROGRESS = 0x000FEAAB, RES0 = 1
(section 3.1). -/
theorem test_fin_accepts :
    reaches (exec .fin finished)
      (fun t => t.statusWord = 0x00000002 && t.progressWord = 0x000FEAAB && t.pc = 22 &&
        t.resWord 0 = 1 && t.resWord 1 = 0) = true := by decide +kernel

/-- CLR after a fault (section 2.12). -/
theorem test_clr_leaves_reject :
    reaches (exec .clr { rejected with wlen := lengths, ovr := true, berr := true })
      (fun t => t.statusWord = 0 && t.pc = 0 && t.epc = 0 && t.ecmd = 0 &&
        t.wlen = Vector.replicate 5 0) = true := by decide +kernel

/-! ## Host port (95_test_vectors.md section 2.13) -/

theorem test_write_stores_little_endian :
    reaches (step (facing boot ⟨.write 0xAABBCCDD, 0x0C7C, 32⟩))
      (fun t => t.wmemByte 3196 = 0xDD && t.wmemByte 3197 = 0xCC && t.wmemByte 3198 = 0xBB &&
        t.wmemByte 3199 = 0xAA && t.statusWord = 0) = true := by decide +kernel

theorem test_write_of_a_read_only_register_is_refused :
    reaches (step (facing boot ⟨.write 1, 0x1004, 32⟩)) (fun t => t.statusWord = 0x00000200) = true := by
  decide +kernel

theorem test_write_of_the_frozen_witness_is_refused :
    reaches (step (facing active ⟨.write 1, 0x1020, 32⟩)) (fun t => t.statusWord = 0x00000201) = true := by
  decide +kernel

theorem test_read_outside_the_map_is_refused :
    reaches (step (facing boot ⟨.read, 0x101C, 32⟩)) (fun t => t.rdata = 0 && t.berr) = true := by decide +kernel

/-- A CMD write while BUSY = 1 is dropped and sets OVR (section 2.13); STATUS shows it when the command has
ended, not before (20_memory.md R61). -/
theorem test_dropped_word_shows_after_the_command :
    reaches (step (facing (active.accept 0) ⟨.write 1, 0x1000, 32⟩))
      (fun t => t.ovr && t.statusWord = 0x00000005 && reaches (step t)
        (fun u => u.statusWord = 0x00000101 && u.pc = 2)) = true := by decide +kernel

/-- A word run after reset through the port, as the host's interface places it (log 1): ACC with
selector 6 is IllegalCommand, STATUS = 0x00000053 (section 2.3). -/
theorem test_illegal_word_is_rejected :
    reaches (step (boot.withFetchWord 32 0x00000604))
      (fun t => t.statusWord = 0x00000053 && t.errinfo = 0 && t.ecmd = 0x00000604) = true := by decide +kernel

/-! ## The standard program (45_control.md R112) and the text of a command (30_encoding.md R73) -/

theorem test_standard_program_words : standardProgram =
    [0x00000001, 0x00000002, 0x00000003, 0x00000004, 0x00000005, 0x00000104, 0x00000105, 0x00000204,
      0x00000205, 0x00000304, 0x00000305, 0x00000404, 0x00000405, 0x00000504, 0x00000505, 0x00000006,
      0x00000106, 0x00000007, 0x00000107, 0x00000008, 0x00000009, 0x0000000A] := by decide +kernel

theorem test_text_of_commands : asm (.red 5) = some "RED KN" ∧ asm (.chk 1) = some "CHK 1" ∧
    asm (.canon 2) = none := by decide +kernel

/-! ## Witnesses: concrete states and operands that meet the hypotheses of the statements

One theorem per statement, or per clause where the clauses differ; the conclusion is the hypotheses. -/

theorem next_of_reaches {o : Result} {q : State → Bool} (h : reaches o q = true) :
    ∃ t, o = .next t ∧ q t = true := by
  unfold reaches at h
  split at h
  · exact ⟨_, rfl, h⟩
  · cases h
  · cases h

/-- The command word of acceptance: written while nothing runs, and while a command runs. -/
def writesCmd (s : State) (w : Word) : State := facing s ⟨.write w, 0x1000, 32⟩

theorem witness_decode_and_encode : (Instr.acc 5).WellFormed ∧ (Instr.canon 1).WellFormed ∧
    decode 0x00000504 = .ok (.acc 5) := by decide

theorem witness_step_runs_the_decoded_command :
    (running boot 0x00000000).runs ∧ decode (running boot 0x00000000).cmd = .ok .nop :=
  ⟨⟨rfl, by simp [State.nothingPrecedes, running, boot, State.reset]⟩, by decide⟩

theorem witness_illegal_word :
    (running boot 0x00000604).runs ∧ boot.runstate = .idle ∧
    (∀ i, decode (running boot 0x00000604).cmd ≠ .ok i) ∧
    (running active 0x0000000C).runs ∧ active.runstate = .active ∧
    (∀ i, decode (running active 0x0000000C).cmd ≠ .ok i) := by
  refine ⟨⟨rfl, ?_⟩, rfl, ?_, ⟨rfl, ?_⟩, rfl, ?_⟩
  · simp [State.nothingPrecedes, running, boot, State.reset]
  · intro i h
    rw [show decode (running boot 0x00000604).cmd = .error .selectorOutOfRange by decide] at h
    cases h
  · simp [State.nothingPrecedes, running, active, boot, State.reset]
  · intro i h
    rw [show decode (running active 0x0000000C).cmd = .error .opcodeNotAssigned by decide] at h
    cases h

/-- Dropped, ignored, accepted, and accepted in a terminal state. -/
theorem witness_command_word_acceptance :
    ((writesCmd (running boot 0) 1).takes ⟨.write 1, 0x1000, 32⟩ [] ∧
      (writesCmd (running boot 0) 1).busy = true) ∧
    ((writesCmd rejected 1).takes ⟨.write 1, 0x1000, 32⟩ [] ∧
      (writesCmd rejected 1).busy = false ∧ rejected.runstate.terminal = true ∧ decode 1 ≠ .ok .clr) ∧
    ((writesCmd boot 1).takes ⟨.write 1, 0x1000, 32⟩ [] ∧ (writesCmd boot 1).busy = false ∧
      boot.runstate.terminal = false) ∧
    ((writesCmd rejected 0x0B).takes ⟨.write 0x0B, 0x1000, 32⟩ [] ∧
      (writesCmd rejected 0x0B).busy = false ∧ decode 0x0B = .ok .clr) := by
  refine ⟨⟨⟨true, rfl, .inr rfl⟩, rfl⟩, ⟨⟨true, rfl, .inr rfl⟩, rfl, rfl, by decide⟩,
    ⟨⟨true, rfl, .inr rfl⟩, rfl, rfl⟩, ⟨⟨true, rfl, .inr rfl⟩, rfl, by decide⟩⟩

theorem witness_terminal_state_ignores : Instr.fin ≠ .clr ∧ rejected.runstate.terminal = true ∧
    { finished with runstate := .accept }.runstate.terminal = true := by decide

theorem witness_selector_out_of_range : ¬ (Instr.acc 6).WellFormed ∧ ¬ (Instr.canon 2).WellFormed ∧
    active.runstate.terminal = false := by decide

theorem witness_nop : boot.runstate = .idle ∧ active.runstate = .active ∧
    { finished with runstate := .accept }.runstate = .accept ∧ rejected.runstate = .reject := by decide

/-- The right lengths, the first one wrong, only the last one wrong, and START in ACTIVE. -/
theorem witness_start :
    (boot.runstate = .idle ∧ ∀ k : Fin 5, { boot with wlen := lengths }.seenWlen k = witnessLengths[k]) ∧
    (boot.seenWlen 0 ≠ witnessLengths[0] ∧ ∀ j < (0 : Fin 5), boot.seenWlen j = witnessLengths[j]) ∧
    ({ boot with wlen := lengths.set 4 0 }.seenWlen 4 ≠ witnessLengths[4] ∧
      ∀ j < (4 : Fin 5), { boot with wlen := lengths.set 4 0 }.seenWlen j = witnessLengths[j]) ∧
    active.runstate = .active := by decide +kernel

theorem witness_fin :
    (finished.runstate = .active ∧ finished.chkok[0] = true ∧ finished.chkok[1] = true ∧
      finished.rv = true) ∧
    (active.runstate = .active ∧ active.rv = false) ∧ boot.runstate = .idle := by decide +kernel

theorem witness_ldz : active.crom.wf = true ∧ active.runstate = .active ∧ active.zv = false ∧
    boot.runstate.terminal = false ∧ ¬ Requires .ldz boot := by
  refine ⟨by decide +kernel, rfl, rfl, rfl, ?_⟩
  rintro ⟨h, -⟩
  cases h

theorem witness_host_inputs : active.raced = [] := rfl

/-- Z = 2, a residue; and LADDER before LDZ. -/
theorem witness_ladder :
    ({ laddered 2 with plv := false, pl := none }.crom.wf = true ∧
      Requires .ladder { laddered 2 with plv := false, pl := none } ∧
      { laddered 2 with plv := false, pl := none }.zValue.toNat <
        { laddered 2 with plv := false, pl := none }.p) ∧
    active.runstate.terminal = false ∧ ¬ Requires .ladder active := by
  refine ⟨⟨by decide +kernel, ⟨rfl, rfl, rfl⟩, by decide +kernel⟩, rfl, ?_⟩
  rintro ⟨-, h, -⟩
  cases h

/-- The first and the last source; and ACC before LADDER. -/
theorem witness_acc :
    (Source.ofSel 0 = some .a ∧ Source.ofSel 5 = some .kn ∧ (laddered 2).crom.wf = true ∧
      (laddered 2).runstate = .active ∧ (laddered 2).plv = true ∧
      (∀ src : Fin 6, (laddered 2).ckst[src] = .empty) ∧
      ∀ i < 43, ((laddered 2).plValue i).toNat = (laddered 2).zValue.toNat ^ i % (laddered 2).p) ∧
    (Instr.acc 5).WellFormed ∧ active.runstate.terminal = false ∧ ¬ Requires (.acc 5) active := by
  refine ⟨by decide +kernel, by decide, rfl, ?_⟩
  rintro ⟨_, -, -, h, -⟩
  cases h

/-- ACC N answers a next state. -/
theorem witness_acc_overflow_word : ∃ t, exec (.acc 3) (laddered 2) = .next t ∧
    (Source.ofSel 3 = some .n ∧ (laddered 2).crom.wf = true ∧ (laddered 2).plv = true ∧
      (laddered 2).ckst[Source.n.index] = .empty ∧ (laddered 2).runstate = .active) := by
  obtain ⟨t, h, -⟩ := next_of_reaches
    (show reaches (exec (.acc 3) (laddered 2)) (fun _ => true) = true by decide +kernel)
  exact ⟨t, h, rfl, by decide +kernel, rfl, rfl, rfl⟩

/-- The first source raw, the last one raw, and RED with nothing accumulated. -/
theorem witness_red :
    (Source.ofSel 0 = some .a ∧ (rawA 13).crom.wf = true ∧ (rawA 13).runstate = .active ∧
      (rawA 13).ckst[Source.a.index] = .raw) ∧
    (Source.ofSel 5 = some .kn ∧
      { rawA 13 with ckst := Vector.replicate 6 .raw }.ckst[Source.kn.index] = .raw) ∧
    (Instr.red 5).WellFormed ∧ (rawA 13).runstate.terminal = false ∧ ¬ Requires (.red 5) (rawA 13) := by
  refine ⟨by decide +kernel, by decide +kernel, by decide, rfl, ?_⟩
  rintro ⟨src, hs, -, h⟩
  obtain rfl : Source.kn = src := by injection hs
  revert h
  decide +kernel

/-- 3 · 5 = 15 for both identities, 3 · 5 ≠ 16, and CHK with nothing reduced. -/
theorem witness_chk :
    (Identity.ofSel 0 = some .ab ∧ Identity.ofSel 1 = some .kn ∧ (reduced 3 5 15).crom.wf = true ∧
      Requires (.chk 0) (reduced 3 5 15) ∧ Requires (.chk 1) (reduced 3 5 15) ∧
      ((reduced 3 5 15).ckValue .a).toNat % 2 ^ 256 * (((reduced 3 5 15).ckValue .b).toNat % 2 ^ 256) %
        (reduced 3 5 15).p = ((reduced 3 5 15).ckValue .c).toNat % 2 ^ 256) ∧
    (Requires (.chk 1) (reduced 3 5 16) ∧
      ((reduced 3 5 16).ckValue .k).toNat % 2 ^ 256 * (((reduced 3 5 16).ckValue .n).toNat % 2 ^ 256) %
        (reduced 3 5 16).p ≠ ((reduced 3 5 16).ckValue .kn).toNat % 2 ^ 256) ∧
    (Instr.chk 1).WellFormed ∧ active.runstate.terminal = false ∧ ¬ Requires (.chk 1) active := by
  refine ⟨⟨rfl, rfl, by decide +kernel, ⟨.ab, rfl, rfl, rfl, rfl, rfl, rfl⟩, ⟨.kn, rfl, rfl, rfl, rfl, rfl, rfl⟩,
    by decide +kernel⟩, ⟨⟨.kn, rfl, rfl, rfl, rfl, rfl, rfl⟩, by decide +kernel⟩, by decide, rfl, ?_⟩
  rintro ⟨j, hj, -, h, -⟩
  obtain rfl : Identity.kn = j := by injection hj
  revert h
  decide +kernel

/-- A witness of zeros: A = B = C = K = KN = 0. -/
def zeros : Memory := (List.range' 0 3200).map fun a => (a, 0)

theorem find_zeros (b n a : Nat) :
    Memory.find ((List.range' b n).map fun a => (a, 0)) a =
      if b ≤ a ∧ a < b + n then some 0 else none := by
  induction n generalizing b with
  | zero =>
    rw [if_neg (by omega)]
    rfl
  | succ k ih =>
    rw [List.range'_succ, List.map_cons, Memory.find, ih]
    by_cases h : b = a
    · rw [if_pos h, if_pos (by omega)]
    · rw [if_neg h]
      by_cases h2 : b + 1 ≤ a ∧ a < b + 1 + k
      · rw [if_pos h2, if_pos (by omega)]
      · rw [if_neg h2, if_neg (by omega)]

theorem zeros_memRead {s : State} (hm : s.wmem = zeros) (a n : Nat) (h : a + n ≤ 3200) :
    s.memRead a n = 0 := by
  have hz : ∀ k, k ≤ n → ofBytes (fun j => s.wmemByte (a + j)) k = 0 := by
    intro k hk
    induction k with
    | zero => rfl
    | succ j ih =>
      have hb : s.wmemByte (a + j) = 0 := by
        rw [State.wmemByte, hm, zeros, find_zeros, if_pos (by omega)]
        rfl
      rw [ofBytes, ih (by omega), hb]
      simp
  exact hz n le_rfl

theorem zeros_elem {s : State} (hm : s.wmem = zeros) (src : Source) (hs : src ≠ .n) (i : Nat)
    (hi : i < src.nelem) : s.elem src i = 0 := by
  cases src <;> simp only [Source.nelem, Config.W, Config.L] at hi
  case n => exact absurd rfl hs
  all_goals
    unfold State.elem
    exact zeros_memRead hm _ _ (by simp only [Config.limbBytes, Config.slotBytes]; omega)

theorem zeros_arrayValue {s : State} (hm : s.wmem = zeros) (src : Source) (hs : src ≠ .n) :
    s.arrayValue src = 0 :=
  Finset.sum_eq_zero fun i hi => by
    rw [zeros_elem hm src hs i (Finset.mem_range.mp hi), Nat.zero_mul]

/-- The end of a run over the witness of zeros, with Z = 0 and FIN running; the identities checked or
not. -/
def zeroRun (checked : Bool) : State :=
  { finished with
    wmem := zeros, z := some 0, pl := some (powers 0)
    ck := #v[some 0, some 0, some 0, some 7, some 0, some 0]
    chkok := Vector.replicate 2 checked
    can := #v[some 0, some 0], d := some 0, r := some 0, busy := true, cmd := 0x0000000A }

theorem zeroRun_elem_n : ∀ checked, ∀ i < 22, (zeroRun checked).elem .n i = if i = 0 then 7 else 0 := by
  decide +kernel

theorem zeroRun_checksum (checked : Bool) (src : Source) :
    (zeroRun checked).checksum src = if src = .n then 7 else 0 := by
  by_cases hn : src = .n
  · subst hn
    rw [State.checksum, if_pos rfl, Finset.sum_eq_single 0]
    · revert checked
      decide +kernel
    · intro i hi h0
      rw [zeroRun_elem_n checked i (Finset.mem_range.mp hi), if_neg h0, Nat.zero_mul]
    · exact fun h => absurd (Finset.mem_range.mpr (show 0 < 22 by decide)) h
  · rw [State.checksum, if_neg hn, Finset.sum_eq_zero]
    · exact Nat.zero_mod _
    · intro i hi
      rw [zeros_elem rfl src hn i (Finset.mem_range.mp hi), Nat.zero_mul]

/-- The invariant holds at the end of that run. -/
theorem zeroRun_inv (checked : Bool) : (zeroRun checked).Inv where
  memory := show Memory.wf zeros = true by decide +kernel
  constants := show (⟨189, 7⟩ : Crom).wf = true by decide +kernel
  quiet := fun h => by cases h
  running := fun _ h => by cases h
  record := by revert checked; decide +kernel
  clearRecord := fun _ => ⟨rfl, rfl, rfl⟩
  fresh := fun h => by cases h
  challenge := fun _ => ⟨0, rfl, by revert checked; decide +kernel⟩
  ladder := fun _ => ⟨rfl, powers 0, rfl, by revert checked; decide +kernel⟩
  raw := fun src h => by cases src <;> cases h
  reduced := fun src _ => ⟨rfl, by
    rw [zeroRun_checksum]
    cases src
    case n => exact ⟨7, rfl, by decide +kernel⟩
    all_goals exact ⟨0, rfl, by decide +kernel⟩⟩
  identity := fun j _ => by
    cases j <;> refine ⟨rfl, rfl, rfl, ?_⟩ <;>
      rw [zeroRun_checksum, zeroRun_checksum, zeroRun_checksum] <;> revert checked <;> decide +kernel
  canonical := fun t _ => by
    cases t <;> refine ⟨0, rfl, ?_⟩ <;> rw [zeros_arrayValue rfl _ (by decide)] <;>
      exact BitVec.toNat_zero
  difference := fun _ => ⟨rfl, rfl, 0, rfl, by
    rw [zeros_arrayValue rfl _ (by decide), zeros_arrayValue rfl _ (by decide)]
    decide +kernel, by decide +kernel⟩
  remainder := fun _ => ⟨rfl, 0, rfl, by revert checked; decide +kernel⟩
  accepted := fun h => by cases h

/-- Everything done: FIN runs. -/
abbrev done : State := zeroRun true

/-- Every identity still to check. -/
abbrev unchecked : State := zeroRun false

/-- True products of zero operands, CHK 0 and CHK 1 still to run. -/
theorem witness_true_product :
    unchecked.Inv ∧ Identity.ofSel 0 = some .ab ∧ Requires (.chk 0) unchecked ∧
    (∀ k < 43, unchecked.elem Identity.ab.w k = ∑ i ∈ Finset.range 22,
      if i ≤ k ∧ k - i < 22 then unchecked.elem Identity.ab.x i * unchecked.elem Identity.ab.y (k - i)
      else 0) ∧
    Identity.ofSel 1 = some .kn ∧ Requires (.chk 1) unchecked ∧
    (∀ k < 43, unchecked.elem Identity.kn.w k = ∑ i ∈ Finset.range 22,
      if i ≤ k ∧ k - i < 22 then unchecked.elem Identity.kn.x i * unchecked.elem Identity.kn.y (k - i)
      else 0) := by
  have h0 : ∀ src : Source, src ≠ .n → ∀ i < src.nelem, unchecked.elem src i = 0 :=
    fun src hs i hi => zeros_elem rfl src hs i hi
  refine ⟨zeroRun_inv false, rfl, ⟨.ab, rfl, rfl, rfl, rfl, rfl, rfl⟩, fun k hk => ?_, rfl,
    ⟨.kn, rfl, rfl, rfl, rfl, rfl, rfl⟩, fun k hk => ?_⟩
  · rw [show unchecked.elem Identity.ab.w k = 0 from h0 .c (by decide) k hk, Finset.sum_eq_zero]
    intro i hi
    rw [show unchecked.elem Identity.ab.x i = 0 from h0 .a (by decide) i (Finset.mem_range.mp hi),
      Nat.zero_mul]
    split <;> rfl
  · rw [show unchecked.elem Identity.kn.w k = 0 from h0 .kn (by decide) k hk, Finset.sum_eq_zero]
    intro i hi
    rw [show unchecked.elem Identity.kn.x i = 0 from h0 .k (by decide) i (Finset.mem_range.mp hi),
      Nat.zero_mul]
    split <;> rfl

/-- The bytes of slot 42 of C: the slot is 2^96. -/
def topSlot : Memory := (List.range' 1704 28).map fun a => (a, if a = 1716 then 1 else 0)

/-- The products of zeros fit; slot 42 = 2^96 does not (section 2.9); a second CANON. -/
theorem witness_canon :
    (Product.ofSel 0 = some .c ∧ Product.ofSel 1 = some .kn ∧
      { active with wmem := zeros }.runstate = .active ∧
      (∀ t : Product, { active with wmem := zeros }.canv[t.index] = false) ∧
      ∀ t : Product, { active with wmem := zeros }.arrayValue t.source < 2 ^ 4128) ∧
    ({ active with wmem := topSlot }.canv[Product.c.index] = false ∧
      2 ^ 4128 ≤ { active with wmem := topSlot }.arrayValue Product.c.source) ∧
    (Instr.canon 1).WellFormed ∧ finished.runstate.terminal = false ∧
    ¬ Requires (.canon 1) finished := by
  refine ⟨⟨rfl, rfl, rfl, fun t => by cases t <;> rfl, fun t => ?_⟩, ⟨rfl, ?_⟩, by decide, rfl, ?_⟩
  · cases t <;> rw [zeros_arrayValue rfl _ (by decide)] <;> decide +kernel
  · have h42 : { active with wmem := topSlot }.elem .c 42 * 2 ^ (96 * 42) = 2 ^ 4128 := by
      decide +kernel
    have h := Finset.single_le_sum (s := Finset.range Source.c.nelem)
      (f := fun i => { active with wmem := topSlot }.elem .c i * 2 ^ (96 * i))
      (fun _ _ => Nat.zero_le _) (Finset.mem_range.mpr (show 42 < Source.c.nelem by decide))
    beta_reduce at h
    rw [h42] at h
    exact h
  · rintro ⟨t, ht, -, h⟩
    obtain rfl : Product.kn = t := by injection ht
    revert h
    decide +kernel

/-- D = 0, the largest D, an underflow, one bit too many, and SUBX before CANON. -/
theorem witness_subx :
    (Requires .subx (canonical 14 14) ∧
      (canonical 14 14).canValue .kn ≤ (canonical 14 14).canValue .c ∧
      ((canonical 14 14).canValue .c - (canonical 14 14).canValue .kn).toNat < 2 ^ 2048) ∧
    (Requires .subx (canonical (1 <<< 2048) 1) ∧
      (canonical (1 <<< 2048) 1).canValue .kn ≤ (canonical (1 <<< 2048) 1).canValue .c ∧
      ((canonical (1 <<< 2048) 1).canValue .c - (canonical (1 <<< 2048) 1).canValue .kn).toNat
        < 2 ^ 2048) ∧
    (Requires .subx (canonical 14 15) ∧
      ¬ (canonical 14 15).canValue .kn ≤ (canonical 14 15).canValue .c) ∧
    (Requires .subx (canonical (1 <<< 2048) 0) ∧
      ¬ ((canonical (1 <<< 2048) 0).canValue .c - (canonical (1 <<< 2048) 0).canValue .kn).toNat
        < 2 ^ 2048) ∧
    active.runstate.terminal = false ∧ ¬ Requires .subx active := by
  refine ⟨⟨⟨rfl, rfl, rfl, rfl⟩, by decide +kernel⟩, ⟨⟨rfl, rfl, rfl, rfl⟩, by decide +kernel⟩,
    ⟨⟨rfl, rfl, rfl, rfl⟩, by decide +kernel⟩, ⟨⟨rfl, rfl, rfl, rfl⟩, by decide +kernel⟩, rfl, ?_⟩
  rintro ⟨-, h, -⟩
  cases h

/-- D = N − 1 and D = N; and FRED before SUBX. -/
theorem witness_fred :
    (Requires .fred (difference 6) ∧ (difference 6).crom.wf = true ∧
      (difference 6).dValue.toNat < 2 ^ 2048 ∧
      (difference 6).dValue.toNat % 2 ^ 2048 < (difference 6).crom.n.toNat) ∧
    (Requires .fred (difference 7) ∧ (difference 7).crom.wf = true ∧
      (difference 7).dValue.toNat < 2 ^ 2048 ∧
      ¬ (difference 7).dValue.toNat % 2 ^ 2048 < (difference 7).crom.n.toNat) ∧
    active.runstate.terminal = false ∧ ¬ Requires .fred active := by
  refine ⟨⟨⟨rfl, rfl, rfl⟩, by decide +kernel⟩, ⟨⟨rfl, rfl, rfl⟩, by decide +kernel⟩, rfl, ?_⟩
  rintro ⟨-, h, -⟩
  cases h

/-- A command answers a next state: no command writes memory, and one that leaves CF alone. -/
theorem witness_a_command_runs : ∃ t, exec .fin finished = .next t ∧
    ¬ (Instr.fin = .ldz ∨ (∃ sel, Instr.fin = .red sel) ∨ Instr.fin = .subx ∨ Instr.fin = .fred) := by
  obtain ⟨t, h, -⟩ := next_of_reaches
    (show reaches (exec .fin finished) (fun _ => true) = true by decide +kernel)
  exact ⟨t, h, by simp⟩

theorem witness_crom_in_range : boot.crom.wf = true ∧ (⟨1, 1⟩ : Crom).wf = true ∧
    (⟨BitVec.allOnes 64, BitVec.allOnes 2048⟩ : Crom).wf = true := by decide +kernel

theorem done_nothing_precedes : done.nothingPrecedes := by
  intro e he
  cases he

/-- The last step of a run: every step, ACCEPT entered, the invariant kept. -/
theorem witness_accept_step : ∃ t, step done = .next t ∧
    done.Inv ∧ done.runs ∧ done.runstate ≠ .accept ∧ t.runstate = .accept := by
  obtain ⟨t, h, ht⟩ := next_of_reaches
    (show reaches (step done) (fun t => t.runstate = .accept) = true by decide +kernel)
  exact ⟨t, h, zeroRun_inv true, ⟨rfl, done_nothing_precedes⟩, by decide, by simpa using ht⟩

/-- START with no length declared: a step into REJECT. -/
theorem witness_fault_step : ∃ t, step (running boot 1) = .next t ∧
    (running boot 1).runstate ≠ .reject ∧ t.runstate = .reject := by
  obtain ⟨t, h, ht⟩ := next_of_reaches
    (show reaches (step (running boot 1)) (fun t => t.runstate = .reject) = true by decide +kernel)
  exact ⟨t, h, by decide, by simpa using ht⟩

theorem done_does_not_restart : ¬ done.restarts := by
  rintro (⟨-, h⟩ | h)
  · revert h
    decide
  · cases h

/-- A step inside a run with every progress flag set, outside IDLE, ZIN frozen. -/
theorem witness_progress_step : ∃ t, step done = .next t ∧ ¬ done.restarts ∧ done.runstate ≠ .idle ∧
    done.zv = true ∧ done.plv = true ∧ (∀ src : Source, done.ckst[src.index] = .reduced) ∧
    (∀ j : Identity, done.chkok[j.index] = true) ∧ (∀ t : Product, done.canv[t.index] = true) ∧
    done.dv = true ∧ done.rv = true := by
  obtain ⟨t, h, -⟩ := next_of_reaches
    (show reaches (step done) (fun _ => true) = true by decide +kernel)
  exact ⟨t, h, done_does_not_restart, by decide, rfl, rfl, fun src => by cases src <;> rfl,
    fun j => by cases j <;> rfl, fun t => by cases t <;> rfl, rfl, rfl⟩

/-- A raw checksum before a step: NOP over `rawA`. -/
theorem witness_progress_step_raw : ∃ t, step (running (rawA 13) 0) = .next t ∧
    ¬ (running (rawA 13) 0).restarts ∧ (running (rawA 13) 0).ckst[Source.a.index] = .raw := by
  obtain ⟨t, h, -⟩ := next_of_reaches
    (show reaches (step (running (rawA 13) 0)) (fun _ => true) = true by decide +kernel)
  refine ⟨t, h, ?_, rfl⟩
  rintro (⟨-, h⟩ | h)
  · revert h
    decide
  · cases h

/-- A CMD write in REJECT that is not CLR. -/
theorem witness_terminal_step : ∃ t, step (writesCmd rejected 1) = .next t ∧
    (writesCmd rejected 1).runstate.terminal = true ∧ ¬ (writesCmd rejected 1).restarts := by
  obtain ⟨t, h, -⟩ := next_of_reaches
    (show reaches (step (writesCmd rejected 1)) (fun _ => true) = true by decide +kernel)
  refine ⟨t, h, rfl, ?_⟩
  rintro (⟨⟨h, -⟩, -⟩ | h) <;> cases h

/-- OVR and BERR both set, and each of them newly set. -/
theorem witness_port_flags :
    (∃ t, step (running { boot with ovr := true, berr := true } 0) = .next t ∧
      ¬ (running { boot with ovr := true, berr := true } 0).restarts) ∧
    (∃ t, step (writesCmd (running boot 0) 1) = .next t ∧ t.ovr = true ∧
      (writesCmd (running boot 0) 1).ovr = false ∧ ¬ (writesCmd (running boot 0) 1).restarts) ∧
    (∃ t, step (facing boot ⟨.read, 0x1FFC, 32⟩) = .next t ∧ t.berr = true ∧
      (facing boot ⟨.read, 0x1FFC, 32⟩).berr = false ∧
      ¬ (facing boot ⟨.read, 0x1FFC, 32⟩).restarts) := by
  refine ⟨?_, ?_, ?_⟩
  · obtain ⟨t, h, -⟩ := next_of_reaches (show
      reaches (step (running { boot with ovr := true, berr := true } 0)) (fun _ => true) = true by
        decide +kernel)
    refine ⟨t, h, ?_⟩
    rintro (⟨-, h⟩ | h)
    · revert h
      decide
    · cases h
  · obtain ⟨t, h, ht⟩ := next_of_reaches (show reaches (step (writesCmd (running boot 0) 1))
      (fun t => t.ovr) = true by decide +kernel)
    refine ⟨t, h, ht, rfl, ?_⟩
    rintro (⟨⟨-, h⟩, -⟩ | h)
    · exact absurd (h (.access true ⟨.write 1, 0x1000, 32⟩) rfl) (by decide)
    · cases h
  · obtain ⟨t, h, ht⟩ := next_of_reaches (show reaches (step (facing boot ⟨.read, 0x1FFC, 32⟩))
      (fun t => t.berr) = true by decide +kernel)
    refine ⟨t, h, ht, rfl, ?_⟩
    rintro (⟨⟨h, -⟩, -⟩ | h) <;> cases h

/-- RED A and RED B, one after the other, in either order. -/
def bothRaw : State :=
  { laddered 2 with
    ck := #v[some 13, some 5, none, none, none, none]
    ckst := #v[.raw, .raw, .empty, .empty, .empty, .empty] }

theorem witness_commuting : ∃ si sij sj sji : State, bothRaw.raced = [] ∧
    exec (.red 0) bothRaw = .next si ∧ exec (.red 1) si = .next sij ∧
    exec (.red 1) bothRaw = .next sj ∧ exec (.red 0) sj = .next sji ∧
    si.runstate = .active ∧ sij.runstate = .active ∧ sj.runstate = .active ∧
    sji.runstate = .active := by
  obtain ⟨si, h1, q1⟩ := next_of_reaches (show reaches (exec (.red 0) bothRaw)
    (fun t => t.runstate = .active && reaches (exec (.red 1) t) (fun u => u.runstate = .active))
      = true by decide +kernel)
  obtain ⟨sj, h2, q2⟩ := next_of_reaches (show reaches (exec (.red 1) bothRaw)
    (fun t => t.runstate = .active && reaches (exec (.red 0) t) (fun u => u.runstate = .active))
      = true by decide +kernel)
  simp only [Bool.and_eq_true, decide_eq_true_eq] at q1 q2
  obtain ⟨sij, h3, q3⟩ := next_of_reaches q1.2
  obtain ⟨sji, h4, q4⟩ := next_of_reaches q2.2
  exact ⟨si, sij, sj, sji, rfl, h1, h3, h2, h4, q1.1, by simpa using q3, q2.1, by simpa using q4⟩

/-- One access of each of the five rows of 20_memory.md R55, and one that is performed. -/
theorem witness_refused_accesses :
    ((facing boot ⟨.read, 0x0C80, 32⟩).takes ⟨.read, 0x0C80, 32⟩ [] ∧ boot.Refuses ⟨.read, 0x0C80, 32⟩) ∧
    boot.Refuses ⟨.read, 0x1005, 32⟩ ∧ boot.Refuses ⟨.read, 0x1004, 16⟩ ∧
    boot.Refuses ⟨.write 1, 0x1018, 32⟩ ∧ boot.Refuses ⟨.write 1, 0x11FC, 32⟩ ∧
    active.Refuses ⟨.write 1, 0x0C7C, 32⟩ ∧ active.Refuses ⟨.write 1, 0x1030, 32⟩ ∧
    finished.Refuses ⟨.write 1, 0x105C, 32⟩ ∧ rejected.Refuses ⟨.write 1, 0x1040, 32⟩ ∧
    ¬ boot.Refuses ⟨.write 1, 0x105C, 32⟩ := by
  refine ⟨⟨⟨true, rfl, .inr rfl⟩, .inl ?_⟩, .inr (.inl (.inl ?_)), .inr (.inl (.inr ?_)),
    .inr (.inr (.inl ⟨?_, .inl ?_⟩)), .inr (.inr (.inl ⟨?_, .inr ?_⟩)),
    .inr (.inr (.inr (.inl ⟨?_, .inl ?_, ?_⟩))), .inr (.inr (.inr (.inl ⟨?_, .inr ?_, ?_⟩))),
    .inr (.inr (.inr (.inr ⟨?_, ?_, .inl ?_⟩))), .inr (.inr (.inr (.inr ⟨?_, ?_, .inr (.inr ?_)⟩))), ?performed⟩
  case performed =>
    rintro (h | h | ⟨-, h⟩ | ⟨-, h, h2⟩ | ⟨-, -, h⟩)
    · exact h (by unfold mappedOffset; decide)
    · revert h
      decide
    · revert h
      decide
    · exact h2 rfl
    · rcases h with h | h | h <;> cases h
  all_goals first | decide | (unfold mappedOffset; decide)

/-- The first and the last register of every kind show what they hold. -/
theorem witness_host_reads :
    ∀ off ∈ [0x0000, 0x0C7C, 0x1000, 0x1004, 0x1008, 0x100C, 0x1010, 0x1014, 0x1018, 0x1020, 0x1030,
      0x1040, 0x105C, 0x1100, 0x11FC],
      boot.busy = false ∧ (facing boot ⟨.read, off, 32⟩).takes ⟨.read, off, 32⟩ [] ∧
      ∃ v, boot.Shows off v := by
  intro off hoff
  refine ⟨rfl, ⟨true, rfl, .inr rfl⟩, ?_⟩
  simp only [List.mem_cons, List.not_mem_nil, or_false] at hoff
  rcases hoff with rfl | rfl | rfl | rfl | rfl | rfl | rfl | rfl | rfl | rfl | rfl | rfl | rfl | rfl | rfl
  · exact ⟨_, .inl ⟨0, by decide, rfl, rfl⟩⟩
  · exact ⟨_, .inl ⟨799, by decide, rfl, rfl⟩⟩
  · exact ⟨_, .inr (.inl ⟨rfl, rfl⟩)⟩
  · exact ⟨_, .inr (.inr (.inl ⟨rfl, rfl⟩))⟩
  · exact ⟨_, .inr (.inr (.inr (.inl ⟨rfl, rfl⟩)))⟩
  · exact ⟨_, .inr (.inr (.inr (.inr (.inl ⟨rfl, rfl⟩))))⟩
  · exact ⟨_, .inr (.inr (.inr (.inr (.inr (.inl ⟨rfl, rfl⟩)))))⟩
  · exact ⟨_, .inr (.inr (.inr (.inr (.inr (.inr (.inl ⟨rfl, rfl⟩))))))⟩
  · exact ⟨_, .inr (.inr (.inr (.inr (.inr (.inr (.inr (.inl ⟨rfl, rfl⟩)))))))⟩
  · exact ⟨_, .inr (.inr (.inr (.inr (.inr (.inr (.inr (.inr (.inl ⟨0, rfl, rfl⟩))))))))⟩
  · exact ⟨_, .inr (.inr (.inr (.inr (.inr (.inr (.inr (.inr (.inl ⟨4, rfl, rfl⟩))))))))⟩
  · exact ⟨_, .inr (.inr (.inr (.inr (.inr (.inr (.inr (.inr (.inr (.inl ⟨0, rfl, rfl⟩)))))))))⟩
  · exact ⟨_, .inr (.inr (.inr (.inr (.inr (.inr (.inr (.inr (.inr (.inl ⟨7, rfl, rfl⟩)))))))))⟩
  · exact ⟨_, .inr (.inr (.inr (.inr (.inr (.inr (.inr (.inr (.inr (.inr ⟨0, by decide, rfl, rfl⟩)))))))))⟩
  · exact ⟨_, .inr (.inr (.inr (.inr (.inr (.inr (.inr (.inr (.inr (.inr ⟨63, by decide, rfl, rfl⟩)))))))))⟩

/-- STATUS and the last word of WMEM, read while a command runs. -/
theorem witness_reads_while_busy :
    (facing (running boot 0) ⟨.read, 0x1004, 32⟩).busy = true ∧
    (facing (running boot 0) ⟨.read, 0x1004, 32⟩).takes ⟨.read, 0x1004, 32⟩ [] ∧ mappedOffset 0x1004 ∧
    (facing (running boot 0) ⟨.read, 0x0C7C, 32⟩).takes ⟨.read, 0x0C7C, 32⟩ [] ∧ mappedOffset 0x0C7C :=
  ⟨rfl, ⟨true, rfl, .inr rfl⟩, by unfold mappedOffset; decide, ⟨true, rfl, .inr rfl⟩,
    by unfold mappedOffset; decide⟩

/-- A CMD write accepted, and one dropped while a command runs. -/
theorem witness_status_stands_still :
    ((writesCmd active 0).takes ⟨.write 0, 0x1000, 32⟩ [] ∧ (writesCmd active 0).busy = false ∧
      ∃ t, step (writesCmd active 0) = .next t ∧ t.busy = true) ∧
    ((writesCmd (running active 0) 1).busy = true ∧ ¬ (writesCmd (running active 0) 1).runs ∧
      (writesCmd (running active 0) 1).port.head? ≠ some .reset ∧
      ∃ t, step (writesCmd (running active 0) 1) = .next t ∧ t.ovr = true) := by
  obtain ⟨t, h, ht⟩ := next_of_reaches (show reaches (step (writesCmd active 0))
    (fun t => t.busy) = true by decide +kernel)
  obtain ⟨u, g, hu⟩ := next_of_reaches (show reaches (step (writesCmd (running active 0) 1))
    (fun t => t.ovr) = true by decide +kernel)
  refine ⟨⟨⟨true, rfl, .inr rfl⟩, rfl, t, h, ht⟩, rfl, ?_, by simp [writesCmd, facing], u, g, hu⟩
  rintro ⟨-, hn⟩
  exact absurd (hn (.access true ⟨.write 1, 0x1000, 32⟩) rfl) (by decide)

/-- WLEN4 written while START runs, ZIN0 written while LDZ runs. -/
theorem witness_writes_during_a_command :
    (facing (running boot 1) ⟨.write 1204, 0x1030, 32⟩).takes ⟨.write 1204, 0x1030, 32⟩ [] ∧
    (running boot 1).busy = true ∧ (running boot 1).raced = [] ∧
    (∃ t, step (facing (running boot 1) ⟨.write 1204, 0x1030, 32⟩) = .next t ∧
      t.wlen[4] = 1204 ∧ t.raced = [(.wlen 4, 0)]) ∧
    (facing (running active 2) ⟨.write 9, 0x1040, 32⟩).takes ⟨.write 9, 0x1040, 32⟩ [] ∧
    (∃ t, step (facing (running active 2) ⟨.write 9, 0x1040, 32⟩) = .next t ∧
      t.zin[0] = 9 ∧ t.raced = [(.zin 0, 0)]) := by
  obtain ⟨t, h, ht⟩ := next_of_reaches
    (show reaches (step (facing (running boot 1) ⟨.write 1204, 0x1030, 32⟩))
      (fun t => t.wlen[4] = 1204 && t.raced = [(.wlen 4, 0)]) = true by decide +kernel)
  obtain ⟨u, g, hu⟩ := next_of_reaches
    (show reaches (step (facing (running active 2) ⟨.write 9, 0x1040, 32⟩))
      (fun t => t.zin[0] = 9 && t.raced = [(.zin 0, 0)]) = true by decide +kernel)
  exact ⟨⟨true, rfl, .inr rfl⟩, rfl, rfl, ⟨t, h, by simpa using ht⟩, ⟨true, rfl, .inr rfl⟩,
    ⟨u, g, by simpa using hu⟩⟩

/-- The last WMEM word, WLEN4 and ZIN7, written in IDLE, ZIN0 in ACTIVE. -/
theorem witness_host_writes :
    ((facing boot ⟨.write 1, 0x0C7C, 32⟩).takes ⟨.write 1, 4 * (799 : Fin 800), 32⟩ [] ∧
      boot.runstate = .idle) ∧
    (facing boot ⟨.write 1, 0x1030, 32⟩).takes ⟨.write 1, 0x1020 + 4 * (4 : Fin 5), 32⟩ [] ∧
    ((facing boot ⟨.write 1, 0x105C, 32⟩).takes ⟨.write 1, 0x1040 + 4 * (7 : Fin 8), 32⟩ [] ∧
      boot.zv = false) ∧
    ((facing active ⟨.write 1, 0x1040, 32⟩).takes ⟨.write 1, 0x1040 + 4 * (0 : Fin 8), 32⟩ [] ∧
      active.runstate = .active ∧ active.zv = false) :=
  ⟨⟨⟨true, rfl, .inr rfl⟩, rfl⟩, ⟨true, rfl, .inr rfl⟩, ⟨⟨true, rfl, .inr rfl⟩, rfl⟩,
    ⟨true, rfl, .inr rfl⟩, rfl, rfl⟩

/-- A reset while a command runs, and a machine with nothing to do. -/
theorem witness_reset_and_idle :
    { running finished 0 with port := [.reset] }.port = .reset :: [] ∧ boot.port = [] ∧
    boot.busy = false := ⟨rfl, rfl, rfl⟩

end Sys2Proof.Tests
end

section
/-!
What no command touches: WMEM, CROM and the model's record of what is outside the block
(00_scope.md R15, 10_state.md R20, log 17).
-/

namespace Sys2Proof.Machine

/-- t differs from s in registers alone: the memories, and the model's record of the host and of the
free values, are those of s. For an update that names only registers every field is `rfl`, so `{}`
proves it. -/
structure SameSurroundings (s t : State) : Prop where
  wmem : t.wmem = s.wmem := by rfl
  crom : t.crom = s.crom := by rfl
  port : t.port = s.port := by rfl
  rdata : t.rdata = s.rdata := by rfl
  resets : t.resets = s.resets := by rfl
  draws : t.draws = s.draws := by rfl

namespace SameSurroundings

variable {s t : State}

/-- A byte of WMEM depends on the bytes written and on the count of resets alone (log 6, log 7). -/
theorem wmemByte (h : SameSurroundings s t) (a : Nat) : t.wmemByte a = s.wmemByte a :=
  State.wmemByte_congr h.wmem h.resets a

theorem ignoreWord (s : State) : SameSurroundings s s.ignoreWord := by
  constructor <;> simp

theorem clear (s : State) : SameSurroundings s s.clear := by
  constructor <;> simp

/-- A fault after register writes. -/
theorem raise (h : SameSurroundings s t) (cause : Cause) (info cmd : Word) :
    SameSurroundings s (t.raise cause info cmd) := by
  constructor <;> simp [h.wmem, h.crom, h.port, h.rdata, h.resets, h.draws]

/-- The end of a command after register writes. -/
theorem complete (h : SameSurroundings s t) : SameSurroundings s t.complete := by
  constructor <;> simp [h.wmem, h.crom, h.port, h.rdata, h.resets, h.draws]

end SameSurroundings

/-- A command's own effect is one update of registers, then its end; CLR alone ends otherwise. -/
theorem Completes.sameSurroundings {i : Instr} {s t : State} (h : Completes i s t) :
    SameSurroundings s t := by
  cases i
  case nop =>
    obtain ⟨-, rfl⟩ := h
    exact .complete {}
  case start =>
    obtain ⟨-, -, rfl⟩ := h
    exact .complete {}
  case ldz =>
    obtain ⟨-, -, z, cf, rfl⟩ := h
    exact .complete {}
  case ladder =>
    obtain ⟨-, -, -, pl, rfl⟩ := h
    exact .complete {}
  case acc sel =>
    obtain ⟨src, -, -, -, -, v, rfl⟩ := h
    exact .complete {}
  case red sel =>
    obtain ⟨src, -, -, -, v, cf, rfl⟩ := h
    exact .complete {}
  case chk sel =>
    obtain ⟨j, -, -, -, -, -, -, -, rfl⟩ := h
    exact .complete {}
  case canon sel =>
    obtain ⟨p, -, -, -, v, rfl⟩ := h
    exact .complete {}
  case subx =>
    obtain ⟨-, -, -, -, d, rfl⟩ := h
    exact .complete {}
  case fred =>
    obtain ⟨-, -, -, r, cf, rfl⟩ := h
    exact .complete {}
  case fin =>
    obtain ⟨-, -, -, -, rfl⟩ := h
    exact .complete {}
  case clr =>
    obtain rfl : t = s.clear := h
    exact .clear s

/-- Ignored, rejected (SUBX and CANON may write registers first) or completed, a command changes
registers alone. -/
theorem exec_sameSurroundings {i : Instr} {s t : State} (h : exec i s = .next t) :
    SameSurroundings s t := by
  by_cases ht : s.runstate.terminal = false
  · rcases exec_live h ht with ⟨cause, info, rfl⟩ | ⟨-, -, -, d, cf, info, rfl⟩ |
      ⟨sel, p, -, -, -, -, carry, info, rfl⟩ | hc
    · apply SameSurroundings.raise {}
    · apply SameSurroundings.raise {}
    · apply SameSurroundings.raise {}
    · exact hc.sameSurroundings
  · by_cases hi : i = .clr
    · subst hi
      obtain rfl : s.clear = t := by injection h
      exact .clear s
    · rw [exec_terminal hi (by simpa using ht)] at h
      obtain rfl : s.ignoreWord = t := by injection h
      exact .ignoreWord s

/-- Settles O27: the bytes of WMEM, CROM, the host's events and the word last read are among the
surroundings that every command keeps. -/
theorem noCommandWritesMemory : Obligations.NoCommandWritesMemory := by
  intro i s t h
  have hs : SameSurroundings s t := exec_sameSurroundings h
  exact ⟨hs.wmemByte, hs.crom, hs.port, hs.rdata⟩

end Sys2Proof.Machine
end

section
/-!
The decoder's fields (30_encoding.md R68, R70): a word that decodes is the encoding of its command, so
the ECMD of a fault is the word the host wrote (log 14).
-/

namespace Sys2Proof

/-- A word is its three fields, from the top down (30_encoding.md R68). -/
theorem fields_append (w : Word) : zeroField w ++ selField w ++ opField w = w := by
  have hhigh : zeroField w ++ selField w = w.extractLsb' 8 24 :=
    BitVec.extractLsb'_append_extractLsb'_eq_extractLsb' rfl
  rw [hhigh]
  exact BitVec.extractLsb'_append_extractLsb' (w := 24) (len := 8)

theorem formatN_ok {sel : BitVec 3} {i j : Instr} (h : formatN sel i = .ok j) : sel = 0 ∧ j = i := by
  unfold formatN at h
  split at h
  · exact ⟨‹_›, by injection h with h; exact h.symm⟩
  · cases h

theorem formatS_ok {sel : BitVec 3} {limit : Nat} {i : BitVec 3 → Instr} {j : Instr}
    (h : formatS sel limit i = .ok j) : j = i sel := by
  unfold formatS at h
  split at h
  · injection h with h
    exact h.symm
  · cases h

/-- The fields of a word that decodes are those of its command (30_encoding.md R68, R70). -/
theorem fields_of_decode {w : Word} {i : Instr} (h : decode w = .ok i) :
    zeroField w = 0 ∧ selField w = i.selector ∧ opField w = i.opcode := by
  unfold decode at h
  split at h
  · cases h
  · rename_i hz
    refine ⟨by simpa using hz, ?_⟩
    dsimp only at h
    split at h
    case h_5 hop | h_6 hop | h_7 hop | h_8 hop =>
      obtain rfl := formatS_ok h
      exact ⟨rfl, BitVec.eq_of_toNat_eq hop⟩
    case h_13 => cases h
    all_goals
      rename_i hop
      obtain ⟨hsel, rfl⟩ := formatN_ok h
      exact ⟨hsel, BitVec.eq_of_toNat_eq hop⟩

/-- A word that decodes is the word of its command (30_encoding.md R68, R70). -/
theorem encode_of_decode {w : Word} {i : Instr} (h : decode w = .ok i) : encode i = w := by
  obtain ⟨hz, hs, ho⟩ := fields_of_decode h
  rw [encode, ← hs, ← ho]
  calc 0#21 ++ selField w ++ opField w = zeroField w ++ selField w ++ opField w := by rw [hz]; rfl
    _ = w := fields_append w

end Sys2Proof
end

section
/-!
What a command can answer, in three outcomes (30_encoding.md R72, 60_exceptions.md R116, R117): ignored,
rejected after the writes that a fault leaves, or completed. And what a step can do, in the words of the
statements.
-/

namespace Sys2Proof.Machine

/-- The registers that command i has written when it faults: SUBX has written D and CF, CANON has
CAN[t] and CARRY, every other command nothing (60_exceptions.md R117). -/
def WritesBeforeFault (i : Instr) (s u : State) : Prop :=
  u = s ∨
  (i = .subx ∧ s.dv = false ∧ ∃ d cf, u = { s with d := d, cf := cf }) ∨
  (∃ p : Product, s.canv[p.index] = false ∧ ∃ carry,
    u = { s with can := s.can.set p.index none, carry := carry })

/-- The three outcomes of a command. -/
theorem exec_outcomes {i : Instr} {s t : State} (h : exec i s = .next t) :
    (i ≠ .clr ∧ s.runstate.terminal = true ∧ t = s.ignoreWord) ∨
    (i ≠ .clr ∧ s.runstate.terminal = false ∧ ∃ u cause info,
      WritesBeforeFault i s u ∧ t = u.raise cause info (encode i)) ∨
    Completes i s t := by
  by_cases hi : i = .clr
  · subst hi
    injection h with h
    exact .inr (.inr h.symm)
  cases ht : s.runstate.terminal
  case true =>
    rw [exec_terminal hi ht] at h
    injection h with h
    exact .inl ⟨hi, rfl, h.symm⟩
  case false =>
    rcases exec_live h ht with ⟨cause, info, h⟩ | ⟨hi', -, hd, d, cf, info, h⟩ |
      ⟨sel, p, -, -, -, hc, carry, info, h⟩ | h
    · exact .inr (.inl ⟨hi, rfl, s, cause, info, .inl rfl, h⟩)
    · exact .inr (.inl ⟨hi, rfl, _, _, _, .inr (.inl ⟨hi', hd, d, cf, rfl⟩), h⟩)
    · exact .inr (.inl ⟨hi, rfl, _, _, _, .inr (.inr ⟨p, hc, carry, rfl⟩), h⟩)
    · exact .inr (.inr h)

/-- The three outcomes of the word that runs; ECMD after a fault is that word. A word that does not decode has
written nothing before its fault, whichever command is named. -/
theorem runCommand_outcomes {s t : State} (h : runCommand s = .next t) :
    (s.runstate.terminal = true ∧ t = s.ignoreWord) ∨
    (s.runstate.terminal = false ∧ ∃ i u cause info,
      WritesBeforeFault i s u ∧ t = u.raise cause info s.cmd) ∨
    (∃ i, decode s.cmd = .ok i ∧ exec i s = .next t ∧ Completes i s t) := by
  rcases runCommand_cases h with ⟨i, hi, he⟩ | ⟨e, -, rfl⟩
  · rcases exec_outcomes he with ⟨-, ht, h⟩ | ⟨-, ht, u, cause, info, hu, h⟩ | hc
    · exact .inl ⟨ht, h⟩
    · exact .inr (.inl ⟨ht, i, u, cause, info, hu, by rw [h, encode_of_decode hi]⟩)
    · exact .inr (.inr ⟨i, hi, he, hc⟩)
  · cases ht : s.runstate.terminal
    case true => exact .inl ⟨rfl, illegalCommand_terminal ht⟩
    case false => exact .inr (.inl ⟨rfl, .nop, s, _, _, .inl rfl, illegalCommand_live ht⟩)

/-- Everything that one step can do: wait, reset, take an access, or run the accepted word. -/
theorem step_outcomes {s t : State} (h : step s = .next t) :
    t = s ∨
    (∃ rest, s.port = .reset :: rest ∧ t = State.platformReset { s with port := rest }) ∨
    (∃ a rest, s.takes a rest ∧ t = State.hostAccess { s with port := rest } a) ∨
    (s.runs ∧ runCommand s = .next t) := by
  rcases step_cases h with ⟨-, -, h⟩ | h | ⟨wb, a, rest, hp, hb, h⟩ | ⟨hb, hn, h⟩
  · exact .inl h
  · exact .inr (.inl h)
  · exact .inr (.inr (.inl ⟨a, rest, ⟨wb, hp, hb⟩, h⟩))
  · exact .inr (.inr (.inr ⟨⟨hb, hn⟩, h⟩))

/-- An access that is taken is taken off the port and has its effect (20_memory.md R60). -/
theorem step_takes {s : State} {a : HostAccess} {rest : List PortEvent} (h : s.takes a rest) :
    step s = .next (State.hostAccess { s with port := rest } a) := by
  obtain ⟨wb, hp, hb⟩ := h
  unfold step
  rcases hb with hb | hb <;> simp [hp, hb]

/-- The step that runs the accepted word. -/
theorem step_of_runs {s : State} (h : s.runs) : step s = runCommand s := step_runs h.1 h.2

/-- Writes of data registers alone leave control as it is. -/
theorem WritesBeforeFault.control {i : Instr} {s u : State} (h : WritesBeforeFault i s u) :
    u.runstate = s.runstate ∧ u.pc = s.pc ∧ u.ovr = s.ovr ∧ u.berr = s.berr ∧ u.port = s.port := by
  rcases h with rfl | ⟨-, -, d, cf, rfl⟩ | ⟨p, -, carry, rfl⟩ <;> exact ⟨rfl, rfl, rfl, rfl, rfl⟩

/-! ## CF, RUNSTATE, BUSY (10_state.md R23, R24, R26) -/

/-- LDZ, RED, SUBX and FRED (10_state.md R26). -/
def WritesCf (i : Instr) : Prop := i = .ldz ∨ (∃ sel, i = .red sel) ∨ i = .subx ∨ i = .fred

/-- What the end of a command other than CLR leaves of the control registers: BUSY = 0, the fault record,
OVR and BERR as before, CF written by four commands alone, RUNSTATE by START and FIN alone. Where the
update names none of these fields each clause is `rfl`, so `{}` proves it. -/
structure KeepsControl (i : Instr) (s t : State) : Prop where
  busy : t.busy = false := by rfl
  raced : t.raced = [] := by rfl
  err : t.err = s.err := by rfl
  record : t.errinfo = s.errinfo ∧ t.epc = s.epc ∧ t.ecmd = s.ecmd := by exact ⟨rfl, rfl, rfl⟩
  ovr : t.ovr = s.ovr := by rfl
  berr : t.berr = s.berr := by rfl
  cf : WritesCf i ∨ t.cf = s.cf := by exact .inr rfl
  runstate : t.runstate = s.runstate ∨
    (i = .start ∧ s.runstate = .idle ∧ t.runstate = .active) ∨
    (i = .fin ∧ s.runstate = .active ∧ t.runstate = .accept) := by exact .inl rfl

/-- A command that completes restarts the machine, or keeps control. -/
theorem Completes.control {i : Instr} {s t : State} (h : Completes i s t) :
    (i = .clr ∧ t = s.clear) ∨ (i ≠ .clr ∧ KeepsControl i s t) := by
  cases i
  case clr => exact .inl ⟨rfl, h⟩
  all_goals refine .inr ⟨by simp, ?_⟩
  case nop =>
    obtain ⟨-, rfl⟩ := h
    exact {}
  case start =>
    obtain ⟨hr, -, rfl⟩ := h
    exact { runstate := .inr (.inl ⟨rfl, hr, rfl⟩) }
  case ldz =>
    obtain ⟨-, -, z, cf, rfl⟩ := h
    exact { cf := .inl (.inl rfl) }
  case ladder =>
    obtain ⟨-, -, -, pl, rfl⟩ := h
    exact {}
  case acc sel =>
    obtain ⟨src, -, -, -, -, v, rfl⟩ := h
    exact {}
  case red sel =>
    obtain ⟨src, -, -, -, v, cf, rfl⟩ := h
    exact { cf := .inl (.inr (.inl ⟨sel, rfl⟩)) }
  case chk sel =>
    obtain ⟨j, -, -, -, -, -, -, -, rfl⟩ := h
    exact {}
  case canon sel =>
    obtain ⟨p, -, -, -, v, rfl⟩ := h
    exact {}
  case subx =>
    obtain ⟨-, -, -, -, d, rfl⟩ := h
    exact { cf := .inl (.inr (.inr (.inl rfl))) }
  case fred =>
    obtain ⟨-, -, -, r, cf, rfl⟩ := h
    exact { cf := .inl (.inr (.inr (.inr rfl))) }
  case fin =>
    obtain ⟨hr, -, -, -, rfl⟩ := h
    exact { runstate := .inr (.inr ⟨rfl, hr, rfl⟩) }

/-- Settles O28: neither a fault nor the end of one of the other commands touches CF. -/
theorem onlyFourCommandsWriteCf : Obligations.OnlyFourCommandsWriteCf := by
  intro i s t h hw
  rcases exec_outcomes h with ⟨hi, -, rfl⟩ | ⟨hi, -, u, cause, info, hu, rfl⟩ | hc
  · rw [if_neg hi]
    rfl
  · rw [if_neg hi]
    rcases hu with rfl | ⟨rfl, -⟩ | ⟨p, -, carry, rfl⟩
    · rfl
    · exact absurd (.inr (.inr (.inl rfl))) hw
    · rfl
  · rcases hc.control with ⟨rfl, rfl⟩ | ⟨hi, hk⟩
    · rfl
    · rw [if_neg hi]
      exact hk.cf.resolve_left hw

theorem live_iff {s : State} :
    s.runstate.terminal = false ↔ s.runstate = .idle ∨ s.runstate = .active := by
  cases s.runstate <;> simp [RunState.terminal]

/-- Settles O30: of the outcomes of a step, only a fault, START, FIN, CLR and reset write RUNSTATE. -/
theorem runStateChangesOnlyAsAllowed : Obligations.RunStateChangesOnlyAsAllowed := by
  refine ⟨rfl, rfl, rfl, rfl, rfl, fun s t h => ?_⟩
  rcases step_outcomes h with rfl | ⟨rest, hp, rfl⟩ | ⟨a, rest, -, rfl⟩ | ⟨hruns, hr⟩
  · exact .inl rfl
  · exact .inr (.inr (.inr (.inr ⟨rfl, .inr (by rw [hp]; rfl)⟩)))
  · exact .inl (by rw [hostAccess_eq])
  · rcases runCommand_outcomes hr with ⟨-, rfl⟩ | ⟨hl, i, u, cause, info, -, rfl⟩ | ⟨i, hi, -, hc⟩
    · exact .inl rfl
    · exact .inr (.inr (.inr (.inl ⟨live_iff.mp hl, rfl, hruns, u, cause, info, rfl⟩)))
    · rcases hc.control with ⟨rfl, rfl⟩ | ⟨-, hk⟩
      · exact .inr (.inr (.inr (.inr ⟨rfl, .inl ⟨hruns, hi⟩⟩)))
      · rcases hk.runstate with hsame | ⟨rfl, hidle, hact⟩ | ⟨rfl, hact, hacc⟩
        · exact .inl hsame
        · exact .inr (.inl ⟨hidle, hact, hruns, hi⟩)
        · exact .inr (.inr (.inl ⟨hact, hacc, hruns, hi⟩))

/-- Settles O31: a step into ACCEPT is FIN's own effect. -/
theorem acceptOnlyByFin : Obligations.AcceptOnlyByFin := by
  intro s t h hs ht
  rcases step_outcomes h with rfl | ⟨rest, hp, rfl⟩ | ⟨a, rest, -, rfl⟩ | ⟨hruns, hr⟩
  · exact absurd ht hs
  · cases ht
  · rw [hostAccess_eq] at ht
    exact absurd ht hs
  · rcases runCommand_outcomes hr with ⟨-, rfl⟩ | ⟨-, i, u, cause, info, -, rfl⟩ | ⟨i, hi, -, hc⟩
    · exact absurd ht hs
    · cases ht
    · rcases hc.control with ⟨-, rfl⟩ | ⟨-, hk⟩
      · cases ht
      · rcases hk.runstate with hsame | ⟨-, -, hact⟩ | ⟨rfl, -, -⟩
        · exact absurd (hsame ▸ ht) hs
        · rw [ht] at hact
          cases hact
        · obtain ⟨hact, h0, h1, hrv, rfl⟩ := hc
          exact ⟨hruns, hi, hact, h0, h1, hrv, rfl⟩

/-- Settles O37: every outcome of the running word ends with BUSY = 0 and leaves the port alone. -/
theorem busyFallsWhenTheCommandEnds : Obligations.BusyFallsWhenTheCommandEnds := by
  intro s t hruns h
  rw [step_of_runs hruns] at h
  rcases runCommand_outcomes h with ⟨-, rfl⟩ | ⟨-, i, u, cause, info, hu, rfl⟩ | ⟨i, -, he, hc⟩
  · exact ⟨rfl, rfl⟩
  · obtain ⟨-, -, -, -, hport⟩ := hu.control
    exact ⟨rfl, hport⟩
  · refine ⟨?_, (exec_sameSurroundings he).port⟩
    rcases hc.control with ⟨-, rfl⟩ | ⟨-, hk⟩
    · rfl
    · exact hk.busy

/-! ## Progress (10_state.md R22, R29) -/

/-- No flag goes back, and a datum whose flag is set stays. Where an update leaves a flag and its datum
alone the clause is `rfl`. -/
structure KeepsProgress (s t : State) : Prop where
  challenge : s.zv = true → t.zv = true ∧ t.z = s.z := by exact fun h => ⟨h, rfl⟩
  ladder : s.plv = true → t.plv = true ∧ t.pl = s.pl := by exact fun h => ⟨h, rfl⟩
  raw : ∀ src : Source, s.ckst[src.index] = .raw → t.ckst[src.index] = .reduced ∨
    (t.ckst[src.index] = .raw ∧ t.ck[src.index] = s.ck[src.index]) := by
      exact fun _ h => .inr ⟨h, rfl⟩
  reduced : ∀ src : Source, s.ckst[src.index] = .reduced →
    t.ckst[src.index] = .reduced ∧ t.ck[src.index] = s.ck[src.index] := by
      exact fun _ h => ⟨h, rfl⟩
  identity : ∀ j : Identity, s.chkok[j.index] = true → t.chkok[j.index] = true := by
    exact fun _ h => h
  canonical : ∀ p : Product, s.canv[p.index] = true →
    t.canv[p.index] = true ∧ t.can[p.index] = s.can[p.index] := by exact fun _ h => ⟨h, rfl⟩
  difference : s.dv = true → t.dv = true ∧ t.d = s.d := by exact fun h => ⟨h, rfl⟩
  remainder : s.rv = true → t.rv = true ∧ t.r = s.r := by exact fun h => ⟨h, rfl⟩

/-- A write of CK[src] keeps the checksums of the other sources, and of src if that was not yet there. -/
theorem keepsProgress_putChecksum {s : State} {src : Source} {v : Nat} {stage : ChecksumState}
    (h : s.ckst[src.index] = .empty ∨ (s.ckst[src.index] = .raw ∧ stage = .reduced)) :
    KeepsProgress s (s.putChecksum src v stage) where
  raw other ho := by
    simp only [State.putChecksum_ckst, State.putChecksum_ck, Source.getElem_set]
    split
    · subst other
      rcases h with h | ⟨-, rfl⟩
      · simp [h] at ho
      · exact .inl rfl
    · exact .inr ⟨ho, rfl⟩
  reduced other ho := by
    simp only [State.putChecksum_ckst, State.putChecksum_ck, Source.getElem_set]
    split
    · subst other
      rcases h with h | ⟨h, -⟩ <;> simp [h] at ho
    · exact ⟨ho, rfl⟩

/-- A fault keeps the progress: what SUBX and CANON have written had no flag. -/
theorem WritesBeforeFault.keepsProgress {i : Instr} {s u : State} (h : WritesBeforeFault i s u)
    (cause : Cause) (info cmd : Word) : KeepsProgress s (u.raise cause info cmd) := by
  rcases h with rfl | ⟨-, hd, d, cf, rfl⟩ | ⟨p, hp, carry, rfl⟩
  · exact {}
  · exact { difference := fun h => by simp [hd] at h }
  · refine { canonical := fun q hq => ⟨hq, ?_⟩ }
    have hne : p ≠ q := by
      rintro rfl
      simp [hp] at hq
    exact (Product.getElem_set s.can p q none).trans (if_neg hne)

/-- Each command requires the flag of what it writes to be clear. -/
theorem Completes.keepsProgress {i : Instr} {s t : State} (h : Completes i s t) (hi : i ≠ .clr) :
    KeepsProgress s t := by
  cases i
  case clr => exact absurd rfl hi
  case nop =>
    obtain ⟨-, rfl⟩ := h
    exact {}
  case start =>
    obtain ⟨-, -, rfl⟩ := h
    exact {}
  case fin =>
    obtain ⟨-, -, -, -, rfl⟩ := h
    exact {}
  case ldz =>
    obtain ⟨-, hz, z, cf, rfl⟩ := h
    exact { challenge := fun h => by simp [hz] at h }
  case ladder =>
    obtain ⟨-, -, hp, pl, rfl⟩ := h
    exact { ladder := fun h => by simp [hp] at h }
  case acc sel =>
    obtain ⟨src, -, -, -, hk, v, rfl⟩ := h
    have hput := keepsProgress_putChecksum (v := v) (stage := .raw) (.inl hk)
    exact { raw := hput.raw, reduced := hput.reduced }
  case red sel =>
    obtain ⟨src, -, -, hk, v, cf, rfl⟩ := h
    have hput := keepsProgress_putChecksum (v := v) (.inr ⟨hk, rfl⟩)
    exact { raw := hput.raw, reduced := hput.reduced }
  case chk sel =>
    obtain ⟨j, -, -, -, -, -, -, -, rfl⟩ := h
    refine { identity := fun k hk => ?_ }
    refine (Identity.getElem_set s.chkok j k true).trans ?_
    rw [hk, ite_self]
  case canon sel =>
    obtain ⟨p, -, -, hp, v, rfl⟩ := h
    refine { canonical := fun q hq => ?_ }
    have hne : p ≠ q := by
      rintro rfl
      simp [hp] at hq
    exact ⟨(Product.getElem_set s.canv p q true).trans ((if_neg hne).trans hq),
      (Product.getElem_set s.can p q (some v)).trans (if_neg hne)⟩
  case subx =>
    obtain ⟨-, -, -, hd, d, rfl⟩ := h
    exact { difference := fun h => by simp [hd] at h }
  case fred =>
    obtain ⟨-, -, hr, r, cf, rfl⟩ := h
    exact { remainder := fun h => by simp [hr] at h }

/-- A host access writes no flag and no datum of a run. -/
theorem keepsProgress_hostAccess (s : State) (rest : List PortEvent) (a : HostAccess) :
    KeepsProgress s (State.hostAccess { s with port := rest } a) := by
  rw [hostAccess_eq]
  exact {}

/-- Every step but CLR and reset keeps the progress. -/
theorem step_keepsProgress {s t : State} (h : step s = .next t) (hs : ¬ s.restarts) :
    KeepsProgress s t := by
  rcases step_outcomes h with rfl | ⟨rest, hp, -⟩ | ⟨a, rest, -, rfl⟩ | ⟨hruns, hr⟩
  · exact {}
  · exact absurd (.inr (by rw [hp]; rfl)) hs
  · exact keepsProgress_hostAccess s rest a
  · rcases runCommand_outcomes hr with ⟨-, rfl⟩ | ⟨-, i, u, cause, info, hu, rfl⟩ | ⟨i, hi, -, hc⟩
    · exact {}
    · exact hu.keepsProgress cause info s.cmd
    · refine hc.keepsProgress ?_
      rintro rfl
      exact hs (.inl ⟨hruns, hi⟩)

/-- Settles O33: the clauses are those of `KeepsProgress`. -/
theorem progressNeverGoesBack : Obligations.ProgressNeverGoesBack := by
  intro s t h hs
  have hk : KeepsProgress s t := step_keepsProgress h hs
  refine ⟨hk.challenge, hk.ladder, hk.reduced, fun src hraw => ?_, hk.identity, hk.canonical,
    hk.difference, hk.remainder⟩
  rcases hk.raw src hraw with h | ⟨h, -⟩ <;> simp [h]

end Sys2Proof.Machine
end

section
/-!
The host port (10_state.md R42, R45, 20_memory.md R54, R55): which accesses are refused, what a performed
one does, and what OVR and BERR say of it.
-/

namespace Sys2Proof.Machine

theorem PortReg.offset_aligned (reg : PortReg) : reg.offset % 4 = 0 := by
  cases reg <;> simp only [PortReg.offset] <;> omega

/-- A write to a register that the host may not write now is one of the last three rows of
20_memory.md R55. -/
theorem refuses_write {s : State} {reg : PortReg} (v : Word) (hc : reg ≠ .cmd)
    (hw : s.writable reg = false) : s.Refuses ⟨.write v, reg.offset, 32⟩ := by
  refine .inr (.inr ?_)
  cases reg with
  | cmd => exact absurd rfl hc
  | wmem k =>
    exact .inr (.inl ⟨by simp, .inl (by simp only [PortReg.offset]; omega),
      by simpa [State.writable] using hw⟩)
  | wlen k =>
    exact .inr (.inl ⟨by simp, .inr (by simp only [PortReg.offset]; omega),
      by simpa [State.writable] using hw⟩)
  | zin k =>
    refine .inr (.inr ⟨by simp, by simp only [PortReg.offset]; omega, ?_⟩)
    cases hr : s.runstate <;> simp [State.writable, hr, RunState.terminal] at hw ⊢ <;> exact hw
  | res k => exact .inl ⟨by simp, .inr (by simp only [PortReg.offset]; omega)⟩
  | _ => exact .inl ⟨by simp, .inl (by simp only [PortReg.offset]; omega)⟩

/-- Everything that one host access can do, with the access it is: refused for one of the rows of
20_memory.md R55, a read, a command word, or a store. -/
theorem hostAccess_outcomes (s : State) (a : HostAccess) :
    (s.Refuses a ∧ s.hostAccess a = s.refuseAccess a.kind) ∨
    (∃ reg : PortReg, a = ⟨.read, reg.offset, 32⟩ ∧ s.hostAccess a = s.readReg reg) ∨
    (∃ v, a = ⟨.write v, 0x1000, 32⟩ ∧ s.hostAccess a = s.writeCmd v) ∨
    (∃ (reg : PortReg) (v : Word), a = ⟨.write v, reg.offset, 32⟩ ∧ s.writable reg = true ∧
      s.hostAccess a = s.storeReg reg v) := by
  obtain ⟨kind, off, width⟩ := a
  unfold State.hostAccess
  split
  case isFalse hshape => exact .inl ⟨.inr (.inl (by dsimp only at *; omega)), rfl⟩
  case isTrue hshape =>
    obtain ⟨rfl, h4⟩ := hshape
    dsimp only at *
    cases hreg : portReg off with
    | none =>
      refine .inl ⟨.inl fun hm => ?_, rfl⟩
      simpa [hreg] using (portReg_isSome h4).mpr hm
    | some reg =>
      obtain rfl := offset_of_portReg h4 hreg
      cases kind with
      | read => exact .inr (.inl ⟨reg, rfl, rfl⟩)
      | write v =>
        by_cases hc : reg = .cmd
        · subst hc
          exact .inr (.inr (.inl ⟨v, rfl, rfl⟩))
        cases hw : s.writable reg with
        | false => exact .inl ⟨refuses_write v hc hw, by simp [State.writeReg, hc, hw]⟩
        | true =>
          exact .inr (.inr (.inr ⟨reg, v, rfl, hw, by simp [State.writeReg, hc, hw]⟩))

/-! ## OVR and BERR (10_state.md R27) -/

@[simp] theorem readReg_flags (s : State) (reg : PortReg) :
    (s.readReg reg).ovr = s.ovr ∧ (s.readReg reg).berr = s.berr := by
  unfold State.readReg
  split <;> exact ⟨rfl, rfl⟩

@[simp] theorem refuseAccess_flags (s : State) (kind : AccessKind) :
    (s.refuseAccess kind).ovr = s.ovr ∧ (s.refuseAccess kind).berr = true := by
  cases kind <;> exact ⟨rfl, rfl⟩

@[simp] theorem storeReg_flags (s : State) (reg : PortReg) (v : Word) :
    (s.storeReg reg v).ovr = s.ovr ∧ (s.storeReg reg v).berr = s.berr := by
  rw [storeReg_eq]
  exact ⟨rfl, rfl⟩

/-- A word written to CMD sets OVR exactly when a command runs, and leaves BERR. -/
@[simp] theorem writeCmd_flags (s : State) (w : Word) :
    (s.writeCmd w).ovr = (s.busy || s.ovr) ∧ (s.writeCmd w).berr = s.berr := by
  unfold State.writeCmd
  cases s.busy
  · simp only [Bool.false_eq_true, if_false]
    split <;> exact ⟨rfl, rfl⟩
  · exact ⟨rfl, rfl⟩

/-- What one access does to the two flags. -/
theorem hostAccess_flags (s : State) (a : HostAccess) :
    (s.ovr = true → (s.hostAccess a).ovr = true) ∧ (s.berr = true → (s.hostAccess a).berr = true) ∧
    (s.ovr = false → (s.hostAccess a).ovr = true → s.busy = true ∧ ∃ w, a = ⟨.write w, 0x1000, 32⟩) ∧
    (s.berr = false → (s.hostAccess a).berr = true → s.Refuses a) := by
  rcases hostAccess_outcomes s a with ⟨hr, h⟩ | ⟨reg, -, h⟩ | ⟨w, ha, h⟩ | ⟨reg, v, -, -, h⟩ <;> rw [h]
  · exact ⟨by simp, by simp, by simp +contextual, fun _ _ => hr⟩
  · exact ⟨by simp, by simp, by simp +contextual, by simp +contextual⟩
  · exact ⟨by simp +contextual, by simp, fun h0 h1 => ⟨by simpa [h0] using h1, w, ha⟩,
      by simp +contextual⟩
  · exact ⟨by simp, by simp, by simp +contextual, by simp +contextual⟩

/-- A running word other than CLR leaves OVR and BERR. -/
theorem runCommand_flags {s t : State} (h : runCommand s = .next t) (hi : decode s.cmd ≠ .ok .clr) :
    t.ovr = s.ovr ∧ t.berr = s.berr := by
  rcases runCommand_outcomes h with ⟨-, rfl⟩ | ⟨-, i, u, cause, info, hu, rfl⟩ | ⟨i, hd, -, hc⟩
  · exact ⟨rfl, rfl⟩
  · obtain ⟨-, -, hovr, hberr, -⟩ := hu.control
    exact ⟨hovr, hberr⟩
  · rcases hc.control with ⟨rfl, -⟩ | ⟨-, hk⟩
    · exact absurd hd hi
    · exact ⟨hk.ovr, hk.berr⟩

/-- Settles O36: between restarts only an access changes the flags, as `hostAccess_flags` says. -/
theorem portFlagsAreSticky : Obligations.PortFlagsAreSticky := by
  intro s t h hs
  rcases step_outcomes h with rfl | ⟨rest, hp, -⟩ | ⟨a, rest, ht, rfl⟩ | ⟨hruns, hr⟩
  · exact ⟨id, id, by simp +contextual, by simp +contextual⟩
  · exact absurd (.inr (by rw [hp]; rfl)) hs
  · obtain ⟨hovr, hberr, hnew, href⟩ := hostAccess_flags { s with port := rest } a
    refine ⟨hovr, hberr, fun h0 h1 => ?_, fun h0 h1 => ⟨a, rest, ht, href h0 h1⟩⟩
    obtain ⟨hb, w, rfl⟩ := hnew h0 h1
    exact ⟨hb, w, rest, ht⟩
  · obtain ⟨hovr, hberr⟩ := runCommand_flags hr fun hi => hs (.inl ⟨hruns, hi⟩)
    rw [hovr, hberr]
    exact ⟨id, id, by simp +contextual, by simp +contextual⟩

/-! ## Reads (10_state.md R42, R45, 20_memory.md R57) -/

/-- Fields one above the other, as a number. -/
theorem toNat_append_eq_add {n m : Nat} (x : BitVec n) (y : BitVec m) :
    (x ++ y).toNat = x.toNat * 2 ^ m + y.toNat := by
  rw [BitVec.toNat_append, ← Nat.shiftLeft_add_eq_or_of_lt y.isLt, Nat.shiftLeft_eq]

/-- A word of WMEM is its four bytes, the first in the low bits (20_memory.md R50). -/
theorem memRead_four (s : State) (a : Nat) :
    BitVec.ofNat 32 (s.memRead a 4) =
      s.wmemByte (a + 3) ++ s.wmemByte (a + 2) ++ s.wmemByte (a + 1) ++ s.wmemByte a := by
  apply BitVec.eq_of_toNat_eq
  have hlt : s.memRead a 4 < 2 ^ 32 := ofBytes_lt _ 4
  rw [BitVec.toNat_ofNat, Nat.mod_eq_of_lt hlt]
  simp only [State.memRead, ofBytes, toNat_append_eq_add, Nat.add_zero]
  ring

/-- What an offset shows is what the register at that offset holds. -/
theorem regValue_of_shows {s : State} {off : Nat} {v : Word} (h : s.Shows off v) :
    ∃ reg : PortReg, off = reg.offset ∧ v = s.regValue reg := by
  rcases h with ⟨k, hk, rfl, rfl⟩ | ⟨rfl, rfl⟩ | ⟨rfl, rfl⟩ | ⟨rfl, rfl⟩ | ⟨rfl, rfl⟩ | ⟨rfl, rfl⟩ |
    ⟨rfl, rfl⟩ | ⟨rfl, rfl⟩ | ⟨k, rfl, rfl⟩ | ⟨k, rfl, rfl⟩ | ⟨k, hk, rfl, rfl⟩
  · exact ⟨.wmem ⟨k, hk⟩, rfl, (memRead_four s (4 * k)).symm⟩
  · exact ⟨.cmd, rfl, rfl⟩
  · exact ⟨.status, rfl, rfl⟩
  · exact ⟨.progress, rfl, rfl⟩
  · exact ⟨.pc, rfl, rfl⟩
  · exact ⟨.errinfo, rfl, rfl⟩
  · exact ⟨.epc, rfl, rfl⟩
  · exact ⟨.ecmd, rfl, rfl⟩
  · exact ⟨.wlen k, rfl, rfl⟩
  · exact ⟨.zin k, rfl, rfl⟩
  · refine ⟨.res ⟨k, hk⟩, rfl, ?_⟩
    cases hr : s.runstate <;> simp [State.regValue, State.resWord, wordAt, hr]

/-- The events to come are in no register. -/
theorem regValue_port (s : State) (rest : List PortEvent) (reg : PortReg) :
    State.regValue { s with port := rest } reg = s.regValue reg := by
  cases reg <;> rfl

/-- With no command running a read of a register returns what it holds, with no other effect. -/
theorem hostAccess_read {s : State} (hb : s.busy = false) (reg : PortReg) :
    s.hostAccess ⟨.read, reg.offset, 32⟩ = { s with rdata := s.regValue reg } := by
  simp [State.hostAccess, PortReg.offset_aligned, portReg_offset, State.readReg, hb]

/-- Settles O40: the access is taken, and what is shown is the register's value. -/
theorem hostReadsShowTheRegisters : Obligations.HostReadsShowTheRegisters := by
  intro s off v rest hb ht hv
  obtain ⟨reg, rfl, rfl⟩ := regValue_of_shows hv
  rw [step_takes ht, hostAccess_read (s := { s with port := rest }) hb, regValue_port]

end Sys2Proof.Machine
end

section
/-!
The packed registers and the bytes of CROM (10_state.md R41, R43, R44).
-/

namespace Sys2Proof.Machine

/-! ## STATUS and PROGRESS

`extractLsb'_append_eq_of_le` passes by the fields below, `extractLsb'_append_eq_of_add_le` by those above;
the widths must stay sums (no `Nat.reduceAdd`) for them to apply. -/

/-- Settles O43: STATUS is its fields, one above the other. -/
theorem statusLayout : Obligations.StatusLayout := by
  refine ⟨by decide, fun s => ?_⟩
  unfold State.statusWord State.shownOvr State.shownBerr
  simp [-Nat.reduceAdd, -BitVec.getLsbD_eq_getElem, BitVec.getLsbD_append,
    BitVec.extractLsb'_append_eq_of_add_le, BitVec.extractLsb'_append_eq_of_le]

/-- Where CKST[s] stands in PROGRESS (10_state.md R44). -/
theorem progressWord_ckst (s : State) (src : Source) :
    s.progressWord.extractLsb' (2 + 2 * src.index) 2 = s.ckst[src.index].code := by
  unfold State.progressWord
  cases src <;> simp [-Nat.reduceAdd, Source.index, BitVec.extractLsb'_append_eq_of_add_le,
    BitVec.extractLsb'_append_eq_of_le]

/-- Where CHKOK[j] stands in PROGRESS (10_state.md R44). -/
theorem progressWord_chkok (s : State) (j : Identity) :
    s.progressWord.getLsbD (14 + j.index) = s.chkok[j.index] := by
  unfold State.progressWord
  cases j <;> simp [-Nat.reduceAdd, -BitVec.getLsbD_eq_getElem, Identity.index, BitVec.getLsbD_append]

/-- Where CANV[t] stands in PROGRESS (10_state.md R44). -/
theorem progressWord_canv (s : State) (t : Product) :
    s.progressWord.getLsbD (16 + t.index) = s.canv[t.index] := by
  unfold State.progressWord
  cases t <;> simp [-Nat.reduceAdd, -BitVec.getLsbD_eq_getElem, Product.index, BitVec.getLsbD_append]

/-- Where the single flags stand in PROGRESS (10_state.md R44). -/
theorem progressWord_flags (s : State) :
    s.progressWord.getLsbD 0 = s.zv ∧ s.progressWord.getLsbD 1 = s.plv ∧
    s.progressWord.getLsbD 18 = s.dv ∧ s.progressWord.getLsbD 19 = s.rv ∧
    s.progressWord.extractLsb' 20 12 = 0 := by
  unfold State.progressWord
  simp [-Nat.reduceAdd, -BitVec.getLsbD_eq_getElem, BitVec.getLsbD_append,
    BitVec.extractLsb'_append_eq_of_le]

/-- Settles O44: each flag at its place; with every flag set the word is a numeral. -/
theorem progressLayout : Obligations.ProgressLayout := by
  refine ⟨by decide, fun s => ?_, fun s hz hp hk ho hc hd hr => ?_⟩
  · obtain ⟨hz, hp, hd, hr, hzero⟩ := progressWord_flags s
    exact ⟨hz, hp, progressWord_ckst s, progressWord_chkok s, progressWord_canv s, hd, hr, hzero⟩
  · unfold State.progressWord
    rw [hz, hp, hd, hr, show s.ckst[0] = .reduced from hk .a, show s.ckst[1] = .reduced from hk .b,
      show s.ckst[2] = .reduced from hk .k, show s.ckst[3] = .reduced from hk .n,
      show s.ckst[4] = .reduced from hk .c, show s.ckst[5] = .reduced from hk .kn,
      show s.chkok[0] = true from ho .ab, show s.chkok[1] = true from ho .kn,
      show s.canv[0] = true from hc .c, show s.canv[1] = true from hc .kn]
    rfl

/-! ## CROM -/

/-- n bytes of CROM are that many bits of its image (00_scope.md R15). -/
theorem crom_read (m : Crom) (addr n : Nat) :
    m.read addr n = m.image.toNat / 2 ^ (8 * addr) % 2 ^ (8 * n) := by
  unfold Crom.read
  induction n with
  | zero => simp [ofBytes, Nat.mod_one]
  | succ k ih =>
    rw [ofBytes, ih, Crom.byte, BitVec.extractLsb'_toNat, Nat.shiftRight_eq_div_pow,
      show 8 * (addr + k) = 8 * addr + 8 * k by ring, show 8 * (k + 1) = 8 * k + 8 by ring,
      pow_add, pow_add, ← Nat.div_div_eq_div_mul, Nat.mod_mul]
    ring

/-- The image as a number: N, P above it at byte 264, c at byte 296 (10_state.md R41). -/
theorem crom_image (m : Crom) :
    m.image.toNat = (m.cc.toNat * 2 ^ 256 + m.p.toNat) * 2 ^ 2112 + m.n.toNat := by
  have hn : m.nOp.toNat = m.n.toNat := by
    have := m.n.isLt
    rw [Crom.nOp, BitVec.toNat_setWidth]
    exact Nat.mod_eq_of_lt (by omega)
  simp only [Crom.image, toNat_append_eq_add, hn]

/-- A byte of CROM between the top of N and the end of N's operand form (10_state.md R41). -/
theorem crom_byte_above_n (m : Crom) (a : Nat) (ha : 256 ≤ a) (hlt : a < 264) : m.byte a = 0 := by
  have hlow : m.byte a = m.nOp.extractLsb' (8 * a) 8 :=
    BitVec.extractLsb'_append_eq_of_add_le (by omega)
  rw [hlow]
  ext i hi
  have hge : m.n.getLsbD (8 * a + i) = false := BitVec.getLsbD_of_ge _ _ (by omega)
  simp [Crom.nOp, BitVec.getLsbD_setWidth, hge]

/-- Settles O45: the three parts of the image, and the bytes of N's operand form above N. -/
theorem cromLayout : Obligations.CromLayout := by
  intro m hm
  have hn := m.n.isLt
  have hp := m.p.isLt
  have hc := m.cc.isLt
  simp only [crom_read, crom_image]
  refine ⟨?_, ?_, ?_, crom_byte_above_n m⟩
  · omega
  · rw [← crom_p hm]
    omega
  · rw [← crom_cc]
    omega

end Sys2Proof.Machine
end

section
/-!
What the commands that fill a data register leave there, as exact numbers: the arithmetic of the invariant
(41_challenge_ladder.md R86, R87, 42_checksum.md R89, R90, R92, 43_canonicalizer.md R100, 44_reconciler.md
R103, R104).
-/

namespace Sys2Proof.Machine

/-- A body that the order test lets through is what the command answers. -/
theorem body_of_issue {i : Instr} {s t : State} {req : Bool} {body : Result}
    (h : issue i s req body = .next t) (hl : s.runstate = .active) (hr : req = true) :
    body = .next t := by
  rwa [issue_runs (terminal_of_active hl) hr] at h

/-- `BitVec.isLt` with the power as Mathlib writes it: at a large width the two forms would be compared by
evaluating them. -/
theorem toNat_lt_pow {w : Nat} (x : BitVec w) : x.toNat < 2 ^ w := x.isLt

/-- A number that fits is kept by the register. -/
theorem toNat_ofNat_of_lt {w x : Nat} (h : x < 2 ^ w) : (BitVec.ofNat w x).toNat = x := by
  rw [BitVec.toNat_ofNat, Nat.mod_eq_of_lt h]

/-- The choice after a trial subtraction: x reduced once by y. -/
theorem trial_subtraction (n : Nat) {w x y : Nat} (hx : x < 2 ^ w) (hy : y < 2 ^ w)
    (hw : 32 * n = w) :
    (if (subw n x y false).2 then x else (subw n x y false).1) = if x < y then x else x - y := by
  subst hw
  rw [subw_eq n x y hx hy]
  by_cases hlt : x < y <;> simp [hlt]

/-- A subtraction with no borrow is exact. -/
theorem subw_exact (n : Nat) {w x y : Nat} (hx : x < 2 ^ w) (hy : y < 2 ^ w) (hw : 32 * n = w)
    (h : (subw n x y false).2 = false) : y ≤ x ∧ (subw n x y false).1 = x - y := by
  subst hw
  rw [subw_eq n x y hx hy] at h ⊢
  by_cases hlt : x < y
  · simp [hlt] at h
  · exact ⟨not_lt.mp hlt, by rw [if_neg hlt]⟩

theorem p_lt (s : State) : s.p < 2 ^ 256 := s.crom.p.isLt

theorem one_lt_p {s : State} (hm : s.crom.wf = true) : 1 < s.p := by
  have := crom_p_pos hm
  unfold State.p
  omega

/-- LDZ leaves a residue in Z (41_challenge_ladder.md R86). -/
theorem ldz_z {s t : State} (h : exec .ldz s = .next t) (hm : s.crom.wf = true)
    (ha : s.runstate = .active) (hz : s.zv = false) : ∃ z, t.z = some z ∧ z.toNat < s.p := by
  have hbody := body_of_issue h ha (by simp [State.active, ha, hz])
  injection hbody with hbody
  subst hbody
  refine ⟨_, rfl, ?_⟩
  have hzin : s.seenZin < 2 ^ 256 := ofWords_lt _ 8
  have hp : s.crom.p.toNat < 2 ^ 256 := s.crom.p.isLt
  have hp0 := crom_p_pos hm
  rw [trial_subtraction Config.feWords hzin hp rfl, toNat_ofNat_of_lt (by split <;> omega)]
  unfold State.p
  split <;> omega

/-- LADDER leaves the powers of Z in PL (41_challenge_ladder.md R87). -/
theorem ladder_pl {s t : State} (h : exec .ladder s = .next t) (hm : s.crom.wf = true)
    (ha : s.runstate = .active) (hz : s.zv = true) (hp : s.plv = false) (hlt : s.zValue.toNat < s.p) :
    ∃ pl, t.pl = some pl ∧ ∀ (i : Nat) (hi : i < 43), pl[i].toNat = s.zValue.toNat ^ i % s.p := by
  have hbody := body_of_issue h ha (by simp [State.active, ha, hz, hp])
  injection hbody with hbody
  subst hbody
  refine ⟨_, rfl, fun i hi => ?_⟩
  rw [Vector.getElem_ofFn, ← ladderEntry_eq _ _ (one_lt_p hm) hlt]
  exact toNat_ofNat_of_lt (ladderEntry_lt _ _ s.zValue.isLt (p_lt s) i)

/-- The sum of ACC as the statements write it (42_checksum.md R90). -/
theorem accumulate_rawSum (s : State) (src : Source) (hm : s.crom.wf = true) :
    accumulate (s.elem src) (fun i => (s.plValue i).toNat) s.crom.p.toNat src.nelem =
      (s.rawSum src, false) ∧ s.rawSum src < 2 ^ 288 := by
  have hsum : ∑ i ∈ Finset.range src.nelem, mulmod (s.elem src i) (s.plValue i).toNat s.crom.p.toNat =
      s.rawSum src :=
    Finset.sum_congr rfl fun i _ => mulmod_eq _ _ _ (crom_p_ne_zero hm)
  have hn := nelem_le src
  obtain ⟨heq, hle⟩ := accumulate_eq (s.elem src) (fun i => (s.plValue i).toNat) s.crom.p.toNat
    src.nelem s.crom.p.isLt hn
  rw [hsum] at heq hle
  exact ⟨heq, by omega⟩

/-- ACC leaves the exact sum in CK[s] (42_checksum.md R90). -/
theorem acc_ck {sel : BitVec 3} {src : Source} {s t : State} (h : exec (.acc sel) s = .next t)
    (hsel : Source.ofSel sel = some src) (hm : s.crom.wf = true) (ha : s.runstate = .active)
    (hp : s.plv = true) (hk : s.ckst[src.index] = .empty) :
    ∃ v, t.ck[src.index] = some v ∧ v.toNat = s.rawSum src := by
  obtain ⟨hsum, hlt⟩ := accumulate_rawSum s src hm
  simp only [exec, execAcc, hsel] at h
  have hbody := body_of_issue h ha (by simp [State.active, ha, hp, hk])
  simp only [hsum, Bool.false_eq_true, if_false] at hbody
  injection hbody with hbody
  subst hbody
  exact ⟨_, (Source.getElem_set s.ck src src _).trans (if_pos rfl), toNat_ofNat_of_lt hlt⟩

/-- Two folds and one trial subtraction are the residue modulo P (42_checksum.md R92 to R94). -/
theorem fold_residue {m : Crom} (hm : m.wf = true) {acc : Nat} (hacc : acc < 2 ^ 288) :
    let x := foldValue m.c.toNat (foldValue m.c.toNat acc)
    x < 2 ^ 256 ∧ (if x < m.p.toNat then x else x - m.p.toNat) = acc % m.p.toNat := by
  intro x
  have hc := m.c.isLt
  have hx : x < 2 ^ 256 := (foldValue_bounds _ _ hc hacc).2
  have hmod : x % m.p.toNat = acc % m.p.toNat := by
    rw [crom_p hm, foldValue_mod _ _ (by omega), foldValue_mod _ _ (by omega)]
  have hpos := crom_p_pos hm
  refine ⟨hx, ?_⟩
  rw [← hmod]
  split <;> rename_i hlt
  · exact (Nat.mod_eq_of_lt hlt).symm
  · rw [Nat.mod_eq_sub_mod (by omega)]
    exact (Nat.mod_eq_of_lt (by omega)).symm

/-- RED leaves the residue of the raw value in CK[s] (42_checksum.md R92). -/
theorem red_ck {sel : BitVec 3} {src : Source} {s t : State} (h : exec (.red sel) s = .next t)
    (hsel : Source.ofSel sel = some src) (hm : s.crom.wf = true) (ha : s.runstate = .active)
    (hk : s.ckst[src.index] = .raw) :
    ∃ v, t.ck[src.index] = some v ∧ v.toNat = (s.ckValue src).toNat % s.p := by
  have hraw := toNat_lt_pow (s.ckValue src)
  have hone := foldOnce_eq s.crom _ hm hraw
  have hbound := (foldValue_bounds s.crom.c.toNat _ s.crom.c.isLt hraw).1
  have htwo := foldOnce_eq s.crom (foldValue s.crom.c.toNat (s.ckValue src).toNat) hm (by omega)
  obtain ⟨hx, hres⟩ := fold_residue hm hraw
  simp only [exec, execRed, hsel] at h
  have hbody := body_of_issue h ha (by simp [State.active, ha, hk])
  simp only [hone, htwo] at hbody
  generalize foldValue s.crom.c.toNat (foldValue s.crom.c.toNat (s.ckValue src).toNat) = x at *
  rw [Config.feBits, Nat.mod_eq_of_lt hx, trial_subtraction Config.feWords hx s.crom.p.isLt rfl,
    hres] at hbody
  simp only [Bool.or_self, Bool.false_eq_true, if_false] at hbody
  split at hbody
  · cases hbody
  injection hbody with hbody
  subst hbody
  exact ⟨_, (Source.getElem_set s.ck src src _).trans (if_pos rfl),
    toNat_ofNat_of_lt (Nat.lt_of_le_of_lt (Nat.mod_le _ _) hraw)⟩

/-- With the powers of Z in PL the exact sum is congruent to the checksum (42_checksum.md R89, R90). -/
theorem rawSum_mod {s : State} (src : Source)
    (hpl : ∀ i < 43, (s.plValue i).toNat = s.zValue.toNat ^ i % s.p) :
    s.rawSum src % s.p = s.checksum src := by
  unfold State.rawSum State.checksum
  rw [← Finset.sum_nat_mod, Finset.sum_nat_mod _ _ fun i => s.elem src i * (s.plValue i).toNat,
    Finset.sum_nat_mod _ _ fun i => s.elem src i * s.zValue.toNat ^ i]
  congr 1
  refine Finset.sum_congr rfl fun i hi => ?_
  have hn := nelem_le src
  rw [hpl i (by have := Finset.mem_range.mp hi; omega), Nat.mul_mod_mod]

/-- CANON that sets CANV[t] leaves the exact value in CAN[t] (43_canonicalizer.md R100). -/
theorem canon_can {sel : BitVec 3} {p : Product} {s t : State} (h : exec (.canon sel) s = .next t)
    (hsel : Product.ofSel sel = some p) (ha : s.runstate = .active) (hc : s.canv[p.index] = false)
    (ht : t.canv[p.index] = true) :
    ∃ v, t.can[p.index] = some v ∧ v.toNat = s.arrayValue p.source := by
  have hn : p.source.nelem = Config.L := by cases p <;> rfl
  obtain ⟨hlost, -, hlimbs, hval⟩ := canonPass_eq (s.elem p.source) Config.L (elem_lt s p.source)
  rw [show 96 * Config.L = 4128 from rfl] at hlimbs hval
  simp only [exec, execCanon, hsel] at h
  have hbody := body_of_issue h ha (by simp [State.active, ha, hc])
  simp only [hlost, Bool.false_eq_true, if_false] at hbody
  split at hbody <;> rename_i hcarry <;> injection hbody with hbody <;> subst hbody
  · simp [hc] at ht
  · refine ⟨_, (Product.getElem_set s.can p p _).trans (if_pos rfl), ?_⟩
    rw [toNat_ofNat_of_lt hlimbs, State.arrayValue, hn, ← hval, not_not.mp hcarry, Nat.zero_mul,
      Nat.add_zero]

/-- SUBX that sets DV leaves the exact difference in D, below 2^2048 (44_reconciler.md R103). -/
theorem subx_d {s t : State} (h : exec .subx s = .next t) (hq : Requires .subx s)
    (ht : t.dv = true) :
    ∃ d, t.d = some d ∧ d.toNat + (s.canValue .kn).toNat = (s.canValue .c).toNat ∧
      d.toNat < 2 ^ 2048 := by
  obtain ⟨ha, h0, h1, hd⟩ := hq
  have hbody := body_of_issue h ha (by simp [State.active, ha, h0, h1, hd])
  have hx := toNat_lt_pow (s.canValue .c)
  have hy := toNat_lt_pow (s.canValue .kn)
  have hexact := subw_exact Config.canWords hx hy rfl
  dsimp only at hbody
  generalize subw Config.canWords (s.canValue .c).toNat (s.canValue .kn).toNat false = diff at *
  split at hbody <;> rename_i hb <;> injection hbody with hbody <;> subst hbody
  · simp [hd] at ht
  · simp only [Bool.or_eq_true, not_or, Bool.not_eq_true] at hb
    obtain ⟨hborrow, hhi⟩ := hb
    obtain ⟨hle, hdiff⟩ := hexact hborrow
    have hdlt : diff.1 < 2 ^ 4128 := by
      rw [hdiff]
      exact Nat.lt_of_le_of_lt (Nat.sub_le _ _) hx
    rw [highWordsNonzero_iff _ hdlt, decide_eq_false_iff_not, not_le] at hhi
    refine ⟨_, rfl, ?_⟩
    rw [toNat_ofNat_of_lt hdlt]
    exact ⟨by omega, hhi⟩

/-- FRED leaves D reduced once by N in R, for the D that SUBX leaves (44_reconciler.md R104). -/
theorem fred_r {s t : State} (h : exec .fred s = .next t) (hq : Requires .fred s)
    (hlt : s.dValue.toNat < 2 ^ 2048) :
    ∃ r, t.r = some r ∧ r.toNat = if s.dValue.toNat < s.crom.n.toNat then s.dValue.toNat
      else s.dValue.toNat - s.crom.n.toNat := by
  obtain ⟨ha, hd, hr⟩ := hq
  have hbody := body_of_issue h ha (by simp [State.active, ha, hd, hr])
  rw [Nat.mod_eq_of_lt hlt] at hbody
  injection hbody with hbody
  subst hbody
  have hle : (if s.dValue.toNat < s.crom.n.toNat then s.dValue.toNat
      else s.dValue.toNat - s.crom.n.toNat) ≤ s.dValue.toNat := by
    split <;> omega
  refine ⟨_, rfl, ?_⟩
  rw [trial_subtraction Config.resWords hlt (toNat_lt_pow s.crom.n) rfl]
  exact toNat_ofNat_of_lt (Nat.lt_of_le_of_lt hle hlt)

end Sys2Proof.Machine
end

section
/-!
Every step keeps the invariant. The plan: a step other than CLR and reset keeps the witness outside IDLE and
the progress (`KeepsProgress`), so what the set flags say stays true; a flag that a step newly sets says
something true (`GainsFacts`), by what its command computes; and the control registers are looked at on
their own (`ControlSound`). In IDLE, and after CLR and reset, no flag is set and there is nothing to keep.
-/

namespace Sys2Proof.Machine

/-! ## What the flags say

Each is what a flag stands for in `State.Inv`, whose fields say them word for word. -/

/-- Z holds a residue (10_state.md R32). -/
def State.ChallengeFact (s : State) : Prop := ∃ z, s.z = some z ∧ z.toNat < s.p

/-- PL holds the powers of Z (10_state.md R33). -/
def State.LadderFact (s : State) : Prop := s.zv = true ∧ ∃ pl, s.pl = some pl ∧
  ∀ (i : Nat) (h : i < 43), pl[i].toNat = s.zValue.toNat ^ i % s.p

/-- CK[s] is the exact sum (42_checksum.md R90). -/
def State.RawFact (s : State) (src : Source) : Prop := s.plv = true ∧
  ∃ v, s.ck[src.index] = some v ∧ v.toNat = s.rawSum src

/-- CK[s] is the checksum of its source (42_checksum.md R89). -/
def State.ReducedFact (s : State) (src : Source) : Prop := s.plv = true ∧
  ∃ v, s.ck[src.index] = some v ∧ v.toNat = s.checksum src

/-- The identity holds of the checksums (42_checksum.md R95). -/
def State.IdentityFact (s : State) (j : Identity) : Prop :=
  s.ckst[j.x.index] = .reduced ∧ s.ckst[j.y.index] = .reduced ∧ s.ckst[j.w.index] = .reduced ∧
  s.checksum j.x * s.checksum j.y % s.p = s.checksum j.w

/-- CAN[t] is the exact value of the product (43_canonicalizer.md R100). -/
def State.CanonicalFact (s : State) (t : Product) : Prop :=
  ∃ v, s.can[t.index] = some v ∧ v.toNat = s.arrayValue t.source

/-- D is the exact difference and fits in 64 words (44_reconciler.md R103). -/
def State.DifferenceFact (s : State) : Prop := s.canv[0] = true ∧ s.canv[1] = true ∧
  ∃ d, s.d = some d ∧ d.toNat + s.arrayValue .kn = s.arrayValue .c ∧ d.toNat < 2 ^ 2048

/-- R is D reduced once by N (44_reconciler.md R104). -/
def State.RemainderFact (s : State) : Prop := s.dv = true ∧ ∃ r, s.r = some r ∧
  r.toNat = if s.dValue.toNat < s.crom.n.toNat then s.dValue.toNat
    else s.dValue.toNat - s.crom.n.toNat

/-! ## The facts stay true -/

/-- The elements and the moduli that the facts are about are the same. -/
structure SameWitness (s t : State) : Prop where
  wmem : t.wmem = s.wmem := by rfl
  resets : t.resets = s.resets := by rfl
  crom : t.crom = s.crom := by rfl

namespace SameWitness

variable {s t : State}

theorem p (h : SameWitness s t) : t.p = s.p := by
  rw [State.p, State.p, h.crom]

theorem elem (h : SameWitness s t) (src : Source) (i : Nat) : t.elem src i = s.elem src i :=
  elem_congr h.wmem h.resets h.crom src i

theorem arrayValue (h : SameWitness s t) (src : Source) : t.arrayValue src = s.arrayValue src := by
  simp only [State.arrayValue, h.elem]

theorem checksum (h : SameWitness s t) (hz : t.zValue = s.zValue) (src : Source) :
    t.checksum src = s.checksum src := by
  simp only [State.checksum, h.elem, hz, h.p]

theorem rawSum (h : SameWitness s t) (hpl : ∀ i, t.plValue i = s.plValue i) (src : Source) :
    t.rawSum src = s.rawSum src := by
  simp only [State.rawSum, h.elem, hpl, h.p]

end SameWitness

/-- A register that holds a value reads as that value, whatever free values have been drawn. -/
theorem zValue_congr {s t : State} {z : BitVec 256} (hs : s.z = some z) (ht : t.z = s.z) :
    t.zValue = s.zValue := by
  simp [State.zValue, ht, hs]

theorem plValue_congr {s t : State} {pl : Vector (BitVec 256) 43} (hs : s.pl = some pl)
    (ht : t.pl = s.pl) (i : Nat) : t.plValue i = s.plValue i := by
  simp [State.plValue, ht, hs]

theorem dValue_congr {s t : State} {d : BitVec 4128} (hs : s.d = some d) (ht : t.d = s.d) :
    t.dValue = s.dValue := by
  simp [State.dValue, ht, hs]

section Carry

variable {s t : State} (hs : s.Inv) (hw : SameWitness s t) (hk : KeepsProgress s t)
include hs hk

/-- Once Z is there it reads the same. -/
theorem zValue_kept (hz : s.zv = true) : t.zValue = s.zValue := by
  obtain ⟨z, hsome, -⟩ := hs.challenge hz
  exact zValue_congr hsome (hk.challenge hz).2

include hw

theorem challengeFact_kept (hz : s.zv = true) : t.ChallengeFact := by
  obtain ⟨z, hsome, hlt⟩ := hs.challenge hz
  exact ⟨z, (hk.challenge hz).2.trans hsome, by rwa [hw.p]⟩

theorem ladderFact_kept (hp : s.plv = true) : t.LadderFact := by
  obtain ⟨hz, pl, hsome, hpow⟩ := hs.ladder hp
  refine ⟨(hk.challenge hz).1, pl, (hk.ladder hp).2.trans hsome, fun i hi => ?_⟩
  rw [zValue_kept hs hk hz, hw.p]
  exact hpow i hi

theorem rawFact_kept {src : Source} (hr : s.ckst[src.index] = .raw)
    (ht : t.ckst[src.index] = .raw) : t.RawFact src := by
  obtain ⟨hp, v, hsome, hv⟩ := hs.raw src hr
  obtain ⟨-, pl, hpl, -⟩ := hs.ladder hp
  obtain ⟨hp', hpl'⟩ := hk.ladder hp
  have hck : t.ck[src.index] = s.ck[src.index] := by
    rcases hk.raw src hr with h | ⟨-, h⟩
    · simp [ht] at h
    · exact h
  exact ⟨hp', v, hck.trans hsome, by rw [hv, hw.rawSum (plValue_congr hpl hpl')]⟩

/-- With PL there the checksums are the same numbers. -/
theorem checksum_kept (hp : s.plv = true) (src : Source) : t.checksum src = s.checksum src :=
  hw.checksum (zValue_kept hs hk (hs.ladder hp).1) src

theorem reducedFact_kept {src : Source} (hr : s.ckst[src.index] = .reduced) : t.ReducedFact src := by
  obtain ⟨hp, v, hsome, hv⟩ := hs.reduced src hr
  exact ⟨(hk.ladder hp).1, v, (hk.reduced src hr).2.trans hsome, by
    rw [hv, checksum_kept hs hw hk hp]⟩

theorem identityFact_kept {j : Identity} (hj : s.chkok[j.index] = true) : t.IdentityFact j := by
  obtain ⟨hx, hy, hw', hid⟩ := hs.identity j hj
  have hsum := checksum_kept hs hw hk (hs.reduced _ hx).1
  refine ⟨(hk.reduced _ hx).1, (hk.reduced _ hy).1, (hk.reduced _ hw').1, ?_⟩
  rw [hsum, hsum, hsum, hw.p]
  exact hid

theorem canonicalFact_kept {p : Product} (hp : s.canv[p.index] = true) : t.CanonicalFact p := by
  obtain ⟨v, hsome, hv⟩ := hs.canonical p hp
  exact ⟨v, (hk.canonical p hp).2.trans hsome, by rw [hv, hw.arrayValue]⟩

theorem differenceFact_kept (hd : s.dv = true) : t.DifferenceFact := by
  obtain ⟨h0, h1, d, hsome, hdiff⟩ := hs.difference hd
  refine ⟨(hk.canonical .c h0).1, (hk.canonical .kn h1).1, d, (hk.difference hd).2.trans hsome, ?_⟩
  rwa [hw.arrayValue, hw.arrayValue]

theorem remainderFact_kept (hr : s.rv = true) : t.RemainderFact := by
  obtain ⟨hd, r, hsome, hval⟩ := hs.remainder hr
  obtain ⟨-, -, d, hd', -⟩ := hs.difference hd
  obtain ⟨hdv, hd''⟩ := hk.difference hd
  refine ⟨hdv, r, (hk.remainder hr).2.trans hsome, ?_⟩
  rw [dValue_congr hd' hd'', hw.crom]
  exact hval

end Carry

/-! ## What is newly set is true -/

/-- Each flag of t was set in s, or what it says is true. A flag that the update leaves alone was set
before, so `{}` proves its clause. -/
structure GainsFacts (s t : State) : Prop where
  challenge : t.zv = true → s.zv = true ∨ t.ChallengeFact := by exact .inl
  ladder : t.plv = true → s.plv = true ∨ t.LadderFact := by exact .inl
  raw : ∀ src : Source, t.ckst[src.index] = .raw → s.ckst[src.index] = .raw ∨ t.RawFact src := by
    exact fun _ => .inl
  reduced : ∀ src : Source, t.ckst[src.index] = .reduced →
    s.ckst[src.index] = .reduced ∨ t.ReducedFact src := by exact fun _ => .inl
  identity : ∀ j : Identity, t.chkok[j.index] = true →
    s.chkok[j.index] = true ∨ t.IdentityFact j := by exact fun _ => .inl
  canonical : ∀ p : Product, t.canv[p.index] = true →
    s.canv[p.index] = true ∨ t.CanonicalFact p := by exact fun _ => .inl
  difference : t.dv = true → s.dv = true ∨ t.DifferenceFact := by exact .inl
  remainder : t.rv = true → s.rv = true ∨ t.RemainderFact := by exact .inl

/-- A write of CKST[src] newly says what its stage says of src, and nothing of another source. -/
theorem ckst_gains {s t : State} {src : Source} {stage : ChecksumState}
    (hset : t.ckst = s.ckst.set src.index stage) {other : Source} {q : ChecksumState}
    (h : t.ckst[other.index] = q) : s.ckst[other.index] = q ∨ (src = other ∧ stage = q) := by
  rw [hset, Source.getElem_set] at h
  split at h
  · exact .inr ⟨‹_›, h⟩
  · exact .inl h

section Gains

variable {s t : State} (hs : s.Inv)
include hs

theorem ldz_gains (h : exec .ldz s = .next t) (hc : Completes .ldz s t) : GainsFacts s t := by
  obtain ⟨ha, hz, z, cf, rfl⟩ := hc
  have hfact := ldz_z h hs.constants ha hz
  exact { challenge := fun _ => .inr hfact }

theorem ladder_gains (h : exec .ladder s = .next t) (hc : Completes .ladder s t) :
    GainsFacts s t := by
  obtain ⟨ha, hz, hp, pl, rfl⟩ := hc
  obtain ⟨z, hsome, hlt⟩ := hs.challenge hz
  have hval : s.zValue = z := by simp [State.zValue, hsome]
  have hfact := ladder_pl h hs.constants ha hz hp (by rwa [hval])
  exact { ladder := fun _ => .inr ⟨hz, hfact⟩ }

theorem acc_gains {sel : BitVec 3} (h : exec (.acc sel) s = .next t)
    (hc : Completes (.acc sel) s t) : GainsFacts s t := by
  obtain ⟨src, hsel, ha, hp, hk, v, rfl⟩ := hc
  have hfact := acc_ck h hsel hs.constants ha hp hk
  refine { raw := fun other ho => ?_, reduced := fun other ho => ?_ }
  · rcases ckst_gains rfl ho with h | ⟨rfl, -⟩
    · exact .inl h
    · exact .inr ⟨hp, hfact⟩
  · exact .inl ((ckst_gains rfl ho).resolve_right fun h => by simp at h)

/-- A raw CK[s] reduced modulo P is the checksum of its source (42_checksum.md R89, R90, R92). -/
theorem ckValue_mod {src : Source} (hk : s.ckst[src.index] = .raw) :
    (s.ckValue src).toNat % s.p = s.checksum src := by
  obtain ⟨hp, v, hsome, hv⟩ := hs.raw src hk
  obtain ⟨-, pl, hpl, hpow⟩ := hs.ladder hp
  have hval : s.ckValue src = v := by simp [State.ckValue, hsome]
  rw [hval, hv]
  refine rawSum_mod src fun i hi => ?_
  simp only [State.plValue, hpl, hi, dif_pos]
  exact hpow i hi

theorem red_gains {sel : BitVec 3} (h : exec (.red sel) s = .next t)
    (hc : Completes (.red sel) s t) : GainsFacts s t := by
  obtain ⟨src, hsel, ha, hk, v, cf, rfl⟩ := hc
  have hfact := red_ck h hsel hs.constants ha hk
  rw [ckValue_mod hs hk] at hfact
  refine { raw := fun other ho => ?_, reduced := fun other ho => ?_ }
  · exact .inl ((ckst_gains rfl ho).resolve_right fun h => by simp at h)
  · rcases ckst_gains rfl ho with h | ⟨rfl, -⟩
    · exact .inl h
    · exact .inr ⟨(hs.raw _ hk).1, hfact⟩

/-- The low part of a reduced CK[s] is the checksum of its source (10_state.md R34). -/
theorem ckLow_reduced {src : Source} (hk : s.ckst[src.index] = .reduced) :
    s.ckLow src = s.checksum src := by
  obtain ⟨-, v, hsome, hv⟩ := hs.reduced src hk
  have hval : s.ckValue src = v := by simp [State.ckValue, hsome]
  have hlt : s.checksum src < s.p := Nat.mod_lt _ (by have := one_lt_p hs.constants; omega)
  rw [State.ckLow, hval, hv]
  exact Nat.mod_eq_of_lt (lt_trans hlt (p_lt s))

theorem chk_gains {sel : BitVec 3} (hc : Completes (.chk sel) s t) : GainsFacts s t := by
  obtain ⟨j, -, -, hx, hy, hw, -, hmul, rfl⟩ := hc
  rw [mulmod_eq _ _ _ (crom_p_ne_zero hs.constants), ckLow_reduced hs hx, ckLow_reduced hs hy,
    ckLow_reduced hs hw] at hmul
  refine { identity := fun k hk => ?_ }
  replace hk := (Identity.getElem_set s.chkok j k true).symm.trans hk
  split at hk
  · subst k
    exact .inr ⟨hx, hy, hw, hmul⟩
  · exact .inl hk

omit hs in
theorem canon_gains {sel : BitVec 3} (h : exec (.canon sel) s = .next t)
    (hc : Completes (.canon sel) s t) : GainsFacts s t := by
  obtain ⟨p, hsel, ha, hp, v, rfl⟩ := hc
  have hset := Product.getElem_set s.canv p
  have hfact := canon_can h hsel ha hp ((hset p true).trans (if_pos rfl))
  refine { canonical := fun q hq => ?_ }
  replace hq := (hset q true).symm.trans hq
  split at hq
  · subst q
    exact .inr hfact
  · exact .inl hq

/-- CAN[t] reads as the exact value of its product once CANV[t] is set. -/
theorem canValue_eq {p : Product} (hp : s.canv[p.index] = true) :
    (s.canValue p).toNat = s.arrayValue p.source := by
  obtain ⟨v, hsome, hv⟩ := hs.canonical p hp
  rw [← hv]
  simp [State.canValue, hsome]

theorem subx_gains (h : exec .subx s = .next t) (hc : Completes .subx s t) : GainsFacts s t := by
  obtain ⟨ha, h0, h1, hd, d, rfl⟩ := hc
  refine { difference := fun ht => .inr ⟨h0, h1, ?_⟩ }
  have hfact := subx_d h ⟨ha, h0, h1, hd⟩ ht
  rwa [canValue_eq hs (p := .kn) h1, canValue_eq hs (p := .c) h0] at hfact

theorem fred_gains (h : exec .fred s = .next t) (hc : Completes .fred s t) : GainsFacts s t := by
  obtain ⟨ha, hd, hr, r, cf, rfl⟩ := hc
  obtain ⟨-, -, d, hsome, -, hlt⟩ := hs.difference hd
  have hval : s.dValue = d := by simp [State.dValue, hsome]
  have hfact := fred_r h ⟨ha, hd, hr⟩ (by rwa [hval])
  exact { remainder := fun _ => .inr ⟨hd, hfact⟩ }

/-- A command that completes sets no flag that does not hold of the witness. -/
theorem exec_gains {i : Instr} (h : exec i s = .next t) (hc : Completes i s t) (hi : i ≠ .clr) :
    GainsFacts s t := by
  cases i with
  | clr => exact absurd rfl hi
  | nop =>
    obtain ⟨-, rfl⟩ := hc
    exact {}
  | start =>
    obtain ⟨-, -, rfl⟩ := hc
    exact {}
  | fin =>
    obtain ⟨-, -, -, -, rfl⟩ := hc
    exact {}
  | ldz => exact ldz_gains hs h hc
  | ladder => exact ladder_gains hs h hc
  | acc => exact acc_gains hs h hc
  | red => exact red_gains hs h hc
  | chk => exact chk_gains hs hc
  | canon => exact canon_gains h hc
  | subx => exact subx_gains hs h hc
  | fred => exact fred_gains hs h hc

end Gains

/-! ## Control -/

/-- The invariant of the control registers alone (10_state.md R28, 30_encoding.md R72, log 3): four fields of
`State.Inv`. -/
structure State.ControlSound (s : State) : Prop where
  quiet : s.busy = false → s.raced = []
  running : s.busy = true → s.runstate.terminal = true → decode s.cmd = .ok .clr
  record : (s.err = 0 ↔ s.runstate ≠ .reject) ∧ s.err.toNat ≤ 6
  clearRecord : s.err = 0 → s.errinfo = 0 ∧ s.epc = 0 ∧ s.ecmd = 0

theorem State.Inv.controlSound {s : State} (hs : s.Inv) : s.ControlSound :=
  ⟨hs.quiet, hs.running, hs.record, hs.clearRecord⟩

/-- The codes of the faults are 1 to 6 (60_exceptions.md R114). -/
theorem cause_code (cause : Cause) : cause.code ≠ 0 ∧ cause.code.toNat ≤ 6 := by
  cases cause <;> decide

theorem controlSound_raise (u : State) (cause : Cause) (info cmd : Word) :
    (u.raise cause info cmd).ControlSound where
  quiet _ := rfl
  running h := by cases h
  record := ⟨⟨fun h => absurd h (cause_code cause).1, fun h => absurd rfl h⟩, (cause_code cause).2⟩
  clearRecord h := absurd h (cause_code cause).1

/-- The end of a command keeps the record clear, where START and FIN write RUNSTATE too. -/
theorem KeepsControl.controlSound {i : Instr} {s t : State} (hk : KeepsControl i s t)
    (hs : s.ControlSound) : t.ControlSound := by
  have hreject : t.runstate ≠ .reject ↔ s.runstate ≠ .reject := by
    rcases hk.runstate with h | ⟨-, hs, ht⟩ | ⟨-, hs, ht⟩
    · rw [h]
    · simp [hs, ht]
    · simp [hs, ht]
  obtain ⟨hinfo, hepc, hecmd⟩ := hk.record
  exact {
    quiet := fun _ => hk.raced
    running := fun h => by simp [hk.busy] at h
    record := by rw [hk.err, hreject]; exact hs.record
    clearRecord := by rw [hk.err, hinfo, hepc, hecmd]; exact hs.clearRecord }

/-- A race is noted only while a command runs (log 3). -/
theorem noteRace_quiet {s : State} (hs : s.busy = false → s.raced = []) (reg : PortReg) (w : Word) :
    (s.noteRace reg w).busy = false → (s.noteRace reg w).raced = [] := by
  unfold State.noteRace
  split
  · rename_i hb
    intro h
    simp [hb] at h
  · exact hs

theorem storeReg_quiet {s : State} (hs : s.busy = false → s.raced = []) (reg : PortReg) (v : Word) :
    (s.storeReg reg v).busy = false → (s.storeReg reg v).raced = [] := by
  cases reg with
  | wlen k => exact noteRace_quiet (s := { s with wlen := s.wlen.set k v }) hs _ _
  | zin k => exact noteRace_quiet (s := { s with zin := s.zin.set k v }) hs _ _
  | _ => exact hs

/-- A host access leaves control sound: only a CMD write touches BUSY and the word, and in a terminal state
it accepts CLR alone (30_encoding.md R72). -/
theorem controlSound_hostAccess {s : State} (hs : s.ControlSound) (a : HostAccess) :
    (s.hostAccess a).ControlSound := by
  rcases hostAccess_outcomes s a with ⟨-, h⟩ | ⟨reg, -, h⟩ | ⟨w, -, h⟩ | ⟨reg, v, -, -, h⟩ <;> rw [h]
  · cases a.kind <;> exact ⟨hs.quiet, hs.running, hs.record, hs.clearRecord⟩
  · unfold State.readReg
    split <;> exact ⟨hs.quiet, hs.running, hs.record, hs.clearRecord⟩
  · unfold State.writeCmd
    split
    · exact ⟨hs.quiet, hs.running, hs.record, hs.clearRecord⟩
    · split
      · exact hs
      · rename_i hacc
        refine ⟨fun _ => rfl, fun _ ht => (isClr_iff w).mp ?_, hs.record, hs.clearRecord⟩
        simpa [show s.runstate.terminal = true from ht] using hacc
  · refine ⟨storeReg_quiet hs.quiet reg v, ?_, ?_, ?_⟩ <;> rw [storeReg_eq]
    · exact hs.running
    · exact hs.record
    · exact hs.clearRecord

/-! ## WMEM under a host access -/

/-- An access leaves WMEM alone, or stores one word of it in IDLE (20_memory.md R50, R58). -/
theorem hostAccess_wmem (s : State) (a : HostAccess) :
    (s.hostAccess a).wmem = s.wmem ∨ (s.runstate = .idle ∧ ∃ (k : Fin 800) (v : Nat),
      (s.hostAccess a).wmem = Memory.storeLE s.wmem (4 * k) v 4) := by
  rcases hostAccess_outcomes s a with ⟨-, h⟩ | ⟨reg, -, h⟩ | ⟨w, -, h⟩ | ⟨reg, v, -, hw, h⟩ <;> rw [h]
  · cases a.kind <;> exact .inl rfl
  · unfold State.readReg
    split <;> exact .inl rfl
  · unfold State.writeCmd
    split
    · exact .inl rfl
    · split <;> exact .inl rfl
  · cases reg with
    | wmem k => exact .inr ⟨by simpa [State.writable] using hw, k, v.toNat, rfl⟩
    | wlen k | zin k =>
      simp only [State.storeReg]
      rw [noteRace_eq]
      exact .inl rfl
    | _ => exact .inl rfl

/-- Every access keeps WMEM in canonical form (20_memory.md R47). -/
theorem hostAccess_wf {s : State} (hs : Memory.wf s.wmem = true) (a : HostAccess) :
    Memory.wf (s.hostAccess a).wmem = true := by
  rcases hostAccess_wmem s a with h | ⟨-, k, v, h⟩ <;> rw [h]
  · exact hs
  · exact Memory.wf_storeLE _ _ _ _ (by omega) hs

/-! ## The invariant -/

/-- With no flag set there is nothing to prove but control, WMEM and CROM. -/
theorem inv_of_noProgress {t : State} (hc : t.ControlSound) (hmem : Memory.wf t.wmem = true)
    (hrom : t.crom.wf = true) (hn : t.noProgress) (hacc : t.runstate ≠ .accept) : t.Inv := by
  obtain ⟨hz, hp, hk, ho, hv, hd, hr⟩ := hn
  exact {
    memory := hmem
    constants := hrom
    quiet := hc.quiet
    running := hc.running
    record := hc.record
    clearRecord := hc.clearRecord
    fresh := fun _ => ⟨hz, hp, hk, ho, hv, hd, hr⟩
    challenge := fun h => by simp [hz] at h
    ladder := fun h => by simp [hp] at h
    raw := fun src h => by simp [hk src] at h
    reduced := fun src h => by simp [hk src] at h
    identity := fun j h => by simp [ho j] at h
    canonical := fun t h => by simp [hv t] at h
    difference := fun h => by simp [hd] at h
    remainder := fun h => by simp [hr] at h
    accepted := fun h => absurd h hacc }

/-- The step lemma of the plan: old facts are kept, new ones are gained. -/
theorem inv_advance {s t : State} (hs : s.Inv) (hw : SameWitness s t) (hk : KeepsProgress s t)
    (hg : GainsFacts s t) (hc : t.ControlSound) (hfresh : t.runstate = .idle → t.noProgress)
    (hacc : t.runstate = .accept → t.chkok[0] = true ∧ t.chkok[1] = true ∧ t.rv = true) : t.Inv where
  memory := by rw [hw.wmem]; exact hs.memory
  constants := by rw [hw.crom]; exact hs.constants
  quiet := hc.quiet
  running := hc.running
  record := hc.record
  clearRecord := hc.clearRecord
  fresh := hfresh
  challenge h := (hg.challenge h).elim (challengeFact_kept hs hw hk) id
  ladder h := (hg.ladder h).elim (ladderFact_kept hs hw hk) id
  raw src h := (hg.raw src h).elim (fun h' => rawFact_kept hs hw hk h' h) id
  reduced src h := (hg.reduced src h).elim (reducedFact_kept hs hw hk) id
  identity j h := (hg.identity j h).elim (identityFact_kept hs hw hk) id
  canonical p h := (hg.canonical p h).elim (canonicalFact_kept hs hw hk) id
  difference h := (hg.difference h).elim (differenceFact_kept hs hw hk) id
  remainder h := (hg.remainder h).elim (remainderFact_kept hs hw hk) id
  accepted := hacc

/-- CLR starts afresh (45_control.md R110). -/
theorem clear_inv {s : State} (hmem : Memory.wf s.wmem = true) (hrom : s.crom.wf = true) :
    s.clear.Inv := by
  refine inv_of_noProgress ⟨fun _ => rfl, fun h => by simp at h, by simp, by simp⟩ hmem hrom ?_
    (by simp)
  exact ⟨rfl, rfl, fun src => by cases src <;> rfl, fun j => by cases j <;> rfl,
    fun t => by cases t <;> rfl, rfl, rfl⟩

/-- The platform's reset is CLR with WMEM unknown again (70_reset_and_hazards.md R129). -/
theorem platformReset_inv {s : State} (hrom : s.crom.wf = true) : s.platformReset.Inv :=
  clear_inv (s := { s with wmem := [], resets := s.resets + 1 }) rfl hrom

/-- A host access keeps the invariant: in IDLE there is no progress yet, and outside IDLE the witness is
frozen (20_memory.md R58). -/
theorem hostAccess_inv {s : State} (hs : s.Inv) (a : HostAccess) : (s.hostAccess a).Inv := by
  have hc := controlSound_hostAccess hs.controlSound a
  have hframe := hostAccess_eq s a
  have hrun : (s.hostAccess a).runstate = s.runstate := by rw [hframe]
  have hrom : (s.hostAccess a).crom = s.crom := by rw [hframe]
  by_cases hidle : s.runstate = .idle
  · refine inv_of_noProgress hc (hostAccess_wf hs.memory a) (by rw [hrom]; exact hs.constants) ?_
      (by simp [hrun, hidle])
    rw [hframe]
    exact hs.fresh hidle
  · have hmem : (s.hostAccess a).wmem = s.wmem :=
      (hostAccess_wmem s a).resolve_right fun h => hidle h.1
    refine inv_advance hs ⟨hmem, by rw [hframe], hrom⟩ ?_ ?_ hc (fun h => absurd (hrun ▸ h) hidle) ?_
    all_goals rw [hframe]
    · exact {}
    · exact {}
    · exact hs.accepted

/-- A fault keeps the invariant: it writes the fault record, and no register with a flag. -/
theorem raise_inv {i : Instr} {s u : State} (hs : s.Inv) (hu : WritesBeforeFault i s u)
    (cause : Cause) (info cmd : Word) : (u.raise cause info cmd).Inv := by
  refine inv_advance hs ?_ (hu.keepsProgress cause info cmd) ?_ (controlSound_raise u cause info cmd)
    (fun h => by simp at h) (fun h => by simp at h)
  · rcases hu with rfl | ⟨-, -, d, cf, rfl⟩ | ⟨p, -, carry, rfl⟩ <;> exact {}
  · rcases hu with rfl | ⟨-, -, d, cf, rfl⟩ | ⟨p, -, carry, rfl⟩ <;> exact {}

/-- A word that a terminal state ignores keeps the invariant. -/
theorem ignoreWord_inv {s : State} (hs : s.Inv) : s.ignoreWord.Inv :=
  inv_advance hs {} {} {} ⟨fun _ => rfl, fun h => by simp at h, hs.record, hs.clearRecord⟩ hs.fresh
    hs.accepted

/-- Every command but NOP, START and CLR requires ACTIVE (45_control.md R107 to R110). -/
theorem Completes.active {i : Instr} {s t : State} (h : Completes i s t) :
    i = .nop ∨ i = .start ∨ i = .clr ∨ s.runstate = .active := by
  cases i
  case nop => exact .inl rfl
  case start => exact .inr (.inl rfl)
  case clr => exact .inr (.inr (.inl rfl))
  all_goals refine .inr (.inr (.inr ?_))
  case acc | red | chk | canon =>
    obtain ⟨_, -, ha, -⟩ := h
    exact ha
  all_goals
    obtain ⟨ha, -⟩ := h
    exact ha

/-- Where RUNSTATE stands at the end of a command other than CLR, and what it says there. -/
theorem Completes.runstate_sound {i : Instr} {s t : State} (hs : s.Inv) (h : Completes i s t)
    (hk : KeepsControl i s t) (hi : i ≠ .clr) :
    (t.runstate = .idle → t.noProgress) ∧
    (t.runstate = .accept → t.chkok[0] = true ∧ t.chkok[1] = true ∧ t.rv = true) := by
  rcases h.active with rfl | rfl | rfl | ha
  · obtain ⟨-, rfl⟩ := h
    exact ⟨hs.fresh, hs.accepted⟩
  · obtain ⟨-, -, rfl⟩ := h
    exact ⟨fun h => by simp at h, fun h => by simp at h⟩
  · exact absurd rfl hi
  · rcases hk.runstate with hsame | ⟨-, hidle, -⟩ | ⟨rfl, -, hacc⟩
    · simp [hsame, ha]
    · rw [ha] at hidle
      cases hidle
    · obtain ⟨-, h0, h1, hr, rfl⟩ := h
      exact ⟨fun h => by simp at h, fun _ => ⟨h0, h1, hr⟩⟩

/-- A command that completes keeps the invariant. -/
theorem completes_inv {i : Instr} {s t : State} (hs : s.Inv) (he : exec i s = .next t)
    (hc : Completes i s t) : t.Inv := by
  rcases hc.control with ⟨-, rfl⟩ | ⟨hi, hk⟩
  · exact clear_inv hs.memory hs.constants
  · have hsur := hc.sameSurroundings
    obtain ⟨hfresh, hacc⟩ := hc.runstate_sound hs hk hi
    exact inv_advance hs ⟨hsur.wmem, hsur.resets, hsur.crom⟩ (hc.keepsProgress hi)
      (exec_gains hs he hc hi) (hk.controlSound hs.controlSound) hfresh hacc

/-- The events to come are no part of the invariant. -/
theorem inv_port {s : State} (hs : s.Inv) (rest : List PortEvent) :
    State.Inv { s with port := rest } :=
  inv_advance hs {} {} {} ⟨hs.quiet, hs.running, hs.record, hs.clearRecord⟩ hs.fresh hs.accepted

/-- Settles O50: each outcome of a step keeps the invariant. -/
theorem stepKeepsTheInvariant : Obligations.StepKeepsTheInvariant := by
  intro s t hs h
  rcases step_outcomes h with rfl | ⟨rest, -, rfl⟩ | ⟨a, rest, -, rfl⟩ | ⟨-, hr⟩
  · exact hs
  · exact platformReset_inv hs.constants
  · exact hostAccess_inv (inv_port hs rest) a
  · rcases runCommand_outcomes hr with ⟨-, rfl⟩ | ⟨-, i, u, cause, info, hu, rfl⟩ | ⟨i, -, he, hc⟩
    · exact ignoreWord_inv hs
    · exact raise_inv hs hu cause info s.cmd
    · exact completes_inv hs he hc

end Sys2Proof.Machine
end

section
/-!
The witness's elements as numbers of bytes (20_memory.md R49 to R52).
-/

namespace Sys2Proof.Machine

/-- A little-endian number is the sum of its weighted bytes (20_memory.md R49). -/
theorem ofBytes_eq_sum (f : Nat → Byte) (n : Nat) :
    ofBytes f n = ∑ k ∈ Finset.range n, (f k).toNat * 2 ^ (8 * k) := by
  induction n with
  | zero => rfl
  | succ n ih => rw [ofBytes, ih, Finset.sum_range_succ]

/-- m bytes with n bytes above them. -/
theorem ofBytes_add (f : Nat → Byte) (m n : Nat) :
    ofBytes f (m + n) = ofBytes f m + ofBytes (fun k => f (m + k)) n * 2 ^ (8 * m) := by
  induction n with
  | zero => simp [ofBytes]
  | succ n ih =>
    rw [← Nat.add_assoc, ofBytes, ih, ofBytes, Nat.mul_add, pow_add]
    ring

/-- Limbs of 12 bytes one above the other are one number of all the bytes (20_memory.md R50, R52). -/
theorem ofBytes_limbs (f : Nat → Byte) (n : Nat) :
    ∑ i ∈ Finset.range n, ofBytes (fun k => f (12 * i + k)) 12 * 2 ^ (96 * i) =
      ofBytes f (12 * n) := by
  induction n with
  | zero => rfl
  | succ n ih =>
    rw [Finset.sum_range_succ, ih, Nat.mul_succ, ofBytes_add, ← Nat.mul_assoc]

/-- The limbs of an Operand in WMEM. -/
theorem memRead_limbs (s : State) (addr n : Nat) :
    ∑ i ∈ Finset.range n, s.memRead (addr + 12 * i) 12 * 2 ^ (96 * i) = s.memRead addr (12 * n) := by
  simp only [State.memRead, ← ofBytes_limbs, Nat.add_assoc]

/-- The limbs of an Operand in CROM. -/
theorem cromRead_limbs (m : Crom) (addr n : Nat) :
    ∑ i ∈ Finset.range n, m.read (addr + 12 * i) 12 * 2 ^ (96 * i) = m.read addr (12 * n) := by
  simp only [Crom.read, ← ofBytes_limbs, Nat.add_assoc]

/-- The first 264 bytes of CROM hold N (10_state.md R41). -/
theorem cromRead_n (m : Crom) : m.read 0 264 = m.n.toNat := by
  have hn := m.n.isLt
  rw [crom_read, crom_image]
  omega

/-- Settles O46: in each of the four places the limbs tile the bytes. -/
theorem operandIsTheIntegerOfItsBytes : Obligations.OperandIsTheIntegerOfItsBytes := fun s =>
  ⟨memRead_limbs s 0 22, memRead_limbs s 264 22, memRead_limbs s 1732 22,
    (cromRead_limbs s.crom 0 22).trans (cromRead_n s.crom)⟩

/-- Settles O54: the element functions read their own bytes, and a read is the sum of its bytes. -/
theorem elementsAreTheirBytes : Obligations.ElementsAreTheirBytes := by
  refine ⟨fun src => ?_, fun s i _ => ⟨rfl, rfl, rfl, rfl⟩, fun s i _ => ⟨rfl, rfl⟩,
    fun s addr n => ofBytes_eq_sum _ n, fun m addr n => ofBytes_eq_sum _ n⟩
  cases src <;> rfl

end Sys2Proof.Machine
end

section
/-!
The order of commands (20_memory.md R66). Each data register with its flag is one `Slot`. A command that
completes changes its own slot alone (`WritesOnly`) and takes it from the one stage to the next
(`Completes.stage`), so two commands that run in both orders have different slots; and what it leaves there
depends on data whose flags are set, which the other command keeps (`Completes.slot_determined`).
-/

namespace Sys2Proof.Machine

/-! ## Slots -/

/-- A data register with the flag that says what it holds (10_state.md R21, R29); CHKOK has no datum. -/
inductive Slot where
  | z
  | pl
  | ck (src : Source)
  | chkok (j : Identity)
  | can (p : Product)
  | d
  | r

/-- The flag and the datum of a slot are the same in both states. -/
def Slot.Same (k : Slot) (s t : State) : Prop :=
  match k with
  | .z => t.zv = s.zv ∧ t.z = s.z
  | .pl => t.plv = s.plv ∧ t.pl = s.pl
  | .ck src => t.ckst[src.index] = s.ckst[src.index] ∧ t.ck[src.index] = s.ck[src.index]
  | .chkok j => t.chkok[j.index] = s.chkok[j.index]
  | .can p => t.canv[p.index] = s.canv[p.index] ∧ t.can[p.index] = s.can[p.index]
  | .d => t.dv = s.dv ∧ t.d = s.d
  | .r => t.rv = s.rv ∧ t.r = s.r

theorem Slot.Same.symm {k : Slot} {s t : State} (h : k.Same s t) : k.Same t s := by
  cases k
  case chkok j => exact Eq.symm h
  all_goals exact ⟨h.1.symm, h.2.symm⟩

theorem Slot.Same.trans {k : Slot} {s t u : State} (h : k.Same s t) (h' : k.Same t u) :
    k.Same s u := by
  cases k
  case chkok j => exact Eq.trans h' h
  all_goals exact ⟨h'.1.trans h.1, h'.2.trans h.2⟩

/-- The same slot in two answers. -/
theorem Slot.Same.of_next {k : Slot} {s t u v : State} (hs : (.next s : Result) = .next t)
    (hu : (.next u : Result) = .next v) (h : k.Same s u) : k.Same t v := by
  injection hs with hs
  injection hu with hu
  rwa [← hs, ← hu]

/-- How far a slot is: the code of its flag (10_state.md R29). -/
def Slot.stage (k : Slot) (s : State) : Nat :=
  match k with
  | .z => s.zv.toNat
  | .pl => s.plv.toNat
  | .ck src => s.ckst[src.index].code.toNat
  | .chkok j => s.chkok[j.index].toNat
  | .can p => s.canv[p.index].toNat
  | .d => s.dv.toNat
  | .r => s.rv.toNat

/-- The slot that a command writes, if any. -/
def slotOf (i : Instr) : Option Slot :=
  match i with
  | .ldz => some .z
  | .ladder => some .pl
  | .acc sel | .red sel => (Source.ofSel sel).map .ck
  | .chk sel => (Identity.ofSel sel).map .chkok
  | .canon sel => (Product.ofSel sel).map .can
  | .subx => some .d
  | .fred => some .r
  | .nop | .start | .fin | .clr => none

/-- The stage at which a command finds its slot: RED finds a raw accumulator, the others nothing. -/
def stageBefore (i : Instr) : Nat :=
  match i with
  | .red _ => 1
  | _ => 0

/-! ## What a command leaves alone -/

/-- The end of a command other than CLR: PC + 1, the host's inputs as they were, and every slot but the
command's own. Where an update names none of a clause's fields it is `rfl`, so `{}` proves it. -/
structure WritesOnly (i : Instr) (s t : State) : Prop where
  pc : t.pc = s.pc + 1 := by rfl
  wlen : t.wlen = s.wlen := by rfl
  zin : t.zin = s.zin := by rfl
  z : slotOf i ≠ some .z → Slot.Same .z s t := by exact fun _ => ⟨rfl, rfl⟩
  pl : slotOf i ≠ some .pl → Slot.Same .pl s t := by exact fun _ => ⟨rfl, rfl⟩
  ck : ∀ src, slotOf i ≠ some (.ck src) → Slot.Same (.ck src) s t := by exact fun _ _ => ⟨rfl, rfl⟩
  chkok : ∀ j, slotOf i ≠ some (.chkok j) → Slot.Same (.chkok j) s t := by exact fun _ _ => rfl
  can : ∀ p, slotOf i ≠ some (.can p) → Slot.Same (.can p) s t := by exact fun _ _ => ⟨rfl, rfl⟩
  d : slotOf i ≠ some .d → Slot.Same .d s t := by exact fun _ => ⟨rfl, rfl⟩
  r : slotOf i ≠ some .r → Slot.Same .r s t := by exact fun _ => ⟨rfl, rfl⟩

theorem WritesOnly.slot {i : Instr} {s t : State} (h : WritesOnly i s t) {k : Slot}
    (hk : slotOf i ≠ some k) : k.Same s t := by
  cases k with
  | z => exact h.z hk
  | pl => exact h.pl hk
  | ck src => exact h.ck src hk
  | chkok j => exact h.chkok j hk
  | can p => exact h.can p hk
  | d => exact h.d hk
  | r => exact h.r hk

/-- A write of CK[src] leaves the slots of the other sources. -/
theorem same_putChecksum {i : Instr} {s t : State} {src other : Source} {v : Nat}
    {stage : ChecksumState} (hi : slotOf i = some (.ck src)) (ho : slotOf i ≠ some (.ck other))
    (hck : t.ck = (s.putChecksum src v stage).ck) (hst : t.ckst = (s.putChecksum src v stage).ckst) :
    Slot.Same (.ck other) s t := by
  have hne : src ≠ other := fun h => ho (by rw [hi, h])
  unfold Slot.Same
  rw [hck, hst]
  exact ⟨(Source.getElem_set s.ckst src other stage).trans (if_neg hne),
    (Source.getElem_set s.ck src other _).trans (if_neg hne)⟩

/-- CKST[src] reads back the stage that was put there. -/
theorem ckst_putChecksum (s : State) (src : Source) (v : Nat) (stage : ChecksumState) :
    (s.putChecksum src v stage).ckst[src.index] = stage :=
  (Source.getElem_set s.ckst src src stage).trans (if_pos rfl)

/-- A command that completes, other than CLR, writes its own slot only. -/
theorem Completes.writesOnly {i : Instr} {s t : State} (h : Completes i s t) (hi : i ≠ .clr) :
    WritesOnly i s t := by
  cases i
  case clr => exact absurd rfl hi
  case nop =>
    obtain ⟨-, rfl⟩ := h
    exact {}
  case start =>
    obtain ⟨-, -, rfl⟩ := h
    exact {}
  case fin =>
    obtain ⟨-, -, -, -, rfl⟩ := h
    exact {}
  case ldz =>
    obtain ⟨-, -, z, cf, rfl⟩ := h
    exact { z := fun hk => absurd rfl hk }
  case ladder =>
    obtain ⟨-, -, -, pl, rfl⟩ := h
    exact { pl := fun hk => absurd rfl hk }
  case acc sel =>
    obtain ⟨src, hsel, -, -, -, v, rfl⟩ := h
    exact { ck := fun other hk => same_putChecksum (by simp [slotOf, hsel]) hk rfl rfl }
  case red sel =>
    obtain ⟨src, hsel, -, -, v, cf, rfl⟩ := h
    exact { ck := fun other hk => same_putChecksum (by simp [slotOf, hsel]) hk rfl rfl }
  case chk sel =>
    obtain ⟨j, hsel, -, -, -, -, -, -, rfl⟩ := h
    refine { chkok := fun other hk => ?_ }
    have hne : j ≠ other := by
      rintro rfl
      simp [slotOf, hsel] at hk
    exact (Identity.getElem_set s.chkok j other true).trans (if_neg hne)
  case canon sel =>
    obtain ⟨p, hsel, -, -, v, rfl⟩ := h
    refine { can := fun other hk => ?_ }
    have hne : p ≠ other := by
      rintro rfl
      simp [slotOf, hsel] at hk
    exact ⟨(Product.getElem_set s.canv p other true).trans (if_neg hne),
      (Product.getElem_set s.can p other (some v)).trans (if_neg hne)⟩
  case subx =>
    obtain ⟨-, -, -, -, d, rfl⟩ := h
    exact { d := fun hk => absurd rfl hk }
  case fred =>
    obtain ⟨-, -, -, r, cf, rfl⟩ := h
    exact { r := fun hk => absurd rfl hk }

/-- A command takes its slot from its own stage to the next (10_state.md R29). -/
theorem Completes.stage {i : Instr} {s t : State} (h : Completes i s t) {k : Slot}
    (hk : slotOf i = some k) : k.stage s = stageBefore i ∧ k.stage t = stageBefore i + 1 := by
  cases i
  case nop | start | fin | clr => cases hk
  case ldz =>
    obtain ⟨-, hz, z, cf, rfl⟩ := h
    cases hk
    simp [Slot.stage, stageBefore, hz]
  case ladder =>
    obtain ⟨-, -, hp, pl, rfl⟩ := h
    cases hk
    simp [Slot.stage, stageBefore, hp]
  case acc sel =>
    obtain ⟨src, hsel, -, -, hempty, v, rfl⟩ := h
    simp only [slotOf, hsel, Option.map_some, Option.some.injEq] at hk
    subst hk
    simp only [Slot.stage, State.complete_ckst, ckst_putChecksum, hempty]
    exact ⟨rfl, rfl⟩
  case red sel =>
    obtain ⟨src, hsel, -, hraw, v, cf, rfl⟩ := h
    simp only [slotOf, hsel, Option.map_some, Option.some.injEq] at hk
    subst hk
    simp only [Slot.stage, State.complete_ckst, ckst_putChecksum, hraw]
    exact ⟨rfl, rfl⟩
  case chk sel =>
    obtain ⟨j, hsel, -, -, -, -, hclear, -, rfl⟩ := h
    simp only [slotOf, hsel, Option.map_some, Option.some.injEq] at hk
    subst hk
    simp only [Slot.stage, State.complete_chkok, Identity.getElem_set, if_pos, hclear]
    exact ⟨rfl, rfl⟩
  case canon sel =>
    obtain ⟨p, hsel, -, hclear, v, rfl⟩ := h
    simp only [slotOf, hsel, Option.map_some, Option.some.injEq] at hk
    subst hk
    simp only [Slot.stage, State.complete_canv, Product.getElem_set, if_pos, hclear]
    exact ⟨rfl, rfl⟩
  case subx =>
    obtain ⟨-, -, -, hd, d, rfl⟩ := h
    cases hk
    simp [Slot.stage, stageBefore, hd]
  case fred =>
    obtain ⟨-, -, hr, r, cf, rfl⟩ := h
    cases hk
    simp [Slot.stage, stageBefore, hr]

/-- Two commands that complete, the second also after the first, write different slots: the first has moved
its slot to another stage. -/
theorem slotOf_ne {i j : Instr} {s t u v : State} (hi : Completes i s t) (hj : Completes j s u)
    (hij : Completes j t v) {k : Slot} (hk : slotOf i = some k) : slotOf j ≠ some k := by
  intro hk'
  have hbefore := (hi.stage hk).1
  have hafter := (hi.stage hk).2
  have hs := (hj.stage hk').1
  have ht := (hij.stage hk').1
  omega

/-! ## What a command reads -/

/-- What the commands read is the same in both states: the memories, the challenge, and every datum whose
flag is set. -/
structure SameInputs (s u : State) : Prop where
  surroundings : SameSurroundings s u
  seenZin : u.seenZin = s.seenZin
  progress : KeepsProgress s u

namespace SameInputs

variable {s u : State} (h : SameInputs s u)
include h

theorem elem (src : Source) : u.elem src = s.elem src :=
  funext (elem_congr h.surroundings.wmem h.surroundings.resets h.surroundings.crom src)

theorem zValue (hz : s.zv = true) : u.zValue = s.zValue := by
  rw [State.zValue, State.zValue, (h.progress.challenge hz).2, h.surroundings.draws]

theorem plValue (hp : s.plv = true) : u.plValue = s.plValue := by
  funext i
  rw [State.plValue, State.plValue, (h.progress.ladder hp).2, h.surroundings.draws]

theorem canValue {p : Product} (hp : s.canv[p.index] = true) : u.canValue p = s.canValue p := by
  rw [State.canValue, State.canValue, (h.progress.canonical p hp).2, h.surroundings.draws]

theorem dValue (hd : s.dv = true) : u.dValue = s.dValue := by
  rw [State.dValue, State.dValue, (h.progress.difference hd).2, h.surroundings.draws]

/-- An accumulator that is raw in both states is the same. -/
theorem ckValue {src : Source} (hs : s.ckst[src.index] = .raw) (hu : u.ckst[src.index] = .raw) :
    u.ckValue src = s.ckValue src := by
  rcases h.progress.raw src hs with hred | ⟨-, hck⟩
  · rw [hu] at hred
    cases hred
  · rw [State.ckValue, State.ckValue, hck, h.surroundings.draws]

end SameInputs

/-- A command that names a source completes only where it may run on that source. -/
theorem Completes.acc_requires {sel : BitVec 3} {src : Source} {s t : State}
    (h : Completes (.acc sel) s t) (hsel : Source.ofSel sel = some src) :
    s.runstate = .active ∧ s.plv = true ∧ s.ckst[src.index] = .empty := by
  obtain ⟨src', hsel', ha, hp, hk, -⟩ := h
  obtain rfl : src = src' := Option.some_injective _ (hsel.symm.trans hsel')
  exact ⟨ha, hp, hk⟩

theorem Completes.red_requires {sel : BitVec 3} {src : Source} {s t : State}
    (h : Completes (.red sel) s t) (hsel : Source.ofSel sel = some src) :
    s.runstate = .active ∧ s.ckst[src.index] = .raw := by
  obtain ⟨src', hsel', ha, hk, -⟩ := h
  obtain rfl : src = src' := Option.some_injective _ (hsel.symm.trans hsel')
  exact ⟨ha, hk⟩

theorem Completes.canon_requires {sel : BitVec 3} {p : Product} {s t : State}
    (h : Completes (.canon sel) s t) (hsel : Product.ofSel sel = some p) :
    s.runstate = .active ∧ s.canv[p.index] = false := by
  obtain ⟨p', hsel', ha, hc, -⟩ := h
  obtain rfl : p = p' := Option.some_injective _ (hsel.symm.trans hsel')
  exact ⟨ha, hc⟩

/-! ## What a command leaves in its slot

u agrees with s on the inputs; the command completes on s with t and on u with v. The proofs of CANON and SUBX
cover their fault as well, which writes the datum too. -/

section Determined

variable {s t u v : State} (hin : SameInputs s u)
include hin

theorem ldz_determined (hs : exec .ldz s = .next t) (hu : exec .ldz u = .next v)
    (cs : Completes .ldz s t) (cu : Completes .ldz u v) : Slot.Same .z t v := by
  obtain ⟨has, hzs, -⟩ := cs
  obtain ⟨hau, hzu, -⟩ := cu
  have bs := body_of_issue hs has (by simp [State.active, has, hzs])
  have bu := body_of_issue hu hau (by simp [State.active, hau, hzu])
  rw [hin.seenZin, hin.surroundings.crom] at bu
  exact .of_next bs bu ⟨rfl, rfl⟩

theorem ladder_determined (hs : exec .ladder s = .next t) (hu : exec .ladder u = .next v)
    (cs : Completes .ladder s t) (cu : Completes .ladder u v) : Slot.Same .pl t v := by
  obtain ⟨has, hzs, hps, -⟩ := cs
  obtain ⟨hau, hzu, hpu, -⟩ := cu
  have bs := body_of_issue hs has (by simp [State.active, has, hzs, hps])
  have bu := body_of_issue hu hau (by simp [State.active, hau, hzu, hpu])
  rw [hin.zValue hzs, hin.surroundings.crom] at bu
  exact .of_next bs bu ⟨rfl, rfl⟩

omit hin in
/-- What is put in CK[src] does not depend on what is elsewhere. -/
theorem same_of_putChecksum {src : Source} {x : Nat} {stage : ChecksumState}
    (ht : t.ckst = (s.putChecksum src x stage).ckst ∧ t.ck = (s.putChecksum src x stage).ck)
    (hv : v.ckst = (u.putChecksum src x stage).ckst ∧ v.ck = (u.putChecksum src x stage).ck) :
    Slot.Same (.ck src) t v := by
  have hput (w : State) : (w.putChecksum src x stage).ck[src.index] = some (BitVec.ofNat 288 x) :=
    (Source.getElem_set w.ck src src _).trans (if_pos rfl)
  simp only [Slot.Same]
  rw [ht.1, ht.2, hv.1, hv.2, ckst_putChecksum, ckst_putChecksum, hput, hput]
  exact ⟨rfl, rfl⟩

theorem acc_determined {sel : BitVec 3} {src : Source} (hsel : Source.ofSel sel = some src)
    (hs : exec (.acc sel) s = .next t) (hu : exec (.acc sel) u = .next v)
    (cs : Completes (.acc sel) s t) (cu : Completes (.acc sel) u v) : Slot.Same (.ck src) t v := by
  obtain ⟨has, hps, hes⟩ := cs.acc_requires hsel
  obtain ⟨hau, hpu, heu⟩ := cu.acc_requires hsel
  simp only [exec, execAcc, hsel] at hs hu
  have bs := body_of_issue hs has (by simp [State.active, has, hps, hes])
  have bu := body_of_issue hu hau (by simp [State.active, hau, hpu, heu])
  rw [hin.elem, hin.plValue hps, hin.surroundings.crom] at bu
  split at bs <;> rename_i hlost
  · cases bs
  · rw [if_neg hlost] at bu
    exact .of_next bs bu (same_of_putChecksum ⟨rfl, rfl⟩ ⟨rfl, rfl⟩)

theorem red_determined {sel : BitVec 3} {src : Source} (hsel : Source.ofSel sel = some src)
    (hs : exec (.red sel) s = .next t) (hu : exec (.red sel) u = .next v)
    (cs : Completes (.red sel) s t) (cu : Completes (.red sel) u v) : Slot.Same (.ck src) t v := by
  obtain ⟨has, hrs⟩ := cs.red_requires hsel
  obtain ⟨hau, hru⟩ := cu.red_requires hsel
  simp only [exec, execRed, hsel] at hs hu
  have bs := body_of_issue hs has (by simp [State.active, has, hrs])
  have bu := body_of_issue hu hau (by simp [State.active, hau, hru])
  rw [hin.ckValue hrs hru, hin.surroundings.crom] at bu
  split at bs <;> rename_i hlost
  · cases bs
  split at bs <;> rename_i hleft
  · cases bs
  · rw [if_neg hlost, if_neg hleft] at bu
    exact .of_next bs bu (same_of_putChecksum ⟨rfl, rfl⟩ ⟨rfl, rfl⟩)

omit hin in
/-- CHK that completes has set its flag. -/
theorem chk_determined {sel : BitVec 3} {j : Identity} (hsel : Identity.ofSel sel = some j)
    (cs : Completes (.chk sel) s t) (cu : Completes (.chk sel) u v) : Slot.Same (.chkok j) t v := by
  have hset {s t : State} (h : Completes (.chk sel) s t) : t.chkok[j.index] = true := by
    obtain ⟨j', hsel', -, -, -, -, -, -, rfl⟩ := h
    obtain rfl : j = j' := Option.some_injective _ (hsel.symm.trans hsel')
    exact (Identity.getElem_set s.chkok j j true).trans (if_pos rfl)
  exact (hset cu).trans (hset cs).symm

theorem canon_determined {sel : BitVec 3} {p : Product} (hsel : Product.ofSel sel = some p)
    (hs : exec (.canon sel) s = .next t) (hu : exec (.canon sel) u = .next v)
    (cs : Completes (.canon sel) s t) (cu : Completes (.canon sel) u v) :
    Slot.Same (.can p) t v := by
  obtain ⟨has, hcs⟩ := cs.canon_requires hsel
  obtain ⟨hau, hcu⟩ := cu.canon_requires hsel
  simp only [exec, execCanon, hsel] at hs hu
  have bs := body_of_issue hs has (by simp [State.active, has, hcs])
  have bu := body_of_issue hu hau (by simp [State.active, hau, hcu])
  rw [hin.elem] at bu
  have hput {α : Type} (w : Vector α 2) (x : α) : (w.set p.index x)[p.index] = x :=
    (Product.getElem_set w p p x).trans (if_pos rfl)
  split at bs <;> rename_i hlost
  · cases bs
  rw [if_neg hlost] at bu
  split at bs <;> rename_i hcarry
  · rw [if_pos hcarry] at bu
    exact .of_next bs bu ⟨hcu.trans hcs.symm, (hput _ _).trans (hput _ _).symm⟩
  · rw [if_neg hcarry] at bu
    exact .of_next bs bu ⟨(hput _ _).trans (hput _ _).symm, (hput _ _).trans (hput _ _).symm⟩

theorem subx_determined (hs : exec .subx s = .next t) (hu : exec .subx u = .next v)
    (cs : Completes .subx s t) (cu : Completes .subx u v) : Slot.Same .d t v := by
  obtain ⟨has, h0s, h1s, hds, -⟩ := cs
  obtain ⟨hau, h0u, h1u, hdu, -⟩ := cu
  have bs := body_of_issue hs has (by simp [State.active, has, h0s, h1s, hds])
  have bu := body_of_issue hu hau (by simp [State.active, hau, h0u, h1u, hdu])
  rw [hin.canValue (p := .c) h0s, hin.canValue (p := .kn) h1s] at bu
  dsimp only at bs bu
  split at bs <;> rename_i hb
  · rw [if_pos hb] at bu
    exact .of_next bs bu ⟨hdu.trans hds.symm, rfl⟩
  · rw [if_neg hb] at bu
    exact .of_next bs bu ⟨rfl, rfl⟩

theorem fred_determined (hs : exec .fred s = .next t) (hu : exec .fred u = .next v)
    (cs : Completes .fred s t) (cu : Completes .fred u v) : Slot.Same .r t v := by
  obtain ⟨has, hds, hrs, -⟩ := cs
  obtain ⟨hau, hdu, hru, -⟩ := cu
  have bs := body_of_issue hs has (by simp [State.active, has, hds, hrs])
  have bu := body_of_issue hu hau (by simp [State.active, hau, hdu, hru])
  rw [hin.dValue hds, hin.surroundings.crom] at bu
  exact .of_next bs bu ⟨rfl, rfl⟩

/-- What a command leaves in its slot depends on its inputs alone (20_memory.md R66). -/
theorem Completes.slot_determined {i : Instr} {k : Slot} (hk : slotOf i = some k)
    (hs : exec i s = .next t) (hu : exec i u = .next v) (cs : Completes i s t)
    (cu : Completes i u v) : k.Same t v := by
  cases i
  case nop | start | fin | clr => cases hk
  case ldz =>
    cases hk
    exact ldz_determined hin hs hu cs cu
  case ladder =>
    cases hk
    exact ladder_determined hin hs hu cs cu
  case acc sel =>
    obtain ⟨src, hsel, rfl⟩ := Option.map_eq_some_iff.mp hk
    exact acc_determined hin hsel hs hu cs cu
  case red sel =>
    obtain ⟨src, hsel, rfl⟩ := Option.map_eq_some_iff.mp hk
    exact red_determined hin hsel hs hu cs cu
  case chk sel =>
    obtain ⟨j, hsel, rfl⟩ := Option.map_eq_some_iff.mp hk
    exact chk_determined hsel cs cu
  case canon sel =>
    obtain ⟨p, hsel, rfl⟩ := Option.map_eq_some_iff.mp hk
    exact canon_determined hin hsel hs hu cs cu
  case subx =>
    cases hk
    exact subx_determined hin hs hu cs cu
  case fred =>
    cases hk
    exact fred_determined hin hs hu cs cu

end Determined

/-! ## Both orders -/

/-- Command i, not CLR, completes on s with no race recorded, and leaves t. -/
structure RunsToEnd (i : Instr) (s t : State) : Prop where
  ne_clr : i ≠ .clr
  quiet : s.raced = []
  exec : exec i s = .next t
  completes : Completes i s t

theorem RunsToEnd.control {i : Instr} {s t : State} (h : RunsToEnd i s t) : KeepsControl i s t := by
  rcases h.completes.control with ⟨hi, -⟩ | ⟨-, hk⟩
  · exact absurd hi h.ne_clr
  · exact hk

theorem RunsToEnd.writesOnly {i : Instr} {s t : State} (h : RunsToEnd i s t) : WritesOnly i s t :=
  h.completes.writesOnly h.ne_clr

/-- With no race recorded ZIN is read as it is (log 3). -/
theorem seenZin_congr {s u : State} (hs : s.raced = []) (hu : u.raced = []) (hz : u.zin = s.zin) :
    u.seenZin = s.seenZin := by
  simp only [State.seenZin, State.seenZinWord, atInput_of_quiet hs, atInput_of_quiet hu, hz]

/-- A command leaves the inputs of the next one as they were. -/
theorem RunsToEnd.sameInputs {i : Instr} {s t : State} (h : RunsToEnd i s t) : SameInputs s t where
  surroundings := h.completes.sameSurroundings
  seenZin := seenZin_congr h.quiet h.control.raced h.writesOnly.zin
  progress := h.completes.keepsProgress h.ne_clr

/-- A command that ends in ACTIVE has completed: a terminal state stays, a fault rejects, CLR ends in IDLE
(10_state.md R23). -/
theorem runsToEnd_of_exec {i : Instr} {s t : State} (hs : s.raced = []) (h : exec i s = .next t)
    (ht : t.runstate = .active) : RunsToEnd i s t := by
  rcases exec_outcomes h with ⟨-, hterm, rfl⟩ | ⟨-, -, u, cause, info, -, rfl⟩ | hc
  · rw [State.ignoreWord_runstate] at ht
    simp [ht, RunState.terminal] at hterm
  · cases ht
  · rcases hc.control with ⟨-, rfl⟩ | ⟨hi, -⟩
    · cases ht
    · exact ⟨hi, hs, h, hc⟩

section BothOrders

variable {i j : Instr} {s si sij sj sji : State}

/-- The slot of i holds what i leaves there, whether i runs first or second. -/
theorem same_of_slotOf {k : Slot} (hk : slotOf i = some k) (hi : RunsToEnd i s si) (hij : RunsToEnd j si sij)
    (hj : RunsToEnd j s sj) (hji : RunsToEnd i sj sji) : k.Same sji sij := by
  have hkept : k.Same si sij :=
    hij.writesOnly.slot (slotOf_ne hi.completes hj.completes hij.completes hk)
  have hdet : k.Same si sji :=
    Completes.slot_determined hj.sameInputs hk hi.exec hji.exec hi.completes hji.completes
  exact hdet.symm.trans hkept

/-- Every slot is the same after both orders: the slot of i, the slot of j, and a slot of neither. -/
theorem same_of_both_orders (hi : RunsToEnd i s si) (hij : RunsToEnd j si sij) (hj : RunsToEnd j s sj)
    (hji : RunsToEnd i sj sji) (k : Slot) : k.Same sji sij := by
  by_cases hki : slotOf i = some k
  · exact same_of_slotOf hki hi hij hj hji
  by_cases hkj : slotOf j = some k
  · exact (same_of_slotOf hkj hj hji hi hij).symm
  have hij' : k.Same s sij := (hi.writesOnly.slot hki).trans (hij.writesOnly.slot hkj)
  have hji' : k.Same s sji := (hj.writesOnly.slot hkj).trans (hji.writesOnly.slot hki)
  exact hji'.symm.trans hij'

end BothOrders

/-- A register kept by source is known by its six parts. -/
theorem Source.vector_ext {α : Type} {v w : Vector α 6}
    (h : ∀ src : Source, v[src.index] = w[src.index]) : v = w := by
  ext k hk
  match k with
  | 0 => exact h .a
  | 1 => exact h .b
  | 2 => exact h .k
  | 3 => exact h .n
  | 4 => exact h .c
  | 5 => exact h .kn

/-- A register kept by product is known by its two parts. -/
theorem Product.vector_ext {α : Type} {v w : Vector α 2}
    (h : ∀ p : Product, v[p.index] = w[p.index]) : v = w := by
  ext k hk
  match k with
  | 0 => exact h .c
  | 1 => exact h .kn

/-- A register kept by identity is known by its two parts. -/
theorem Identity.vector_ext {α : Type} {v w : Vector α 2}
    (h : ∀ j : Identity, v[j.index] = w[j.index]) : v = w := by
  ext k hk
  match k with
  | 0 => exact h .ab
  | 1 => exact h .kn

/-- PROGRESS is the flags of the slots (10_state.md R44). -/
theorem progressWord_congr {s t : State} (h : ∀ k : Slot, k.Same s t) :
    t.progressWord = s.progressWord := by
  have hckst : t.ckst = s.ckst := Source.vector_ext fun src => (h (.ck src)).1
  have hchkok : t.chkok = s.chkok := Identity.vector_ext fun j => h (.chkok j)
  have hcanv : t.canv = s.canv := Product.vector_ext fun p => (h (.can p)).1
  simp only [State.progressWord, (h .z).1, (h .pl).1, hckst, hchkok, hcanv, (h .d).1, (h .r).1]

/-- Settles O38: both commands complete in both orders, which leaves every slot the same, PC two
further, and the rest as it was. -/
theorem independentCommandsCommute : Obligations.IndependentCommandsCommute := by
  intro i j s si sij sj sji hs ei eij ej eji ai aij aj aji
  have hi := runsToEnd_of_exec hs ei ai
  have hj := runsToEnd_of_exec hs ej aj
  have hij := runsToEnd_of_exec hi.control.raced eij aij
  have hji := runsToEnd_of_exec hj.control.raced eji aji
  have hk := same_of_both_orders hi hij hj hji
  have mij := hij.completes.sameSurroundings.wmem.trans hi.completes.sameSurroundings.wmem
  have mji := hji.completes.sameSurroundings.wmem.trans hj.completes.sameSurroundings.wmem
  refine ⟨(hk .z).2, (hk .pl).2, Source.vector_ext fun src => (hk (.ck src)).2,
    Product.vector_ext fun p => (hk (.can p)).2, (hk .d).2, (hk .r).2, progressWord_congr hk,
    ?_, ?_, mij.trans mji.symm, ?_, ?_⟩
  · rw [hij.writesOnly.pc, hi.writesOnly.pc, hji.writesOnly.pc, hj.writesOnly.pc]
  · rw [hij.control.err, hi.control.err, hji.control.err, hj.control.err]
  · rw [hij.writesOnly.wlen, hi.writesOnly.wlen, hji.writesOnly.wlen, hj.writesOnly.wlen]
  · rw [hij.writesOnly.zin, hi.writesOnly.zin, hji.writesOnly.zin, hj.writesOnly.zin]

end Sys2Proof.Machine
end

section
/-!
What an access of the host does, row by row (20_memory.md R50, R55, R57): to WMEM, WLEN and ZIN outside IDLE
(R58), to STATUS while a command runs (R61), and to what the running command reads (R56, R60).
-/

namespace Sys2Proof.Machine

/-! ## Refused and performed accesses (20_memory.md R55) -/

/-- The offset of a register is mapped (20_memory.md R48). -/
theorem PortReg.offset_mapped (reg : PortReg) : mappedOffset reg.offset :=
  (portReg_isSome reg.offset_aligned).mp (by rw [portReg_offset]; rfl)

/-- A read of a register is never refused (20_memory.md R55). -/
theorem not_refuses_read (s : State) (reg : PortReg) : ¬ s.Refuses ⟨.read, reg.offset, 32⟩ := by
  simp [State.Refuses, reg.offset_mapped, reg.offset_aligned]

/-- A write to CMD is never refused: a dropped one sets OVR (20_memory.md R55). -/
theorem not_refuses_cmd (s : State) (v : Word) : ¬ s.Refuses ⟨.write v, 0x1000, 32⟩ := by
  simp [State.Refuses, mappedOffset]

/-- A write to a register that the host may write now is not refused (20_memory.md R55). -/
theorem not_refuses_write {s : State} {reg : PortReg} (v : Word) (h : s.writable reg = true) :
    ¬ s.Refuses ⟨.write v, reg.offset, 32⟩ := by
  cases reg with
  | wmem k | wlen k =>
    have hidle : s.runstate = .idle := by simpa [State.writable] using h
    simp only [State.Refuses, mappedOffset, PortReg.offset, hidle, ne_eq, not_true_eq_false, and_false, false_or,
      or_false]
    omega
  | zin k =>
    simp only [State.writable, Bool.and_eq_true, Bool.not_eq_true'] at h
    obtain ⟨hlive, hz⟩ := h
    have hrow : ¬ (s.zv = true ∨ s.runstate = .accept ∨ s.runstate = .reject) := by
      rcases live_iff.mp hlive with hr | hr <;> simp [hz, hr]
    simp only [State.Refuses, mappedOffset, PortReg.offset, hrow, and_false, or_false]
    omega
  | _ => cases h

/-- A refused access has the one effect of a refusal (20_memory.md R55). -/
theorem hostAccess_of_refuses {s : State} {a : HostAccess} (h : s.Refuses a) :
    s.hostAccess a = s.refuseAccess a.kind := by
  rcases hostAccess_outcomes s a with ⟨-, he⟩ | ⟨reg, rfl, -⟩ | ⟨v, rfl, -⟩ | ⟨reg, v, rfl, hw, -⟩
  · exact he
  · exact absurd h (not_refuses_read s reg)
  · exact absurd h (not_refuses_cmd s v)
  · exact absurd h (not_refuses_write v hw)

/-- What a refusal leaves (20_memory.md R55). -/
theorem refuseAccess_eq (s : State) (kind : AccessKind) :
    s.refuseAccess kind = { s with berr := true, rdata := if kind = .read then 0 else s.rdata } := by
  cases kind <;> simp [State.refuseAccess]

/-- A performed access leaves BERR (20_memory.md R55). -/
theorem hostAccess_berr {s : State} {a : HostAccess} (h : ¬ s.Refuses a) :
    (s.hostAccess a).berr = s.berr := by
  rcases hostAccess_outcomes s a with ⟨hr, -⟩ | ⟨reg, -, he⟩ | ⟨v, -, he⟩ | ⟨reg, v, -, -, he⟩
  · exact absurd hr h
  all_goals
    rw [he]
    simp

/-- Settles O39: an access of the five rows is refused, any other is performed. -/
theorem refusedAccessesOnlySetBerr : Obligations.RefusedAccessesOnlySetBerr := by
  refine ⟨fun s a rest ht hr => ?_, fun s a rest ht hr => ⟨_, step_takes ht, hostAccess_berr hr⟩⟩
  rw [step_takes ht, hostAccess_of_refuses (s := { s with port := rest }) hr, refuseAccess_eq]

/-! ## Reads while a command runs (20_memory.md R61) -/

/-- A read of a register is `readReg` of it. -/
theorem hostAccess_readReg (s : State) (reg : PortReg) :
    s.hostAccess ⟨.read, reg.offset, 32⟩ = s.readReg reg := by
  simp [State.hostAccess, PortReg.offset_aligned, portReg_offset]

/-- STATUS is read as it stands, whether or not a command runs (20_memory.md R61). -/
theorem readReg_status (s : State) : s.readReg .status = { s with rdata := s.statusWord } := by
  simp [State.readReg, State.regValue]

/-- Any other register reads as a free value while a command runs (20_memory.md R61, log 5). -/
theorem readReg_busy {s : State} (hb : s.busy = true) {reg : PortReg} (hreg : reg ≠ .status) :
    s.readReg reg = { s with rdata := Config.busyRead s.draws, draws := s.draws + 1 } := by
  simp [State.readReg, hb, hreg]

/-- Two registers stand at two offsets (20_memory.md R48). -/
theorem PortReg.offset_injective : Function.Injective PortReg.offset := fun a b h =>
  Option.some_injective _ (by rw [← portReg_offset a, ← portReg_offset b, h])

/-- A mapped, aligned offset is that of a register (20_memory.md R48). -/
theorem exists_offset_eq {off : Nat} (hm : mappedOffset off) (h4 : off % 4 = 0) :
    ∃ reg : PortReg, off = reg.offset := by
  obtain ⟨reg, hreg⟩ := Option.isSome_iff_exists.mp ((portReg_isSome h4).mpr hm)
  exact ⟨reg, offset_of_portReg h4 hreg⟩

/-- Settles O41: STATUS is read as it stands, another register as a free value. -/
theorem readsWhileBusy : Obligations.ReadsWhileBusy := by
  intro s off rest hb ht hm h4
  obtain ⟨reg, rfl⟩ := exists_offset_eq hm h4
  rw [step_takes ht, hostAccess_readReg]
  refine ⟨fun hoff => ?_, fun hoff => ?_⟩
  · obtain rfl : reg = .status := PortReg.offset_injective hoff
    obtain ⟨-, hbusy, -, -, hovr, hberr, -⟩ := statusLayout.2 s
    refine ⟨by rw [readReg_status]; rfl, by rw [hbusy, hb], ?_, ?_⟩
    · rw [hovr, if_pos hb]
    · rw [hberr, if_pos hb]
  · have hne : reg ≠ .status := by
      rintro rfl
      exact hoff rfl
    exact ⟨_, by rw [readReg_busy (s := { s with port := rest }) hb hne]⟩

/-! ## Performed writes (20_memory.md R50, R57) -/

/-- A write to a register that the host may write now is stored. -/
theorem hostAccess_storeReg {s : State} {reg : PortReg} (v : Word) (h : s.writable reg = true) :
    s.hostAccess ⟨.write v, reg.offset, 32⟩ = s.storeReg reg v := by
  simp [State.hostAccess, PortReg.offset_aligned, portReg_offset, State.writeReg, writable_ne_cmd h, h]

/-- A race is noted exactly while a command runs (log 3). -/
theorem noteRace_if (s : State) (reg : PortReg) (w : Word) :
    s.noteRace reg w = { s with
      raced := if s.busy then (reg, w) :: s.raced else s.raced
      draws := if s.busy then s.draws + 1 else s.draws } := by
  unfold State.noteRace
  split <;> rfl

/-- Byte j of a word (20_memory.md R49). -/
theorem ofNat_byte (v : Word) (j : Nat) :
    BitVec.ofNat 8 (v.toNat / 2 ^ (8 * j)) = v.extractLsb' (8 * j) 8 := by
  rw [BitVec.extractLsb', Nat.shiftRight_eq_div_pow]

/-- Settles O42: each of the three writes is performed and stores its word. -/
theorem hostWritesLand : Obligations.HostWritesLand := by
  refine ⟨fun s k v rest ht hidle => ⟨Memory.storeLE s.wmem (4 * k) v.toNat 4, ?_, fun a => ?_⟩,
    fun s k v rest ht hidle => ?_, fun s k v rest ht hlive hz => ?_⟩
  · rw [step_takes ht]
    exact congrArg _ (hostAccess_storeReg (reg := .wmem k) v (by simp [State.writable, hidle]))
  · exact (State.wmemByte_storeLE s (4 * k) v.toNat 4 a).trans (by rw [ofNat_byte])
  · rw [step_takes ht]
    refine congrArg _ ((hostAccess_storeReg (reg := .wlen k) v (by simp [State.writable, hidle])).trans ?_)
    exact noteRace_if _ _ _
  · rw [step_takes ht]
    refine congrArg _ ((hostAccess_storeReg (reg := .zin k) v ?_).trans (noteRace_if _ _ _))
    simp [State.writable, hz, live_iff.mpr hlive]

/-! ## The frozen witness (20_memory.md R58) -/

/-- The host writes WLEN in IDLE alone (20_memory.md R55 row 4). -/
theorem storeReg_wlen {s : State} {reg : PortReg} (v : Word) (h : s.writable reg = true)
    (hidle : s.runstate ≠ .idle) : (s.storeReg reg v).wlen = s.wlen := by
  cases reg with
  | wlen k => simp [State.writable, hidle] at h
  | zin k =>
    simp only [State.storeReg]
    rw [noteRace_eq]
  | _ => rfl

/-- The host writes ZIN before LDZ alone (20_memory.md R55 row 5). -/
theorem storeReg_zin {s : State} {reg : PortReg} (v : Word) (h : s.writable reg = true)
    (hz : s.zv = true) : (s.storeReg reg v).zin = s.zin := by
  cases reg with
  | zin k => simp [State.writable, hz] at h
  | wlen k =>
    simp only [State.storeReg]
    rw [noteRace_eq]
  | _ => rfl

/-- Every access but a store leaves WMEM, WLEN and ZIN, and notes no race: at most it empties the record, with
a command word that is accepted (log 3). -/
theorem hostAccess_inputs (s : State) (a : HostAccess) :
    ((s.hostAccess a).wmem = s.wmem ∧ (s.hostAccess a).wlen = s.wlen ∧
      (s.hostAccess a).zin = s.zin ∧
      ((s.hostAccess a).raced = s.raced ∨ (s.hostAccess a).raced = [])) ∨
    ∃ (reg : PortReg) (v : Word), s.writable reg = true ∧ s.hostAccess a = s.storeReg reg v := by
  rcases hostAccess_outcomes s a with ⟨-, h⟩ | ⟨reg, -, h⟩ | ⟨w, -, h⟩ | ⟨reg, v, -, hw, h⟩
  · rw [h, refuseAccess_eq]
    exact .inl ⟨rfl, rfl, rfl, .inl rfl⟩
  · rw [h, State.readReg]
    split <;> exact .inl ⟨rfl, rfl, rfl, .inl rfl⟩
  · rw [h, State.writeCmd]
    split
    · exact .inl ⟨rfl, rfl, rfl, .inl rfl⟩
    · split
      · exact .inl ⟨rfl, rfl, rfl, .inl rfl⟩
      · exact .inl ⟨rfl, rfl, rfl, .inr rfl⟩
  · exact .inr ⟨reg, v, hw, h⟩

/-- No access changes WLEN outside IDLE (20_memory.md R58). -/
theorem hostAccess_wlen {s : State} (hidle : s.runstate ≠ .idle) (a : HostAccess) :
    (s.hostAccess a).wlen = s.wlen := by
  rcases hostAccess_inputs s a with ⟨-, h, -, -⟩ | ⟨reg, v, hw, h⟩
  · exact h
  · rw [h, storeReg_wlen v hw hidle]

/-- No access changes ZIN once Z is loaded (20_memory.md R55). -/
theorem hostAccess_zin {s : State} (hz : s.zv = true) (a : HostAccess) :
    (s.hostAccess a).zin = s.zin := by
  rcases hostAccess_inputs s a with ⟨-, -, h, -⟩ | ⟨reg, v, hw, h⟩
  · exact h
  · rw [h, storeReg_zin v hw hz]

/-- The word that runs changes registers alone. -/
theorem runCommand_sameSurroundings {s t : State} (h : runCommand s = .next t) :
    SameSurroundings s t := by
  rcases runCommand_cases h with ⟨i, -, he⟩ | ⟨e, -, rfl⟩
  · exact exec_sameSurroundings he
  · unfold State.illegalCommand
    split
    · exact .ignoreWord s
    · exact .raise {} _ _ _

/-- The word that runs, unless it is CLR, leaves WLEN and ZIN (20_memory.md R58). -/
theorem runCommand_inputs {s t : State} (h : runCommand s = .next t) (hi : decode s.cmd ≠ .ok .clr) :
    t.wlen = s.wlen ∧ t.zin = s.zin := by
  rcases runCommand_outcomes h with ⟨-, rfl⟩ | ⟨-, i, u, cause, info, hu, rfl⟩ | ⟨i, hd, -, hc⟩
  · exact ⟨rfl, rfl⟩
  · rcases hu with rfl | ⟨-, -, d, cf, rfl⟩ | ⟨p, -, carry, rfl⟩ <;> exact ⟨rfl, rfl⟩
  · have hw : WritesOnly i s t := hc.writesOnly (by rintro rfl; exact hi hd)
    exact ⟨hw.wlen, hw.zin⟩

/-- Settles O35: outside IDLE the host may not write the witness, and no command does. -/
theorem witnessIsFrozenOutsideIdle : Obligations.WitnessIsFrozenOutsideIdle := by
  intro s t h hidle hs
  rcases step_outcomes h with rfl | ⟨rest, hp, -⟩ | ⟨a, rest, -, rfl⟩ | ⟨hruns, hr⟩
  · exact ⟨fun _ => rfl, rfl, rfl, fun _ => rfl⟩
  · exact absurd (.inr (by rw [hp]; rfl)) hs
  · have hmem := (hostAccess_wmem { s with port := rest } a).resolve_right fun h => hidle h.1
    have hframe := hostAccess_eq { s with port := rest } a
    exact ⟨State.wmemByte_congr hmem (by rw [hframe]),
      hostAccess_wlen (s := { s with port := rest }) hidle a, by rw [hframe],
      fun hz => hostAccess_zin (s := { s with port := rest }) hz a⟩
  · have hsame := runCommand_sameSurroundings hr
    obtain ⟨hwlen, hzin⟩ := runCommand_inputs hr fun hi => hs (.inl ⟨hruns, hi⟩)
    exact ⟨hsame.wmemByte, hwlen, hsame.crom, fun _ => hzin⟩

/-! ## STATUS while a command runs (20_memory.md R61) -/

/-- STATUS depends on seven fields. -/
theorem statusWord_congr {s t : State} (hrun : t.runstate = s.runstate) (hbusy : t.busy = s.busy)
    (hcf : t.cf = s.cf) (herr : t.err = s.err) (hovr : t.shownOvr = s.shownOvr)
    (hberr : t.shownBerr = s.shownBerr) : t.statusWord = s.statusWord := by
  simp only [State.statusWord, hrun, hbusy, hcf, herr, hovr, hberr]

/-- Accepting a word sets bit 2 of STATUS alone: OVR and BERR are kept to be shown (log 4). -/
theorem accept_statusWord {s : State} (hb : s.busy = false) (w : Word) :
    (s.accept w).statusWord = s.statusWord ||| 0x00000004 := by
  have hbit : (0x00000004 : Word) =
      0#22 ++ BitVec.ofBool false ++ BitVec.ofBool false ++ 0#4 ++ BitVec.ofBool false ++
        BitVec.ofBool true ++ 0#2 := rfl
  simp only [State.statusWord, State.shownOvr, State.shownBerr, hb]
  rw [hbit]
  repeat rw [BitVec.or_append]
  simp

/-- A word written to CMD that sets BUSY has been accepted (30_encoding.md R72). -/
theorem writeCmd_of_busy {s : State} {w : Word} (hb : s.busy = false)
    (h : (s.writeCmd w).busy = true) : s.writeCmd w = s.accept w := by
  unfold State.writeCmd at h ⊢
  simp only [hb, Bool.false_eq_true, if_false] at h ⊢
  split
  · rename_i hignored
    simp [hignored, hb] at h
  · rfl

/-- A word written at CMD's offset. -/
theorem hostAccess_writeCmd (s : State) (w : Word) :
    s.hostAccess ⟨.write w, 0x1000, 32⟩ = s.writeCmd w := by
  simp [State.hostAccess, portReg, State.writeReg]

/-- Whatever the host does while a command runs, BUSY stays 1 and so does what STATUS shows of OVR and
BERR. -/
theorem hostAccess_busy {s : State} (hb : s.busy = true) (a : HostAccess) :
    (s.hostAccess a).busy = true ∧ (s.hostAccess a).ovrBefore = s.ovrBefore ∧
    (s.hostAccess a).berrBefore = s.berrBefore := by
  rcases hostAccess_outcomes s a with ⟨-, h⟩ | ⟨reg, -, h⟩ | ⟨w, -, h⟩ | ⟨reg, v, -, -, h⟩ <;> rw [h]
  · rw [refuseAccess_eq]
    exact ⟨hb, rfl, rfl⟩
  · unfold State.readReg
    split <;> exact ⟨hb, rfl, rfl⟩
  · simp [State.writeCmd, hb]
  · rw [storeReg_eq]
    exact ⟨hb, rfl, rfl⟩

/-- An access while a command runs leaves STATUS (20_memory.md R61). -/
theorem hostAccess_statusWord {s : State} (hb : s.busy = true) (a : HostAccess) :
    (s.hostAccess a).statusWord = s.statusWord := by
  obtain ⟨hbusy, hovr, hberr⟩ := hostAccess_busy hb a
  have hframe := hostAccess_eq s a
  refine statusWord_congr (by rw [hframe]) (hbusy.trans hb.symm) (by rw [hframe]) (by rw [hframe]) ?_ ?_
  · simp [State.shownOvr, hb, hbusy, hovr]
  · simp [State.shownBerr, hb, hbusy, hberr]

/-- Settles O52: acceptance sets bit 2, and until the word runs only an access can come. -/
theorem statusStandsStillWhileACommandRuns : Obligations.StatusStandsStillWhileACommandRuns := by
  refine ⟨fun s t w rest ht hb h hbusy => ?_, fun s t hb hruns hreset h => ?_⟩
  · rw [step_takes ht] at h
    injection h with h
    rw [hostAccess_writeCmd] at h
    subst h
    rw [writeCmd_of_busy (s := { s with port := rest }) hb hbusy]
    exact accept_statusWord (s := { s with port := rest }) hb w
  · rcases step_outcomes h with rfl | ⟨rest, hp, -⟩ | ⟨a, rest, -, rfl⟩ | ⟨hr, -⟩
    · exact ⟨hb, rfl⟩
    · exact absurd (by rw [hp]; rfl) hreset
    · exact ⟨(hostAccess_busy (s := { s with port := rest }) hb a).1,
        hostAccess_statusWord (s := { s with port := rest }) hb a⟩
    · exact absurd hr hruns

/-! ## WLEN and ZIN as the running command reads them (20_memory.md R56, R60, R61, log 3) -/

/-- The registers whose writes race with a running command (log 3). -/
def PortReg.IsInput (reg : PortReg) : Prop := (∃ k, reg = .wlen k) ∨ ∃ k, reg = .zin k

/-- A write of one word of an array leaves a word of it, or is of that word. -/
theorem getElem_set_or {n : Nat} (words : Vector Word n) (l k : Fin n) (w : Word) :
    (words.set l w)[k] = words[k] ∨ (l = k ∧ (words.set l w)[k] = w) := by
  by_cases hl : l = k
  · subst hl
    exact .inr ⟨rfl, by simp⟩
  · have hne : (l : Nat) ≠ k := fun h => hl (Fin.ext h)
    exact .inl (by simp [hne])

/-- Taking one write back leaves an input as it is, or puts the displaced word back. -/
theorem takeBack_regValue (s : State) (write : PortReg × Word) {reg : PortReg} (hreg : reg.IsInput) :
    (s.takeBack write).regValue reg = s.regValue reg ∨
      write = (reg, (s.takeBack write).regValue reg) := by
  obtain ⟨other, w⟩ := write
  rcases hreg with ⟨k, rfl⟩ | ⟨k, rfl⟩
  · cases other with
    | wlen l =>
      rcases getElem_set_or s.wlen l k w with h | ⟨rfl, h⟩
      · exact .inl h
      · exact .inr (congrArg (Prod.mk _) h.symm)
    | _ => exact .inl rfl
  · cases other with
    | zin l =>
      rcases getElem_set_or s.zin l k w with h | ⟨rfl, h⟩
      · exact .inl h
      · exact .inr (congrArg (Prod.mk _) h.symm)
    | _ => exact .inl rfl

/-- However many writes are taken back, an input holds its word or one that was displaced. -/
theorem takeBackLatest_regValue {reg : PortReg} (hreg : reg.IsInput)
    (writes : List (PortReg × Word)) (s : State) (n : Nat) :
    (s.takeBackLatest writes n).regValue reg = s.regValue reg ∨
      (reg, (s.takeBackLatest writes n).regValue reg) ∈ writes := by
  induction writes generalizing s n with
  | nil => exact .inl rfl
  | cons write earlier ih =>
    unfold State.takeBackLatest
    split
    · exact .inl rfl
    · rcases ih (s.takeBack write) (n - 1) with h | h
      · rw [h]
        exact (takeBack_regValue s write hreg).imp_right fun he => List.mem_cons.mpr (.inl he.symm)
      · exact .inr (List.mem_cons_of_mem _ h)

/-- After one write the inputs are read with it, or with it taken back. -/
theorem atInput_of_one_race {t : State} {write : PortReg × Word} (h : t.raced = [write]) :
    t.atInput = t ∨ t.atInput = t.takeBack write := by
  unfold State.atInput
  rw [h, State.takeBackLatest]
  split
  · exact .inl rfl
  · exact .inr rfl

/-- A store while a command runs notes no race, or the one whose taking back gives the inputs back. -/
theorem storeReg_raced {s : State} (hb : s.busy = true) (hr : s.raced = []) (reg : PortReg) (v : Word) :
    (s.storeReg reg v).raced = [] ∨ ∃ write, (s.storeReg reg v).raced = [write] ∧
      ((s.storeReg reg v).takeBack write).wlen = s.wlen ∧
      ((s.storeReg reg v).takeBack write).zin = s.zin := by
  cases reg with
  | wlen k =>
    refine .inr ⟨(.wlen k, s.wlen[k]), ?_⟩
    simp [State.storeReg, noteRace_if, hb, hr, State.takeBack]
  | zin k =>
    refine .inr ⟨(.zin k, s.zin[k]), ?_⟩
    simp [State.storeReg, noteRace_if, hb, hr, State.takeBack]
  | _ => exact .inl hr

/-- After the first access that falls into a command, it reads its inputs as they are now or as they were
before (20_memory.md R60, R61). -/
theorem hostAccess_atInput {s : State} (hb : s.busy = true) (hr : s.raced = []) (a : HostAccess) :
    (s.hostAccess a).atInput = s.hostAccess a ∨
    ((s.hostAccess a).atInput.wlen = s.wlen ∧ (s.hostAccess a).atInput.zin = s.zin) := by
  rcases hostAccess_inputs s a with ⟨-, -, -, hraced⟩ | ⟨reg, v, -, h⟩
  · refine .inl (atInput_of_quiet ?_)
    rcases hraced with h | h
    · exact h.trans hr
    · exact h
  · rw [h]
    rcases storeReg_raced hb hr reg v with hnone | ⟨write, hone, hwlen, hzin⟩
    · exact .inl (atInput_of_quiet hnone)
    · rcases atInput_of_one_race hone with hafter | hbefore
      · exact .inl hafter
      · exact .inr (by rw [hbefore]; exact ⟨hwlen, hzin⟩)

/-- Settles O53: a word read is the register's own or a displaced one, and after one access all words are of
one moment. -/
theorem writesDuringACommandAreSeenWholeOrNot :
    Obligations.WritesDuringACommandAreSeenWholeOrNot := by
  refine ⟨fun s k => takeBackLatest_regValue (reg := .wlen k) (.inl ⟨k, rfl⟩) _ s _,
    fun s k => takeBackLatest_regValue (reg := .zin k) (.inr ⟨k, rfl⟩) _ s _,
    fun s t a rest ht hb hr h => ?_⟩
  rw [step_takes ht] at h
  injection h with h
  subst h
  unfold State.seenWlen State.seenZinWord
  rcases hostAccess_atInput (s := { s with port := rest }) hb hr a with h | ⟨hwlen, hzin⟩
  · rw [h]
    exact .inr ⟨fun _ => rfl, fun _ => rfl⟩
  · rw [hwlen, hzin]
    exact .inl ⟨fun _ => rfl, fun _ => rfl⟩

end Sys2Proof.Machine
end

section
/-!
The decoder as the inverse of the encoder (30_encoding.md R68 to R71): the words that decode are the words of
the well-formed commands, which are 24, and their fields say so as numbers.
-/

namespace Sys2Proof

/-- The fields of the word of every command (30_encoding.md R68). -/
theorem fields_encode (i : Instr) :
    opField (encode i) = i.opcode ∧ selField (encode i) = i.selector ∧ zeroField (encode i) = 0 := by
  cases i with
  | nop => exact Laws.EncodingFields.nop
  | start => exact Laws.EncodingFields.start
  | ldz => exact Laws.EncodingFields.ldz
  | ladder => exact Laws.EncodingFields.ladder
  | acc sel => exact Laws.EncodingFields.acc sel
  | red sel => exact Laws.EncodingFields.red sel
  | chk sel => exact Laws.EncodingFields.chk sel
  | canon sel => exact Laws.EncodingFields.canon sel
  | subx => exact Laws.EncodingFields.subx
  | fred => exact Laws.EncodingFields.fred
  | fin => exact Laws.EncodingFields.fin
  | clr => exact Laws.EncodingFields.clr

/-- The word of a command decodes to it, or its selector is out of range (30_encoding.md R69, R70). -/
theorem decode_encode (i : Instr) :
    decode (encode i) = if i.WellFormed then .ok i else .error .selectorOutOfRange := by
  obtain ⟨hop, hsel, hzero⟩ := fields_encode i
  cases i with
  | acc sel | red sel | chk sel | canon sel =>
    simp [decode, hop, hsel, hzero, Instr.opcode, Instr.selector, formatS, Instr.WellFormed,
      Instr.wellFormed]
  | _ => simp [decode, hop, hsel, hzero, Instr.opcode, Instr.selector, formatN, Instr.wellFormed]

/-- The words that decode are the words of the well-formed commands (30_encoding.md R70). -/
theorem decode_eq_ok_iff {w : Word} {i : Instr} :
    decode w = .ok i ↔ i.WellFormed ∧ encode i = w := by
  constructor
  · intro h
    obtain rfl := encode_of_decode h
    rw [decode_encode] at h
    split at h
    · exact ⟨‹_›, rfl⟩
    · cases h
  · rintro ⟨hwf, rfl⟩
    rw [decode_encode, if_pos hwf]

/-- Settles O1: both directions are `decode_eq_ok_iff`. -/
theorem decodeAndEncodeAgree : Obligations.DecodeAndEncodeAgree :=
  ⟨fun _ hwf => decode_eq_ok_iff.mpr ⟨hwf, rfl⟩, fun _ _ h => decode_eq_ok_iff.mp h⟩

/-- Settles O2: each word is the word of its command. -/
theorem writtenOutWordsDecode : Obligations.WrittenOutWordsDecode :=
  ⟨decode_eq_ok_iff.mpr ⟨rfl, rfl⟩, decode_eq_ok_iff.mpr ⟨rfl, rfl⟩,
    decode_eq_ok_iff.mpr ⟨rfl, rfl⟩, decode_eq_ok_iff.mpr ⟨rfl, rfl⟩,
    decode_eq_ok_iff.mpr ⟨rfl, rfl⟩, decode_eq_ok_iff.mpr ⟨rfl, rfl⟩,
    decode_eq_ok_iff.mpr ⟨rfl, rfl⟩, decode_eq_ok_iff.mpr ⟨rfl, rfl⟩⟩

/-! ## The fields of a word that decodes, as numbers -/

theorem opField_toNat (w : Word) : (opField w).toNat = w.toNat % 256 := by
  simp [opField]

theorem selField_toNat (w : Word) : (selField w).toNat = w.toNat / 256 % 8 := by
  simp [selField, Nat.shiftRight_eq_div_pow]

theorem zeroField_toNat (w : Word) : (zeroField w).toNat = w.toNat / 2 ^ 11 := by
  have hw := w.isLt
  simp only [zeroField, BitVec.extractLsb'_toNat, Nat.shiftRight_eq_div_pow]
  omega

/-- The fields of a legal word: nothing above the selector, an assigned opcode, and a selector in the range of
that opcode (30_encoding.md R67 to R69). -/
def LegalFields (high sel op : Nat) : Prop :=
  high = 0 ∧ (((op ≤ 3 ∨ 8 ≤ op ∧ op ≤ 11) ∧ sel = 0) ∨ ((op = 4 ∨ op = 5) ∧ sel ≤ 5) ∨
    ((op = 6 ∨ op = 7) ∧ sel ≤ 1))

theorem exists_formatN_ok {sel : BitVec 3} {i : Instr} :
    (∃ j, formatN sel i = .ok j) ↔ sel.toNat = 0 := by
  unfold formatN
  split <;> simp_all [← BitVec.toNat_inj]

theorem exists_formatS_ok {sel : BitVec 3} {limit : Nat} {i : BitVec 3 → Instr} :
    (∃ j, formatS sel limit i = .ok j) ↔ sel.toNat ≤ limit := by
  unfold formatS
  split <;> simp_all

/-- `Decode` accepts a word by its fields, opcode by opcode (30_encoding.md R70). -/
theorem exists_decode_ok_iff (w : Word) :
    (∃ i, decode w = .ok i) ↔
      LegalFields (w.toNat / 2 ^ 11) (w.toNat / 256 % 8) (w.toNat % 256) := by
  rw [← zeroField_toNat, ← selField_toNat, ← opField_toNat]
  unfold decode LegalFields
  split
  case isTrue hz =>
    have hne : (zeroField w).toNat ≠ 0 := fun h => hz (BitVec.eq_of_toNat_eq h)
    simp [hne]
  case isFalse hz =>
    rw [not_not] at hz
    dsimp only
    split
    case h_5 hop | h_6 hop | h_7 hop | h_8 hop => simp [exists_formatS_ok, hz, hop]
    case h_13 =>
      simp only [reduceCtorEq, exists_false, false_iff]
      simp only [imp_false] at *
      omega
    all_goals
      rename_i hop
      simp [exists_formatN_ok, hz, hop]

/-! ## The 24 legal words -/

/-- The selectors in range, from 0 up to 5 (30_encoding.md R69). -/
def sourceSelectors : List (BitVec 3) := [0, 1, 2, 3, 4, 5]

/-- The well-formed commands, in the order of their opcodes (30_encoding.md R67, R69). -/
def legalCommands : List Instr :=
  [.nop, .start, .ldz, .ladder] ++ sourceSelectors.map .acc ++ sourceSelectors.map .red ++
    [.chk 0, .chk 1, .canon 0, .canon 1, .subx, .fred, .fin, .clr]

theorem mem_legalCommands {i : Instr} : i ∈ legalCommands ↔ i.WellFormed := by
  cases i with
  | acc sel | red sel | chk sel | canon sel => revert sel; decide
  | _ => decide

/-- Two commands with one word are one command, which that word decodes to. -/
theorem nodup_legalWords : (legalCommands.map encode).Nodup := by
  have hnodup : legalCommands.Nodup := by decide
  refine hnodup.map_on fun i hi j hj heq => ?_
  have hdec : decode (encode j) = .ok i := decode_eq_ok_iff.mpr ⟨mem_legalCommands.mp hi, heq⟩
  rw [decode_encode, if_pos (mem_legalCommands.mp hj)] at hdec
  injection hdec with hdec
  exact hdec.symm

theorem mem_legalWords {w : Word} : w ∈ legalCommands.map encode ↔ ∃ i, decode w = .ok i := by
  simp only [List.mem_map, mem_legalCommands, decode_eq_ok_iff]

/-- Settles O3: the list is that of the words of the well-formed commands; the number of a word follows from its
fields. -/
theorem legalWordsAreExactlyTwentyFour : Obligations.LegalWordsAreExactlyTwentyFour := by
  refine ⟨legalCommands.map encode, nodup_legalWords, rfl, fun _ => mem_legalWords.symm, fun w => ?_⟩
  rw [mem_legalWords, exists_decode_ok_iff]
  unfold LegalFields
  constructor
  · intro h
    by_cases h4 : w.toNat % 256 = 4
    · exact .inr (.inl ⟨w.toNat / 256 % 8, by omega, by omega⟩)
    by_cases h5 : w.toNat % 256 = 5
    · exact .inr (.inr (.inl ⟨w.toNat / 256 % 8, by omega, by omega⟩))
    omega
  · rintro (h | ⟨s, hs, h⟩ | ⟨s, hs, h⟩ | h) <;> omega

end Sys2Proof
end

section
/-!
What the sequencer does with a command word (30_encoding.md R71, R72): its acceptance, the step that runs it,
and what a terminal state ignores.
-/

namespace Sys2Proof.Machine

/-! ## Running the accepted word (30_encoding.md R72 step 3) -/

theorem runCommand_of_decode {s : State} {i : Instr} (h : decode s.cmd = .ok i) :
    runCommand s = exec i s := by
  simp [runCommand, h]

theorem runCommand_of_illegal {s : State} (h : ∀ i, decode s.cmd ≠ .ok i) :
    runCommand s = .next (s.illegalCommand s.cmd) := by
  unfold runCommand
  split
  · exact absurd ‹_› (h _)
  · rfl

/-- In a terminal state the word that runs is ignored, unless it is CLR (30_encoding.md R72 step 2). -/
theorem runCommand_terminal {s : State} (ht : s.runstate.terminal = true)
    (h : decode s.cmd ≠ .ok .clr) : runCommand s = .next s.ignoreWord := by
  by_cases hill : ∃ i, decode s.cmd = .ok i
  · obtain ⟨i, hi⟩ := hill
    rw [runCommand_of_decode hi, exec_terminal (by rintro rfl; exact h hi) ht]
  · rw [runCommand_of_illegal (not_exists.mp hill), illegalCommand_terminal ht]

/-- Settles O4: the step that runs a word is `runCommand`, which is `exec` of the command it decodes to. -/
theorem stepRunsTheDecodedCommand : Obligations.StepRunsTheDecodedCommand := by
  intro s i hruns hi
  rw [step_of_runs hruns, runCommand_of_decode hi]

/-- Settles O5: a word that does not decode raises in a state that is not terminal; R71's list is of the words
with other fields than a legal word has. -/
theorem illegalWordIsRejected : Obligations.IllegalWordIsRejected := by
  refine ⟨fun s hruns hlive hill => ?_, fun w => ?_⟩
  · rw [step_of_runs hruns, runCommand_of_illegal hill, illegalCommand_live (live_iff.mpr hlive)]
  · rw [← not_exists, exists_decode_ok_iff]
    simp only [LegalFields, List.mem_cons, List.not_mem_nil, or_false]
    omega

/-! ## A host write to CMD (30_encoding.md R72 steps 1 to 3) -/

theorem writeCmd_dropped {s : State} (w : Word) (hb : s.busy = true) :
    s.writeCmd w = { s with ovr := true } := by
  simp [State.writeCmd, hb]

theorem writeCmd_ignored {s : State} {w : Word} (hb : s.busy = false)
    (ht : s.runstate.terminal = true) (hw : decode w ≠ .ok .clr) : s.writeCmd w = s := by
  have hclr : isClr w = false := Bool.eq_false_iff.mpr (mt (isClr_iff w).mp hw)
  simp [State.writeCmd, hb, ht, hclr]

theorem writeCmd_accepted {s : State} {w : Word} (hb : s.busy = false)
    (h : s.runstate.terminal = false ∨ decode w = .ok .clr) : s.writeCmd w = s.accept w := by
  rcases h with ht | hw
  · simp [State.writeCmd, hb, ht]
  · simp [State.writeCmd, hb, (isClr_iff w).mpr hw]

/-- Settles O6: the step is the write to CMD, with the three outcomes of R72. -/
theorem commandWordAcceptance : Obligations.CommandWordAcceptance := by
  intro s w rest ht
  rw [step_takes ht, hostAccess_writeCmd]
  refine ⟨fun hb => ?_, fun hb hterm hw => ?_, fun hb h => ?_⟩
  · rw [writeCmd_dropped (s := { s with port := rest }) w hb]
  · rw [writeCmd_ignored (s := { s with port := rest }) hb hterm hw]
  · rw [writeCmd_accepted (s := { s with port := rest }) hb h]
    rfl

/-! ## Terminal states (10_state.md R28, 60_exceptions.md R121) -/

/-- Settles O8: with `exec_terminal`; `ignoreWord` clears BUSY and the record of races alone. -/
theorem terminalStateIgnoresEveryCommandButClr :
    Obligations.TerminalStateIgnoresEveryCommandButClr :=
  fun _ _ hi ht => exec_terminal hi ht

/-- In a terminal state the host may write no register but CMD (20_memory.md R55). -/
theorem not_writable_of_terminal {s : State} (ht : s.runstate.terminal = true) (reg : PortReg) :
    s.writable reg = false := by
  have hidle : s.runstate ≠ .idle := fun h => by simp [terminal_of_idle h] at ht
  cases reg <;> simp [State.writable, ht, hidle]

/-- In a terminal state no access changes WMEM, WLEN or ZIN. -/
theorem hostAccess_terminal {s : State} (ht : s.runstate.terminal = true) (a : HostAccess) :
    (s.hostAccess a).wmem = s.wmem ∧ (s.hostAccess a).wlen = s.wlen ∧
      (s.hostAccess a).zin = s.zin := by
  rcases hostAccess_inputs s a with ⟨hmem, hwlen, hzin, -⟩ | ⟨reg, v, hw, -⟩
  · exact ⟨hmem, hwlen, hzin⟩
  · simp [not_writable_of_terminal ht] at hw

/-- Settles O34: in a terminal state an access writes neither the witness nor an input, and a word other than
CLR is ignored. -/
theorem terminalStateIsFrozen : Obligations.TerminalStateIsFrozen := by
  intro s t h ht hs
  rcases step_outcomes h with rfl | ⟨rest, hp, -⟩ | ⟨a, rest, -, rfl⟩ | ⟨hruns, hr⟩
  · rfl
  · exact absurd (.inr (by rw [hp]; rfl)) hs
  · obtain ⟨hmem, hwlen, hzin⟩ := hostAccess_terminal (s := { s with port := rest }) ht a
    have hframe := hostAccess_eq { s with port := rest } a
    rw [hmem, hwlen, hzin] at hframe
    rw [hframe]
  · rw [runCommand_terminal ht fun hi => hs (.inl ⟨hruns, hi⟩)] at hr
    injection hr with hr
    subst hr
    rfl

/-! ## Selectors that name nothing (30_encoding.md R69, log 13) -/

theorem Source.ofSel_eq_none {sel : BitVec 3} : Source.ofSel sel = none ↔ ¬ sel.toNat ≤ 5 := by
  revert sel
  decide

theorem Identity.ofSel_eq_none {sel : BitVec 3} : Identity.ofSel sel = none ↔ ¬ sel.toNat ≤ 1 := by
  revert sel
  decide

theorem Product.ofSel_eq_none {sel : BitVec 3} : Product.ofSel sel = none ↔ ¬ sel.toNat ≤ 1 := by
  revert sel
  decide

/-- A command whose selector names nothing does what a word that does not decode does. -/
theorem exec_of_not_wellFormed {i : Instr} (h : ¬ i.WellFormed) (s : State) :
    exec i s = .next (s.illegalCommand (encode i)) := by
  cases i with
  | acc sel =>
    have hsel := Source.ofSel_eq_none.mpr (by simpa [Instr.wellFormed] using h)
    simp [exec, execAcc, hsel]
  | red sel =>
    have hsel := Source.ofSel_eq_none.mpr (by simpa [Instr.wellFormed] using h)
    simp [exec, execRed, hsel]
  | chk sel =>
    have hsel := Identity.ofSel_eq_none.mpr (by simpa [Instr.wellFormed] using h)
    simp [exec, execChk, hsel]
  | canon sel =>
    have hsel := Product.ofSel_eq_none.mpr (by simpa [Instr.wellFormed] using h)
    simp [exec, execCanon, hsel]
  | _ => exact absurd rfl h

/-- Settles O9: in a state that is not terminal, what such a command does is to raise. -/
theorem selectorOutOfRangeIsIllegal : Obligations.SelectorOutOfRangeIsIllegal := by
  intro i s h ht
  rw [exec_of_not_wellFormed h, illegalCommand_live ht]

end Sys2Proof.Machine
end

section
/-!
The challenge load and the power ladder as commands (41_challenge_ladder.md R86 to R88): what LDZ and LADDER
answer when their Requires line holds, and that they answer SequenceError when it does not.
-/

namespace Sys2Proof.Machine

/-! ## The Requires lines -/

/-- A command whose order test is its Requires line faults when that line does not hold
(60_exceptions.md R118). -/
theorem issue_of_not_requires {i : Instr} {s : State} {req : Bool} {body : Result}
    (hreq : req = true ↔ Requires i s) (ht : s.runstate.terminal = false) (hn : ¬ Requires i s) :
    issue i s req body = .next (s.raise .sequenceError 0 (encode i)) :=
  issue_sequenceError ht (Bool.eq_false_iff.mpr (mt hreq.mp hn))

theorem ldz_test_iff (s : State) : (s.active && !s.zv) = true ↔ Requires .ldz s := by
  simp [Requires, active_iff]

theorem ladder_test_iff (s : State) :
    (s.active && s.zv && !s.plv) = true ↔ Requires .ladder s := by
  simp [Requires, active_iff, and_assoc]

/-! ## LDZ (41_challenge_ladder.md R86) -/

/-- A number of narrow words is the sum of its weighted words (00_scope.md R13). -/
theorem ofWords_eq_sum (f : Nat → Word) (n : Nat) :
    ofWords f n = ∑ k ∈ Finset.range n, (f k).toNat * 2 ^ (32 * k) := by
  induction n with
  | zero => rfl
  | succ n ih => rw [ofWords, ih, Finset.sum_range_succ]

/-- With no write during the run, LDZ reads the eight words the host wrote (10_state.md R31). -/
theorem seenZin_of_quiet {s : State} (h : s.raced = []) :
    s.seenZin = ∑ k : Fin 8, s.zin[k].toNat * 2 ^ (32 * k.val) := by
  rw [State.seenZin, ofWords_eq_sum, Finset.sum_range]
  simp [State.seenZinWord, h]

theorem seenZin_lt (s : State) : s.seenZin < 2 ^ 256 := ofWords_lt _ 8

/-- The borrow of a trial subtraction says that y was not contained in x (40_word_arith.md R78). -/
theorem trial_borrow (n : Nat) {w x y : Nat} (hx : x < 2 ^ w) (hy : y < 2 ^ w) (hw : 32 * n = w) :
    (subw n x y false).2 = decide (x < y) := by
  subst hw
  rw [subw_eq n x y hx hy]
  by_cases hlt : x < y <;> simp [hlt]

/-- One conditional subtraction reduces a number below 2 y. -/
theorem reduce_once {x y : Nat} (h : x < 2 * y) : (if x < y then x else x - y) = x % y := by
  split
  case isTrue hlt => exact (Nat.mod_eq_of_lt hlt).symm
  case isFalse hge => rw [Nat.mod_eq_sub_mod (by omega), Nat.mod_eq_of_lt (by omega)]

/-- ZIN is below 2 P, as P is above 2^255 (00_scope.md R9), so one trial subtraction is enough. -/
theorem seenZin_lt_two_p {s : State} (hm : s.crom.wf = true) : s.seenZin < 2 * s.p := by
  have hzin := seenZin_lt s
  have hp := crom_p_pos hm
  unfold State.p
  omega

theorem p_ne_zero {s : State} (hm : s.crom.wf = true) : s.p ≠ 0 := crom_p_ne_zero hm

/-- What one trial subtraction of P leaves of ZIN, and its borrow (41_challenge_ladder.md R86). -/
theorem ldz_trial {s : State} (hm : s.crom.wf = true) :
    (if (subw Config.feWords s.seenZin s.crom.p.toNat false).2 then s.seenZin
      else (subw Config.feWords s.seenZin s.crom.p.toNat false).1) = s.seenZin % s.p ∧
    (subw Config.feWords s.seenZin s.crom.p.toNat false).2 = decide (s.seenZin < s.p) :=
  ⟨(trial_subtraction _ (seenZin_lt s) (p_lt s) rfl).trans (reduce_once (seenZin_lt_two_p hm)),
    trial_borrow _ (seenZin_lt s) (p_lt s) rfl⟩

/-- LDZ when its Requires line holds. -/
theorem exec_ldz {s : State} (hm : s.crom.wf = true) (hr : Requires .ldz s) :
    exec .ldz s = .next { s with
      z := some (BitVec.ofNat 256 (s.seenZin % s.p)), cf := decide (s.seenZin < s.p), zv := true,
      pc := s.pc + 1, busy := false, raced := [] } := by
  obtain ⟨hz, hcf⟩ := ldz_trial hm
  refine (issue_runs (terminal_of_active hr.1) ((ldz_test_iff s).mpr hr)).trans ?_
  dsimp only
  rw [hz, hcf]
  rfl

/-- Settles O14: LDZ's body is one trial subtraction of P from a number below 2 P. -/
theorem ldzReducesTheChallenge : Obligations.LdzReducesTheChallenge := by
  refine ⟨rfl, fun s h => seenZin_of_quiet h, fun s hm ha hz => ?_, fun s ht hn => ?_⟩
  · exact ⟨exec_ldz hm ⟨ha, hz⟩, Nat.mod_lt _ (Nat.pos_of_ne_zero (p_ne_zero hm)), p_lt s⟩
  · exact issue_of_not_requires (ldz_test_iff s) ht hn

/-! ## LADDER (41_challenge_ladder.md R87, R88) -/

/-- The 43 entries that LADDER writes; `exec_ladder` says that it does. -/
def State.ladderEntries (s : State) : Vector (BitVec 256) 43 :=
  Vector.ofFn fun i => BitVec.ofNat 256 (ladderEntry s.zValue.toNat s.p i)

/-- No entry of the ladder is cut off by the 256 bits of PL[i]. -/
theorem ladderEntries_toNat (s : State) {i : Nat} (hi : i < 43) :
    s.ladderEntries[i].toNat = ladderEntry s.zValue.toNat s.p i := by
  rw [State.ladderEntries, Vector.getElem_ofFn]
  exact toNat_ofNat_of_lt (ladderEntry_lt _ _ s.zValue.isLt (p_lt s) i)

/-- LADDER when its Requires line holds. -/
theorem exec_ladder {s : State} (hr : Requires .ladder s) :
    exec .ladder s = .next { s with
      pl := some s.ladderEntries, plv := true, pc := s.pc + 1, busy := false, raced := [] } :=
  issue_runs (terminal_of_active hr.1) ((ladder_test_iff s).mpr hr)

/-- From entry 1 on the next entry is mulmod of this one with Z, a residue as P is not 0
(40_word_arith.md R80). -/
theorem ladderEntry_succ {z p i : Nat} (hp : p ≠ 0) (hi : 1 ≤ i) :
    ladderEntry z p (i + 1) = ladderEntry z p i * z % p := by
  match i, hi with
  | j + 1, _ => rw [ladderEntry, mulmod_eq _ _ _ hp]

/-- For Z below P the products start at entry 0: mulmod(1, Z, P) is Z (41_challenge_ladder.md R88). -/
theorem ladderEntry_succ_of_lt {z p : Nat} (hz : z < p) (i : Nat) :
    ladderEntry z p (i + 1) = mulmod (ladderEntry z p i) z p := by
  match i with
  | 0 => rw [ladderEntry, ladderEntry, mulmod_eq _ _ _ (by omega), one_mul, Nat.mod_eq_of_lt hz]
  | j + 1 => rw [ladderEntry]

/-- Settles O15: the entries of PL are those of the loop, and for Z below P its powers. -/
theorem ladderHoldsThePowers : Obligations.LadderHoldsThePowers := by
  refine ⟨rfl, fun s hm ha hz hp => ?_, fun s ht hn => issue_of_not_requires (ladder_test_iff s) ht hn⟩
  refine ⟨s.ladderEntries, exec_ladder ⟨ha, hz, hp⟩, ?_, ?_, fun i hi h1 => ?_, fun hlt i hi => ?_⟩
  · exact BitVec.eq_of_toNat_eq (ladderEntries_toNat s (by omega))
  · exact BitVec.eq_of_toNat_eq (ladderEntries_toNat s (by omega))
  · rw [ladderEntries_toNat, ladderEntries_toNat, ladderEntry_succ (p_ne_zero hm) h1]
  · rw [ladderEntries_toNat, ladderEntry_eq _ _ (one_lt_p hm) hlt]

/-- PL[i] after a LADDER that ran. -/
theorem plValue_of_pl {t : State} {pl : Vector (BitVec 256) 43} (h : t.pl = some pl) {i : Nat}
    (hi : i < 43) : t.plValue i = pl[i] := by
  simp [State.plValue, h, hi]

/-- Settles O16: PL holds the entries of the loop, each mulmod of the one before with Z. -/
theorem ladderEntriesAreRepeatedProducts : Obligations.LadderEntriesAreRepeatedProducts := by
  intro s hm hr hlt
  refine ⟨_, exec_ladder hr, rfl, ?_, fun i h1 hi => ?_⟩
  · exact BitVec.eq_of_toNat_eq (ladderEntries_toNat s (by omega))
  · obtain ⟨j, rfl⟩ := Nat.exists_eq_add_of_le' h1
    rw [plValue_of_pl rfl hi, plValue_of_pl rfl (by omega), ladderEntries_toNat,
      ladderEntries_toNat, ladderEntry_succ_of_lt hlt, Nat.add_sub_cancel]

end Sys2Proof.Machine
end

section
/-!
The checksum commands (42_checksum.md): what ACC, RED and CHK answer in every state with CROM in range, their
bounds, and why the checksums of a true product satisfy the identity that CHK tests.
-/

namespace Sys2Proof.Machine

/-! ## The words and the Requires lines -/

theorem encode_acc (sel : BitVec 3) :
    encode (.acc sel) = BitVec.ofNat 32 (0x00000004 + 0x100 * sel.toNat) := by
  revert sel
  decide

theorem encode_red (sel : BitVec 3) :
    encode (.red sel) = BitVec.ofNat 32 (0x00000005 + 0x100 * sel.toNat) := by
  revert sel
  decide

theorem encode_chk (sel : BitVec 3) :
    encode (.chk sel) = BitVec.ofNat 32 (0x00000006 + 0x100 * sel.toNat) := by
  revert sel
  decide

theorem Source.exists_ofSel {sel : BitVec 3} (h : sel.toNat ≤ 5) :
    ∃ src, Source.ofSel sel = some src :=
  Option.ne_none_iff_exists'.mp (mt Source.ofSel_eq_none.mp (not_not_intro h))

theorem Identity.exists_ofSel {sel : BitVec 3} (h : sel.toNat ≤ 1) :
    ∃ j, Identity.ofSel sel = some j :=
  Option.ne_none_iff_exists'.mp (mt Identity.ofSel_eq_none.mp (not_not_intro h))

/-- The order test of `ACC s`; `acc_test_iff` says that it is the Requires line. -/
def State.accTest (s : State) (src : Source) : Bool :=
  s.active && s.plv && decide (s.ckst[src.index] = .empty)

/-- The order test of `RED s`; `red_test_iff` says that it is the Requires line. -/
def State.redTest (s : State) (src : Source) : Bool :=
  s.active && decide (s.ckst[src.index] = .raw)

/-- The order test of `CHK j`; `chk_test_iff` says that it is the Requires line. -/
def State.chkTest (s : State) (j : Identity) : Bool :=
  s.active && decide (s.ckst[j.x.index] = .reduced) && decide (s.ckst[j.y.index] = .reduced) &&
    decide (s.ckst[j.w.index] = .reduced) && !s.chkok[j.index]

theorem acc_test_iff {sel : BitVec 3} {src : Source} (hsel : Source.ofSel sel = some src) (s : State) :
    s.accTest src = true ↔ Requires (.acc sel) s := by
  simp [State.accTest, Requires, hsel, active_iff, and_assoc]

theorem red_test_iff {sel : BitVec 3} {src : Source} (hsel : Source.ofSel sel = some src) (s : State) :
    s.redTest src = true ↔ Requires (.red sel) s := by
  simp [State.redTest, Requires, hsel, active_iff]

theorem chk_test_iff {sel : BitVec 3} {j : Identity} (hsel : Identity.ofSel sel = some j) (s : State) :
    s.chkTest j = true ↔ Requires (.chk sel) s := by
  simp [State.chkTest, Requires, hsel, active_iff, and_assoc]

/-- A command whose order test is its Requires line runs its body in ACTIVE when that line holds
(60_exceptions.md R118). -/
theorem issue_of_requires {i : Instr} {s : State} {req : Bool} {body : Result}
    (hreq : req = true ↔ Requires i s) (ha : s.runstate = .active) (hr : Requires i s) :
    issue i s req body = body :=
  issue_runs (terminal_of_active ha) (hreq.mpr hr)

/-- A command whose body answers a next state does not end in a fault of the model. -/
theorem issue_next_ne_fault (i : Instr) (s t : State) (req : Bool) (f : Fault) :
    issue i s req (.next t) ≠ .fault f := by
  unfold issue
  split
  · nofun
  · split <;> nofun

/-! ## ACC (42_checksum.md R90, R91) -/

/-- ACC with CROM in range: its body is the exact sum, so no carry is lost. -/
theorem exec_acc {sel : BitVec 3} {src : Source} {s : State} (hsel : Source.ofSel sel = some src)
    (hm : s.crom.wf = true) :
    exec (.acc sel) s =
      issue (.acc sel) s (s.accTest src) (.next (s.putChecksum src (s.rawSum src) .raw).complete) := by
  have hsum := (accumulate_rawSum s src hm).1
  simp only [exec, execAcc, hsel, hsum, Bool.false_eq_true, if_false, State.accTest]

/-- ACC when its Requires line holds. -/
theorem exec_acc_of_requires {sel : BitVec 3} {src : Source} {s : State}
    (hsel : Source.ofSel sel = some src) (hm : s.crom.wf = true) (ha : s.runstate = .active)
    (hp : s.plv = true) (hk : s.ckst[src.index] = .empty) :
    exec (.acc sel) s = .next (s.putChecksum src (s.rawSum src) .raw).complete :=
  (exec_acc hsel hm).trans (issue_of_requires (acc_test_iff hsel s) ha ⟨src, hsel, ha, hp, hk⟩)

/-- With CROM in range ACC ends in no fault of the model, whatever the selector. -/
theorem exec_acc_ne_fault {s : State} (hm : s.crom.wf = true) (sel : BitVec 3) (f : Fault) :
    exec (.acc sel) s ≠ .fault f := by
  cases hsel : Source.ofSel sel with
  | none => simp [exec, execAcc, hsel]
  | some src =>
    rw [exec_acc hsel hm]
    exact issue_next_ne_fault _ _ _ _ _

/-- CK[s] reads back what was put there. -/
theorem ckValue_putChecksum (s : State) (src : Source) (v : Nat) (stage : ChecksumState) :
    (s.putChecksum src v stage).complete.ckValue src = BitVec.ofNat 288 v := by
  have hput : (s.putChecksum src v stage).complete.ck[src.index] = some (BitVec.ofNat 288 v) :=
    (Source.getElem_set s.ck src src _).trans (if_pos rfl)
  rw [State.ckValue, hput, Option.getD_some]

/-- Each of the n terms is a residue (42_checksum.md R91). -/
theorem rawSum_le {s : State} (hm : s.crom.wf = true) (src : Source) :
    s.rawSum src ≤ src.nelem * (s.p - 1) := by
  have hterm : ∀ i ∈ Finset.range src.nelem, s.elem src i * (s.plValue i).toNat % s.p ≤ s.p - 1 :=
    fun i _ => Nat.le_sub_one_of_lt (Nat.mod_lt _ (Nat.pos_of_ne_zero (p_ne_zero hm)))
  exact (Finset.sum_le_card_nsmul _ _ _ hterm).trans_eq (by simp)

theorem nelem_pos (src : Source) : 0 < src.nelem := by
  cases src <;> decide

/-- P is below 2^256, so n residues leave an overflow word below n (42_checksum.md R91). -/
theorem rawSum_overflow_le {s : State} (hm : s.crom.wf = true) (src : Source) :
    s.rawSum src / 2 ^ 256 ≤ src.nelem - 1 := by
  have hp : s.p - 1 < 2 ^ 256 := Nat.lt_of_le_of_lt (Nat.sub_le _ _) (p_lt s)
  have hlt : s.rawSum src < src.nelem * 2 ^ 256 :=
    Nat.lt_of_le_of_lt (rawSum_le hm src) (Nat.mul_lt_mul_of_pos_left hp (nelem_pos src))
  exact Nat.le_sub_one_of_lt (Nat.div_lt_of_lt_mul (by rwa [Nat.mul_comm]))

/-- The raw sum is congruent to the checksum when the powers that ACC reads are those of Z
(42_checksum.md R89, R90). -/
theorem rawSum_mod_of_powers {s : State} {src : Source}
    (hpl : ∀ i < src.nelem, (s.plValue i).toNat = s.zValue.toNat ^ i % s.p) :
    s.rawSum src % s.p = s.checksum src := by
  have hterm : ∀ i ∈ Finset.range src.nelem, s.elem src i * (s.plValue i).toNat % s.p =
      s.elem src i * s.zValue.toNat ^ i % s.p := fun i hi => by
    rw [hpl i (Finset.mem_range.mp hi), Nat.mul_mod_mod]
  rw [State.rawSum, Finset.sum_congr rfl hterm, State.checksum, ← Finset.sum_nat_mod]

/-- Settles O17: ACC's loop is the exact sum, each term congruent to that of the checksum. -/
theorem accSumsTheTerms : Obligations.AccSumsTheTerms := by
  refine ⟨encode_acc, fun s sel src hsel hm ha hp hk => ?_, fun s sel hwf ht hn => ?_⟩
  · have hv := toNat_ofNat_of_lt (accumulate_rawSum s src hm).2
    exact ⟨BitVec.ofNat 288 (s.rawSum src), exec_acc_of_requires hsel hm ha hp hk, hv,
      fun hpl => hv.symm ▸ rawSum_mod_of_powers hpl⟩
  · obtain ⟨src, hsel⟩ := Source.exists_ofSel (of_decide_eq_true hwf)
    simp only [exec, execAcc, hsel]
    rw [← encode_acc]
    exact issue_of_not_requires (acc_test_iff hsel s) ht hn

/-- Settles O18: n residues sum to at most n (P − 1), far below 2^288. -/
theorem accOverflowWordIsSmall : Obligations.AccOverflowWordIsSmall := by
  refine ⟨fun s t sel src hsel hm hp hk ha h => ?_, fun s sel hm => exec_acc_ne_fault hm sel _⟩
  rw [exec_acc_of_requires hsel hm ha hp hk] at h
  injection h with h
  rw [← h, ckValue_putChecksum, toNat_ofNat_of_lt (accumulate_rawSum s src hm).2]
  exact ⟨rawSum_le hm src, rawSum_overflow_le hm src⟩

/-! ## RED (42_checksum.md R92 to R94) -/

/-- The value of CK[s] after the two folds of RED. -/
def State.foldedCk (s : State) (src : Source) : Nat :=
  foldValue s.crom.c.toNat (foldValue s.crom.c.toNat (s.ckValue src).toNat)

/-- Neither of the two folds of RED carries out, and they leave the folded value (42_checksum.md R93). -/
theorem foldOnce_ckValue {s : State} (hm : s.crom.wf = true) (src : Source) :
    foldOnce s.crom (s.ckValue src).toNat =
      (foldValue s.crom.c.toNat (s.ckValue src).toNat, false) ∧
    foldOnce s.crom (foldValue s.crom.c.toNat (s.ckValue src).toNat) = (s.foldedCk src, false) := by
  have hraw := toNat_lt_pow (s.ckValue src)
  have hone := (foldValue_bounds s.crom.c.toNat _ s.crom.c.isLt hraw).1
  exact ⟨foldOnce_eq s.crom _ hm hraw, foldOnce_eq s.crom _ hm (by omega)⟩

/-- The folded value has no overflow word, so a third fold is never needed (42_checksum.md R93). -/
theorem foldedCk_lt (s : State) (src : Source) : s.foldedCk src < 2 ^ 256 :=
  (foldValue_bounds _ _ s.crom.c.isLt (toNat_lt_pow (s.ckValue src))).2

theorem wordAt_eq_zero {x k : Nat} (h : x < 2 ^ (32 * k)) : wordAt x k = 0 := by
  rw [wordAt, Nat.div_eq_of_lt h]
  rfl

/-- RED with CROM in range: its body is the residue of the raw value, and neither of the model's faults. -/
theorem exec_red {sel : BitVec 3} {src : Source} {s : State} (hsel : Source.ofSel sel = some src)
    (hm : s.crom.wf = true) :
    exec (.red sel) s = issue (.red sel) s (s.redTest src)
      (.next { s.putChecksum src ((s.ckValue src).toNat % s.p) .reduced with
        cf := decide (s.foldedCk src < s.p) }.complete) := by
  obtain ⟨hone, htwo⟩ := foldOnce_ckValue hm src
  have hlt := foldedCk_lt s src
  have hres : (if s.foldedCk src < s.p then s.foldedCk src else s.foldedCk src - s.p) =
      (s.ckValue src).toNat % s.p := (fold_residue hm (toNat_lt_pow (s.ckValue src))).2
  have htop : wordAt (s.foldedCk src) Config.feWords = 0 := wordAt_eq_zero hlt
  have hlow : s.foldedCk src % 2 ^ Config.feBits = s.foldedCk src := Nat.mod_eq_of_lt hlt
  have hval := (trial_subtraction Config.feWords hlt (p_lt s) rfl).trans hres
  have hcf := trial_borrow Config.feWords hlt (p_lt s) rfl
  unfold State.p at hval hcf
  simp only [exec, execRed, hsel, hone, htwo, htop, hlow, Bool.or_self, ne_eq, not_true_eq_false,
    Bool.false_eq_true, if_false]
  rw [hval, hcf]
  rfl

/-- With CROM in range RED ends in no fault of the model, whatever the selector. -/
theorem exec_red_ne_fault {s : State} (hm : s.crom.wf = true) (sel : BitVec 3) (f : Fault) :
    exec (.red sel) s ≠ .fault f := by
  cases hsel : Source.ofSel sel with
  | none => simp [exec, execRed, hsel]
  | some src =>
    rw [exec_red hsel hm]
    exact issue_next_ne_fault _ _ _ _ _

/-- Settles O19: two folds keep the value modulo P and one trial subtraction brings it below P. -/
theorem redIsTheCanonicalResidue : Obligations.RedIsTheCanonicalResidue := by
  refine ⟨encode_red, fun s sel src hsel hm ha hk => ⟨?_, ?_⟩, fun s sel hwf ht hn => ?_⟩
  · exact (exec_red hsel hm).trans (issue_of_requires (red_test_iff hsel s) ha ⟨src, hsel, ha, hk⟩)
  · exact Nat.mod_lt _ (Nat.pos_of_ne_zero (p_ne_zero hm))
  · obtain ⟨src, hsel⟩ := Source.exists_ofSel (of_decide_eq_true hwf)
    simp only [exec, execRed, hsel]
    rw [← encode_red]
    exact issue_of_not_requires (red_test_iff hsel s) ht hn

/-- Settles O20: the body of RED answers a next state. -/
theorem twoFoldsSuffice : Obligations.TwoFoldsSuffice := fun _ sel hm =>
  ⟨exec_red_ne_fault hm sel _, exec_red_ne_fault hm sel _⟩

/-! ## CHK (42_checksum.md R95) -/

/-- CHK with CROM in range: the identity of the low parts decides. -/
theorem exec_chk {sel : BitVec 3} {j : Identity} {s : State} (hsel : Identity.ofSel sel = some j)
    (hm : s.crom.wf = true) :
    exec (.chk sel) s = issue (.chk sel) s (s.chkTest j)
      (if s.ckLow j.x * s.ckLow j.y % s.p = s.ckLow j.w then
        .next { s with chkok := s.chkok.set j.index true }.complete
      else .next (s.raise .checksumMismatch (BitVec.ofNat 32 j.index) (encode (.chk sel)))) := by
  simp only [exec, execChk, hsel]
  rw [mulmod_eq _ _ _ (crom_p_ne_zero hm)]
  rfl

/-- CHK when its Requires line holds. -/
theorem exec_chk_of_requires {sel : BitVec 3} {j : Identity} {s : State}
    (hsel : Identity.ofSel sel = some j) (hm : s.crom.wf = true) (hr : Requires (.chk sel) s) :
    exec (.chk sel) s =
      if s.ckLow j.x * s.ckLow j.y % s.p = s.ckLow j.w then
        .next { s with chkok := s.chkok.set j.index true }.complete
      else .next (s.raise .checksumMismatch (BitVec.ofNat 32 j.index) (encode (.chk sel))) := by
  obtain ⟨_, -, ha, -⟩ := id hr
  exact (exec_chk hsel hm).trans (issue_of_requires (chk_test_iff hsel s) ha hr)

/-- Settles O21: the two answers of CHK are the two branches of its test. -/
theorem chkPassesOrMismatches : Obligations.ChkPassesOrMismatches := by
  refine ⟨encode_chk, fun s sel j hsel hm hr heq => ?_, fun s sel j hsel hm hr hne => ?_,
    fun s sel hwf ht hn => ?_⟩
  · exact (exec_chk_of_requires hsel hm hr).trans (if_pos heq)
  · rw [← encode_chk]
    exact (exec_chk_of_requires hsel hm hr).trans (if_neg hne)
  · obtain ⟨j, hsel⟩ := Identity.exists_ofSel (of_decide_eq_true hwf)
    simp only [exec, execChk, hsel]
    rw [← encode_chk]
    exact issue_of_not_requires (chk_test_iff hsel s) ht hn

/-! ## Completeness of the identity (42_checksum.md R97) -/

/-- The sum over the slots k in which limb i meets one of n limbs is the sum over those limbs. -/
theorem sum_slots_of_limb {n m i : Nat} (hm : i + n ≤ m) (f : Nat → Nat) :
    (∑ k ∈ Finset.range m, if i ≤ k ∧ k - i < n then f k else 0) =
      ∑ j ∈ Finset.range n, f (i + j) := by
  have hslots : (Finset.range m).filter (fun k => i ≤ k ∧ k - i < n) = Finset.Ico i (i + n) := by
    ext k
    simp only [Finset.mem_filter, Finset.mem_range, Finset.mem_Ico]
    omega
  rw [← Finset.sum_filter, hslots, Finset.sum_Ico_eq_sum_range, Nat.add_sub_cancel_left]

/-- The value at z of the slots of a long-form product is the product of the values of its factors: as
polynomials C(x) = A(x) · B(x) (42_checksum.md R97). -/
theorem sum_slots_eq_mul {n m : Nat} (hm : 2 * n ≤ m + 1) (x y : Nat → Nat) (z : Nat) :
    ∑ k ∈ Finset.range m,
        (∑ i ∈ Finset.range n, if i ≤ k ∧ k - i < n then x i * y (k - i) else 0) * z ^ k =
      (∑ i ∈ Finset.range n, x i * z ^ i) * ∑ j ∈ Finset.range n, y j * z ^ j := by
  simp only [Finset.sum_mul, ite_mul, Nat.zero_mul]
  rw [Finset.sum_comm]
  refine Finset.sum_congr rfl fun i hi => ?_
  have hi := Finset.mem_range.mp hi
  rw [sum_slots_of_limb (by omega), Finset.mul_sum]
  refine Finset.sum_congr rfl fun j _ => ?_
  rw [Nat.add_sub_cancel_left, pow_add, Nat.mul_mul_mul_comm]

/-- The factors of an identity are Operands and its product is a LongFormProduct (00_scope.md R19). -/
theorem Identity.nelem (j : Identity) : j.x.nelem = 22 ∧ j.y.nelem = 22 ∧ j.w.nelem = 43 := by
  cases j <;> decide

/-- The checksum of a true long-form product is the product of the checksums of its factors. -/
theorem checksum_of_true_product {s : State} {j : Identity}
    (hprod : ∀ k < 43, s.elem j.w k = ∑ i ∈ Finset.range 22,
      if i ≤ k ∧ k - i < 22 then s.elem j.x i * s.elem j.y (k - i) else 0) :
    s.checksum j.x * s.checksum j.y % s.p = s.checksum j.w := by
  obtain ⟨hx, hy, hw⟩ := j.nelem
  have hslots : ∑ k ∈ Finset.range 43, s.elem j.w k * s.zValue.toNat ^ k =
      (∑ i ∈ Finset.range 22, s.elem j.x i * s.zValue.toNat ^ i) *
        ∑ i ∈ Finset.range 22, s.elem j.y i * s.zValue.toNat ^ i := by
    rw [← sum_slots_eq_mul (by norm_num : 2 * 22 ≤ 43 + 1)]
    exact Finset.sum_congr rfl fun k hk => by rw [hprod k (Finset.mem_range.mp hk)]
  rw [State.checksum, State.checksum, State.checksum, hx, hy, hw, hslots, ← Nat.mul_mod]

/-- Settles O22: under the invariant the reduced registers are the checksums, and those of a true product meet
the test of CHK at every challenge. -/
theorem trueProductPassesTheIdentity : Obligations.TrueProductPassesTheIdentity := by
  intro s sel j hs hsel hr hprod
  obtain ⟨j', hsel', -, hx, hy, hw, -⟩ := id hr
  obtain rfl : j = j' := Option.some_injective _ (hsel.symm.trans hsel')
  have hpass : s.ckLow j.x * s.ckLow j.y % s.p = s.ckLow j.w := by
    rw [ckLow_reduced hs hx, ckLow_reduced hs hy, ckLow_reduced hs hw]
    exact checksum_of_true_product hprod
  exact (exec_chk_of_requires hsel hs.constants hr).trans (if_pos hpass)

end Sys2Proof.Machine
end

section
/-!
CANON as a command (43_canonicalizer.md R98 to R100): its loop divides the value of the product by 2^4128, and
the quotient, which is CARRY, decides between the two answers.
-/

namespace Sys2Proof.Machine

/-! ## The word and the Requires line -/

theorem encode_canon (sel : BitVec 3) :
    encode (.canon sel) = BitVec.ofNat 32 (0x00000007 + 0x100 * sel.toNat) := by
  revert sel
  decide

theorem Product.exists_ofSel {sel : BitVec 3} (h : sel.toNat ≤ 1) :
    ∃ t, Product.ofSel sel = some t :=
  Option.ne_none_iff_exists'.mp (mt Product.ofSel_eq_none.mp (not_not_intro h))

theorem canon_test_iff {sel : BitVec 3} {t : Product} (hsel : Product.ofSel sel = some t) (s : State) :
    (s.active && !s.canv[t.index]) = true ↔ Requires (.canon sel) s := by
  simp [Requires, hsel, active_iff]

/-! ## The pass over the slots (43_canonicalizer.md R99, R100) -/

/-- The pass is a division by 2^(96 n): the limbs are the remainder, CARRY the quotient, and no `addw_8` carries
out. -/
theorem canonPass_eq_div_mod (elem : Nat → Nat) (n : Nat) (he : ∀ i, elem i < 2 ^ 224) :
    canonPass elem n =
      ⟨(∑ i ∈ Finset.range n, elem i * 2 ^ (96 * i)) / 2 ^ (96 * n),
        (∑ i ∈ Finset.range n, elem i * 2 ^ (96 * i)) % 2 ^ (96 * n), false⟩ := by
  obtain ⟨hlost, -, hlimbs, hval⟩ := canonPass_eq elem n he
  obtain ⟨hdiv, hmod⟩ := (Nat.div_mod_unique (by positivity)).mpr
    ⟨(congrArg _ (Nat.mul_comm _ _)).trans hval, hlimbs⟩
  rw [hdiv, hmod, ← hlost]

/-- Both products have 43 slots (43_canonicalizer.md R98). -/
theorem Product.nelem_source (t : Product) : t.source.nelem = Config.L := by
  cases t <;> rfl

/-- The pass of CANON over the 43 slots of product t. -/
theorem canonPass_product (s : State) (t : Product) :
    canonPass (s.elem t.source) Config.L =
      ⟨s.arrayValue t.source / 2 ^ 4128, s.arrayValue t.source % 2 ^ 4128, false⟩ := by
  rw [State.arrayValue, t.nelem_source, canonPass_eq_div_mod _ _ (elem_lt s t.source),
    show 96 * Config.L = 4128 from rfl]

/-! ## CANON -/

/-- CANON in every state: whether the product fits 4128 bits decides. The fault leaves CAN[t] without a value
(log 12). -/
theorem exec_canon {sel : BitVec 3} {t : Product} (hsel : Product.ofSel sel = some t) (s : State) :
    exec (.canon sel) s = issue (.canon sel) s (s.active && !s.canv[t.index])
      (if s.arrayValue t.source < 2 ^ 4128 then
        .next { s with
          can := s.can.set t.index (some (BitVec.ofNat 4128 (s.arrayValue t.source)))
          carry := some 0
          canv := s.canv.set t.index true }.complete
      else
        .next (State.raise { s with
          can := s.can.set t.index none
          carry := some (BitVec.ofNat 160 (s.arrayValue t.source / 2 ^ 4128)) }
          .canonicalizationOverflow (BitVec.ofNat 32 t.index) (encode (.canon sel)))) := by
  simp only [exec, execCanon, hsel, canonPass_product, Bool.false_eq_true, if_false]
  by_cases hfit : s.arrayValue t.source < 2 ^ 4128
  · rw [if_pos hfit, Nat.div_eq_of_lt hfit, Nat.mod_eq_of_lt hfit]
    rfl
  · have hcarry : s.arrayValue t.source / 2 ^ 4128 ≠ 0 :=
      mt (Nat.div_eq_zero_iff_lt (by positivity)).mp hfit
    rw [if_neg hfit, if_pos hcarry]

/-- CANON in ACTIVE with CANV[t] = 0 runs its body. -/
theorem issue_canon {sel : BitVec 3} {t : Product} {s : State} (hsel : Product.ofSel sel = some t)
    (ha : s.runstate = .active) (hc : s.canv[t.index] = false) (body : Result) :
    issue (.canon sel) s (s.active && !s.canv[t.index]) body = body :=
  issue_of_requires (canon_test_iff hsel s) ha ⟨t, hsel, ha, hc⟩

/-- Settles O23: the quotient of the product by 2^4128 is 0 exactly when the product fits. -/
theorem canonIsExactOrOverflows : Obligations.CanonIsExactOrOverflows := by
  refine ⟨encode_canon, fun s sel t hsel ha hc hfit => ?_, fun s sel t hsel ha hc hover => ?_,
    fun s sel hwf ht hn => ?_⟩
  · refine ⟨BitVec.ofNat 4128 (s.arrayValue t.source), toNat_ofNat_of_lt hfit, ?_⟩
    rw [exec_canon hsel, issue_canon hsel ha hc, if_pos hfit]
    rfl
  · refine ⟨none, some (BitVec.ofNat 160 (s.arrayValue t.source / 2 ^ 4128)), ?_⟩
    rw [exec_canon hsel, issue_canon hsel ha hc, if_neg (not_lt.mpr hover), ← encode_canon]
  · obtain ⟨t, hsel⟩ := Product.exists_ofSel (of_decide_eq_true hwf)
    rw [exec_canon hsel, ← encode_canon]
    exact issue_of_not_requires (canon_test_iff hsel s) ht hn

end Sys2Proof.Machine
end

section
/-!
SUBX and FRED as commands (44_reconciler.md R103 to R105): the ripple subtraction of two registers is their difference
as bit vectors and its borrow is their order, so SUBX decides by the order of the canonical integers and the size of
their difference, and FRED by the order of DL and N.
-/

namespace Sys2Proof.Machine

/-! ## The Requires lines -/

theorem subx_test_iff (s : State) :
    (s.active && s.canv[0] && s.canv[1] && !s.dv) = true ↔ Requires .subx s := by
  simp [Requires, active_iff, and_assoc]

theorem fred_test_iff (s : State) : (s.active && s.dv && !s.rv) = true ↔ Requires .fred s := by
  simp [Requires, active_iff, and_assoc]

/-! ## Subtracting one register from another (40_word_arith.md R78) -/

/-- On registers of n words the ripple subtraction is the one of bit vectors, and its borrow is their order. -/
theorem subw_toNat (n : Nat) {w : Nat} (x y : BitVec w) (hw : 32 * n = w) :
    subw n x.toNat y.toNat false = ((x - y).toNat, decide (x < y)) := by
  subst hw
  rw [subw_eq n _ _ (toNat_lt_pow x) (toNat_lt_pow y)]
  by_cases hlt : x < y
  · rw [if_pos (BitVec.lt_def.mp hlt), BitVec.toNat_sub_of_lt hlt, decide_eq_true hlt,
      Nat.sub_sub_right _ (BitVec.le_of_lt hlt), Nat.add_comm]
  · rw [if_neg (mt BitVec.lt_def.mpr hlt), BitVec.toNat_sub_of_le (BitVec.not_lt.mp hlt),
      decide_eq_false hlt]

/-! ## SUBX (44_reconciler.md R103) -/

/-- b + 2 · hi, the ERRINFO of MagnitudeInconsistency, bit by bit (44_reconciler.md R103). -/
theorem magnitude_info (b hi : Prop) [Decidable b] [Decidable hi] :
    BitVec.ofNat 32 ((decide b).toNat + 2 * (decide hi).toNat) =
      (if b then 1 else 0) + (if hi then 2 else 0) := by
  by_cases hb : b <;> by_cases hhi : hi <;> simp [hb, hhi]

/-- SUBX in every state: a borrow or a nonzero word above the 64 of the result is the fault, and D and CF are
written before it. -/
theorem exec_subx (s : State) :
    exec .subx s = issue .subx s (s.active && s.canv[0] && s.canv[1] && !s.dv)
      (if s.canValue .c < s.canValue .kn ∨ 2 ^ 2048 ≤ (s.canValue .c - s.canValue .kn).toNat then
        .next (State.raise { s with
            d := some (s.canValue .c - s.canValue .kn)
            cf := decide (s.canValue .c < s.canValue .kn) }
          .magnitudeInconsistency
          ((if s.canValue .c < s.canValue .kn then 1 else 0) +
            (if 2 ^ 2048 ≤ (s.canValue .c - s.canValue .kn).toNat then 2 else 0)) (encode .subx))
      else
        .next { s with
          d := some (s.canValue .c - s.canValue .kn)
          cf := decide (s.canValue .c < s.canValue .kn)
          dv := true }.complete) := by
  simp only [exec, execSubx, subw_toNat Config.canWords (s.canValue .c) (s.canValue .kn) rfl,
    highWordsNonzero_iff _ (toNat_lt_pow (s.canValue .c - s.canValue .kn)), magnitude_info,
    BitVec.ofNat_toNat, BitVec.setWidth_eq, Bool.or_eq_true, decide_eq_true_eq]

/-- Settles O24: the borrow is the order of the canonical integers, and the words 64 .. 128 are zero exactly when
the difference is below 2^2048. -/
theorem subxIsExactOrRejects : Obligations.SubxIsExactOrRejects := by
  have hruns {s : State} (hr : Requires .subx s) (body : Result) :=
    issue_of_requires (body := body) (subx_test_iff s) hr.1 hr
  refine ⟨rfl, fun s hr hle hfit => ?_, fun s hr hbad => ?_, fun s ht hn => ?_⟩
  · have hlt : ¬ s.canValue .c < s.canValue .kn := BitVec.not_lt.mpr hle
    rw [exec_subx, hruns hr, if_neg (not_or.mpr ⟨hlt, not_le.mpr hfit⟩), decide_eq_false hlt]
    rfl
  · rw [not_and_or, BitVec.not_le, not_lt] at hbad
    rw [exec_subx, hruns hr, if_pos hbad]
    rfl
  · exact issue_of_not_requires (subx_test_iff s) ht hn

/-! ## FRED (44_reconciler.md R104, R105) -/

/-- FRED when its Requires line holds: one conditional subtraction of N from DL. -/
theorem exec_fred {s : State} (hr : Requires .fred s) :
    exec .fred s = .next { s with
      r := some (if s.dValue.toNat % 2 ^ 2048 < s.crom.n.toNat then s.dValue.setWidth 2048
        else s.dValue.setWidth 2048 - s.crom.n)
      cf := decide (s.dValue.toNat % 2 ^ 2048 < s.crom.n.toNat), rv := true
      pc := s.pc + 1, busy := false, raced := [] } := by
  refine (issue_of_requires (fred_test_iff s) hr.1 hr).trans ?_
  dsimp only
  rw [← BitVec.toNat_setWidth, subw_toNat Config.resWords (s.dValue.setWidth 2048) s.crom.n rfl]
  simp only [BitVec.lt_def, decide_eq_true_eq]
  rw [← apply_ite BitVec.toNat, BitVec.ofNat_toNat, BitVec.setWidth_eq]
  rfl

/-- Settles O25: FRED's borrow is DL < N. -/
theorem fredReducesOnce : Obligations.FredReducesOnce :=
  ⟨rfl, fun _ hr => exec_fred hr, fun s ht hn => issue_of_not_requires (fred_test_iff s) ht hn⟩

/-- What a number reduced once by n has to do with the number, for every n (44_reconciler.md R105). -/
theorem reduced_once_guarantees {r d n : Nat} (h : r = if d < n then d else d - n) :
    r % n = d % n ∧ r ≤ d ∧ (r = d ∨ r + n = d) ∧ (r < n ↔ d < 2 * n) := by
  split at h <;> subst h
  case isTrue hlt => exact ⟨rfl, le_rfl, .inl rfl, by omega⟩
  case isFalse hge =>
    exact ⟨(Nat.mod_eq_sub_mod (not_lt.mp hge)).symm, Nat.sub_le _ _, .inr (by omega), by omega⟩

/-- Settles O26: below 2^2048 DL is D, so R is D reduced once by N. -/
theorem fredGuarantees : Obligations.FredGuarantees := by
  intro s _ hr hlt
  have hexec := exec_fred hr
  obtain ⟨r, hsome, hred⟩ := fred_r hexec hr hlt
  refine ⟨_, hexec, rfl, ?_⟩
  rw [State.rValue, hsome]
  exact reduced_once_guarantees hred

end Sys2Proof.Machine
end

section
/-!
The control commands NOP, START, FIN and CLR (45_control.md R107 to R110), and what entry into ACCEPT says of the
witness. The invariant holds after the step that enters ACCEPT, so what that entry delivers is read off the state
it leads to.
-/

namespace Sys2Proof.Machine

/-! ## NOP (45_control.md R107) -/

/-- NOP requires nothing: in a state that is not terminal it only completes. -/
theorem exec_nop {s : State} (ht : s.runstate.terminal = false) : exec .nop s = .next s.complete :=
  issue_runs ht rfl

/-- The terminal states are ACCEPT and REJECT (10_state.md R23). -/
theorem terminal_iff {s : State} :
    s.runstate.terminal = true ↔ s.runstate = .accept ∨ s.runstate = .reject := by
  cases h : s.runstate <;> simp [RunState.terminal]

/-- Settles O10: in IDLE and ACTIVE NOP completes, in ACCEPT and REJECT it is ignored like every word but CLR's. -/
theorem nopOnlyCounts : Obligations.NopOnlyCounts :=
  ⟨rfl, fun _ h => exec_nop (live_iff.mpr h), fun _ h => exec_terminal nofun (terminal_iff.mpr h)⟩

/-! ## START (45_control.md R108) -/

theorem start_test_iff (s : State) : decide (s.runstate = .idle) = true ↔ Requires .start s :=
  decide_eq_true_iff

/-- With no write during the run, START reads the declared lengths that the host wrote (10_state.md R30). -/
theorem seenWlen_of_quiet {s : State} (h : s.raced = []) (k : Fin 5) : s.seenWlen k = s.wlen[k] := by
  rw [State.seenWlen, atInput_of_quiet h]

/-- The lengths START tests against are those of the witness layout. -/
theorem expectedLength_eq (k : Fin 5) : expectedLength k = witnessLengths[k] := by
  revert k
  decide

/-- START's search goes through the five declared lengths in order. -/
theorem wrongLength_eq (s : State) :
    s.wrongLength = Fin.find? fun k => decide (s.seenWlen k ≠ witnessLengths[k]) := by
  simp only [State.wrongLength, expectedLength_eq]
  exact Fin.find?_eq_find?_finRange.symm

theorem wrongLength_eq_none {s : State} :
    s.wrongLength = none ↔ ∀ k : Fin 5, s.seenWlen k = witnessLengths[k] := by
  simp [wrongLength_eq]

theorem wrongLength_eq_some {s : State} {k : Fin 5} :
    s.wrongLength = some k ↔
      s.seenWlen k ≠ witnessLengths[k] ∧ ∀ j < k, s.seenWlen j = witnessLengths[j] := by
  simp [wrongLength_eq]

/-- START in IDLE, with every declared length right. -/
theorem exec_start_of_lengths {s : State} (hi : s.runstate = .idle) (hlen : s.wrongLength = none) :
    exec .start s = .next { s with runstate := .active }.complete := by
  refine (issue_runs (terminal_of_idle hi) ((start_test_iff s).mpr hi)).trans ?_
  rw [hlen]

/-- START in IDLE, with k the first wrong one of the declared lengths. -/
theorem exec_start_of_wrongLength {s : State} {k : Fin 5} (hi : s.runstate = .idle)
    (hlen : s.wrongLength = some k) :
    exec .start s = .next (s.raise .malformedWitness (BitVec.ofNat 32 k) (encode .start)) := by
  refine (issue_runs (terminal_of_idle hi) ((start_test_iff s).mpr hi)).trans ?_
  rw [hlen]

/-- Settles O11: START's answer in IDLE is decided by the first wrong declared length, and ACTIVE is not where
START may run. -/
theorem startFreezesOrRejects : Obligations.StartFreezesOrRejects := by
  refine ⟨rfl, fun s h => seenWlen_of_quiet h,
    fun s hi hall => exec_start_of_lengths hi (wrongLength_eq_none.mpr hall),
    fun s k hi hk hbelow => exec_start_of_wrongLength hi (wrongLength_eq_some.mpr ⟨hk, hbelow⟩),
    fun s ha => ?_⟩
  have hn : ¬ Requires .start s := by simp [Requires, ha]
  exact issue_of_not_requires (start_test_iff s) (terminal_of_active ha) hn

/-! ## FIN (45_control.md R109) -/

theorem fin_test_iff (s : State) :
    (s.active && s.chkok[0] && s.chkok[1] && s.rv) = true ↔ Requires .fin s := by
  simp [Requires, active_iff, and_assoc]

/-- FIN when its Requires line holds. -/
theorem exec_fin {s : State} (hr : Requires .fin s) :
    exec .fin s = .next { s with runstate := .accept }.complete :=
  issue_of_requires (fin_test_iff s) hr.1 hr

/-- Settles O12: FIN completes when its Requires line holds, and raises SequenceError when a part of it fails. -/
theorem finAccepts : Obligations.FinAccepts := by
  refine ⟨rfl, fun s ha h0 h1 hrv => exec_fin ⟨ha, h0, h1, hrv⟩, fun s h => ?_⟩
  have ht : s.runstate.terminal = false := live_iff.mpr (h.imp_right And.left)
  refine issue_of_not_requires (fin_test_iff s) ht fun ⟨ha, h0, h1, hrv⟩ => ?_
  rcases h with hi | ⟨-, hmissing⟩
  · simp [ha] at hi
  · simp [h0, h1, hrv] at hmissing

/-! ## CLR (45_control.md R110) -/

theorem exec_clr (s : State) : exec .clr s = .next s.clear := rfl

/-- After CLR PROGRESS shows no flag (10_state.md R29, R44). -/
theorem clear_progressWord (s : State) : s.clear.progressWord = 0 :=
  show State.reset.progressWord = 0 by decide

/-- CLR leaves no checksum (10_state.md R34). -/
theorem clear_ck_index (s : State) (src : Source) : s.clear.ck[src.index] = none := by
  rw [State.clear_ck]
  exact Vector.getElem_replicate _

/-- CLR leaves no canonical integer (10_state.md R35). -/
theorem clear_can_index (s : State) (p : Product) : s.clear.can[p.index] = none := by
  rw [State.clear_can]
  exact Vector.getElem_replicate _

/-- Settles O13: CLR answers `State.clear` in every state. -/
theorem clrStartsAfresh : Obligations.ClrStartsAfresh := by
  refine ⟨rfl, fun s => ⟨s.clear, exec_clr s, ?_⟩⟩
  have hs : SameSurroundings s s.clear := .clear s
  exact ⟨rfl, rfl, rfl, rfl, rfl, rfl, rfl, rfl, rfl, rfl, clear_progressWord s,
    fun k => Vector.getElem_replicate _, fun k => Vector.getElem_replicate _, rfl, rfl,
    clear_ck_index s, clear_can_index s, rfl, rfl, rfl, hs.wmemByte, hs.crom, hs.port, hs.rdata⟩

/-! ## What an ACCEPT delivers (45_control.md R109) -/

/-- In ACCEPT the host reads R, word by word (10_state.md R45). -/
theorem resWord_of_accept {s : State} (h : s.runstate = .accept) (k : Nat) :
    s.resWord k = s.rValue.extractLsb' (32 * k) 32 := by
  simp only [State.resWord, h, wordAt]
  rw [BitVec.extractLsb', Nat.shiftRight_eq_div_pow]

/-- The array of N denotes N (10_state.md R41). -/
theorem arrayValue_n (s : State) : s.arrayValue .n = s.crom.n.toNat :=
  (cromRead_limbs s.crom 0 22).trans (cromRead_n s.crom)

/-- D of a run that has come to SUBX: the exact difference of the two products, which are in order, with the
minuend below 2^4128 (44_reconciler.md R103). -/
theorem State.Inv.dValue_eq {s : State} (hs : s.Inv) (hd : s.dv = true) :
    s.dValue.toNat = s.arrayValue .c - s.arrayValue .kn ∧ s.arrayValue .kn ≤ s.arrayValue .c ∧
      s.arrayValue .c < 2 ^ 4128 := by
  obtain ⟨hc, -, d, hsome, hdiff, -⟩ := hs.difference hd
  obtain ⟨c, -, hval⟩ := hs.canonical .c hc
  have hlt : s.arrayValue .c < 2 ^ 4128 := hval ▸ toNat_lt_pow c
  have hdval : s.dValue = d := by simp [State.dValue, hsome]
  exact ⟨hdval ▸ Nat.eq_sub_of_add_eq hdiff, Nat.le.intro ((Nat.add_comm _ _).trans hdiff), hlt⟩

/-- A CROM in range holds an N that is not 0 (00_scope.md R9). -/
theorem crom_n_pos {m : Crom} (h : m.wf = true) : 0 < m.n.toNat := by
  simp only [Crom.wf, Bool.and_eq_true, decide_eq_true_eq] at h
  exact Nat.pos_of_ne_zero fun h0 => h.2 (BitVec.eq_of_toNat_eq (h0.trans BitVec.toNat_zero.symm))

/-- Settles O51: the invariant holds after the step that enters ACCEPT, and there it says that both identities have
passed and that R is D reduced once. -/
theorem acceptDeliversTheReducedDifference : Obligations.AcceptDeliversTheReducedDifference := by
  intro s t hs hstep _ hacc
  have ht : t.Inv := stepKeepsTheInvariant s t hs hstep
  obtain ⟨hab, hkn, hrv⟩ := ht.accepted hacc
  obtain ⟨-, -, -, hidentityAb⟩ := ht.identity .ab hab
  obtain ⟨-, -, -, hidentityKn⟩ := ht.identity .kn hkn
  obtain ⟨hdv, r, hsome, hr⟩ := ht.remainder hrv
  obtain ⟨hd, hle, hlt⟩ := ht.dValue_eq hdv
  rw [hd] at hr
  refine ⟨hidentityAb, hidentityKn, hle, hlt, r, hsome, fun k _ => ?_, hr, fun hc hprod hquot => ?_⟩
  · rw [resWord_of_accept hacc, State.rValue, hsome]
    rfl
  · have hmod : t.arrayValue .c - t.arrayValue .kn = t.arrayValue .a * t.arrayValue .b % t.crom.n.toNat := by
      rw [hc, hprod, arrayValue_n, hquot, Nat.mod_eq_sub_div_mul]
    rw [hr, hmod, if_pos (Nat.mod_lt _ (crom_n_pos ht.constants))]

end Sys2Proof.Machine
end

section
/-!
Faults (60_exceptions.md R114, R116, R117) and the idle machine (R127): what `raise` writes, what a step into
REJECT leaves, and that the machine waits where nothing is left to do.
-/

namespace Sys2Proof.Machine

/-! ## The fault record (60_exceptions.md R114, R116) -/

/-- Settles O7: the update that `raise` makes, and the table of R114. -/
theorem faultEntryWritesTheRecord : Obligations.FaultEntryWritesTheRecord :=
  ⟨fun _ _ _ _ => rfl, rfl, rfl, rfl, rfl, rfl, rfl⟩

/-! ## The idle machine (60_exceptions.md R127) -/

/-- Settles O48: with an empty port a step looks at BUSY alone. -/
theorem idleMachineWaits : Obligations.IdleMachineWaits := by
  intro s hport hbusy
  rw [step, hport]
  exact if_neg (by simp [hbusy])

/-! ## A step into REJECT (60_exceptions.md R117) -/

/-- The word with decoding `dec` goes from s into REJECT: `raise` on s, with D and CF written before it if the
word is SUBX, CAN and CARRY if it is CANON (60_exceptions.md R117 b, c). `WritesBeforeFault` does not say that
only CANON writes CAN, and names no command for a word that does not decode. -/
def FaultsPrecisely (dec : Except Illegal Instr) (word : Word) (s t : State) : Prop :=
  ∃ d cf can carry cause info,
    t = State.raise { s with d := d, cf := cf, can := can, carry := carry } cause info word ∧
    (dec ≠ .ok .subx → d = s.d ∧ cf = s.cf) ∧
    ((∀ sel, dec ≠ .ok (.canon sel)) → can = s.can ∧ carry = s.carry)

/-- A fault that has written nothing before it. -/
theorem faultsPrecisely_raise (dec : Except Illegal Instr) (word : Word) (s : State) (cause : Cause)
    (info : Word) : FaultsPrecisely dec word s (s.raise cause info word) :=
  ⟨s.d, s.cf, s.can, s.carry, cause, info, rfl, fun _ => ⟨rfl, rfl⟩, fun _ => ⟨rfl, rfl⟩⟩

/-- No command completes into REJECT. -/
theorem Completes.runstate_ne_reject {i : Instr} {s t : State} (h : Completes i s t)
    (hs : s.runstate ≠ .reject) : t.runstate ≠ .reject := by
  rcases h.control with ⟨-, rfl⟩ | ⟨-, hk⟩
  · exact nofun
  · rcases hk.runstate with hsame | ⟨-, -, hact⟩ | ⟨-, -, hacc⟩
    · rwa [hsame]
    · simp [hact]
    · simp [hacc]

/-- A command that leaves REJECT behind in a state that is not terminal has faulted, with no other writes than
R117 allows it. -/
theorem exec_faultsPrecisely {i : Instr} {s t : State} (h : exec i s = .next t)
    (hl : s.runstate.terminal = false) (ht : t.runstate = .reject) :
    FaultsPrecisely (.ok i) (encode i) s t := by
  rcases exec_live h hl with ⟨cause, info, rfl⟩ | ⟨rfl, -, -, d, cf, info, rfl⟩ |
    ⟨sel, p, rfl, -, -, -, carry, info, rfl⟩ | hc
  · exact faultsPrecisely_raise _ _ s cause info
  · exact ⟨d, cf, s.can, s.carry, _, info, rfl, fun hne => absurd rfl hne, fun _ => ⟨rfl, rfl⟩⟩
  · exact ⟨s.d, s.cf, _, carry, _, info, rfl, fun _ => ⟨rfl, rfl⟩, fun hne => absurd rfl (hne sel)⟩
  · have hs : s.runstate ≠ .reject := fun h => by simp [h, RunState.terminal] at hl
    exact absurd ht (hc.runstate_ne_reject hs)

/-- The same of the accepted word, be it the word of a command or not. -/
theorem runCommand_faultsPrecisely {s t : State} (h : runCommand s = .next t)
    (hl : s.runstate.terminal = false) (ht : t.runstate = .reject) :
    FaultsPrecisely (decode s.cmd) s.cmd s t := by
  rcases runCommand_cases h with ⟨i, hi, he⟩ | ⟨e, -, rfl⟩
  · rw [hi, ← encode_of_decode hi]
    exact exec_faultsPrecisely he hl ht
  · rw [illegalCommand_live hl]
    exact faultsPrecisely_raise _ _ s .illegalCommand 0

/-- REJECT is entered by a word that runs in IDLE or ACTIVE (10_state.md R23). -/
theorem runs_of_enters_reject {s t : State} (h : step s = .next t) (hs : s.runstate ≠ .reject)
    (ht : t.runstate = .reject) : s.runs ∧ s.runstate.terminal = false := by
  obtain ⟨-, -, -, -, -, hallowed⟩ := runStateChangesOnlyAsAllowed
  rcases hallowed s t h with hsame | ⟨-, hact, -⟩ | ⟨-, hacc, -⟩ | ⟨hlive, -, hruns, -⟩ | ⟨hidle, -⟩
  · exact absurd (hsame ▸ ht) hs
  · simp [ht] at hact
  · simp [ht] at hacc
  · exact ⟨hruns, live_iff.mpr hlive⟩
  · simp [ht] at hidle

/-- Settles O32: a step into REJECT runs a word, and that word faults precisely. -/
theorem faultsArePrecise : Obligations.FaultsArePrecise := by
  intro s t h hs ht
  obtain ⟨hruns, hlive⟩ := runs_of_enters_reject h hs ht
  rw [step_of_runs hruns] at h
  obtain ⟨d, cf, can, carry, cause, info, rfl, hsubx, hcanon⟩ := runCommand_faultsPrecisely h hlive ht
  obtain ⟨hne, hle⟩ := cause_code cause
  have hpos : 1 ≤ cause.code.toNat :=
    Nat.one_le_iff_ne_zero.mpr fun h0 => hne (BitVec.eq_of_toNat_eq h0)
  exact ⟨hruns, hpos, hle, d, cf, can, carry, rfl, hsubx, hcanon⟩

end Sys2Proof.Machine
end

section
/-!
Reset and the liveness of the model (70_reset_and_hazards.md R128, R129, R137): the state after reset meets the
invariant, a reset at any moment is a CLR that forgets WMEM as well, and every command and every step answers a
next state.
-/

namespace Sys2Proof.Machine

/-! ## The state after reset (70_reset_and_hazards.md R129) -/

/-- A number that is replaced by 1 where it is 0 is not 0: what keeps the open parameters c and N in their ranges
(00_scope.md R9). -/
theorem ite_one_ne_zero {w : Nat} (hw : 0 < w) (raw : BitVec w) :
    (if raw = 0 then 1 else raw) ≠ 0 := by
  split
  · simp [Nat.ne_of_gt hw]
  · assumption

/-- After reset CROM holds parameters in range, whatever they are. -/
theorem reset_crom_wf : State.reset.crom.wf = true :=
  Bool.and_eq_true_iff.mpr ⟨decide_eq_true (ite_one_ne_zero (by decide) Config.rawC),
    decide_eq_true (ite_one_ne_zero (by decide) Config.rawN)⟩

/-- Settles O49: CLR of the state after reset is that state again, and CLR leaves the invariant behind. -/
theorem invariantHoldsAtReset : Obligations.InvariantHoldsAtReset :=
  clear_inv (s := State.reset) rfl reset_crom_wf

/-! ## A reset at any moment (70_reset_and_hazards.md R128, R129) -/

/-- A reset is taken whatever else goes on: a command in progress is abandoned. -/
theorem step_reset {s : State} {rest : List PortEvent} (h : s.port = .reset :: rest) :
    step s = .next { s with port := rest }.platformReset := by
  rw [step, h]

/-- The platform's reset is CLR with no byte of WMEM known and the next set of free bytes (log 7). -/
theorem platformReset_eq_clear (s : State) :
    s.platformReset = State.clear { s with wmem := [], resets := s.resets + 1 } := rfl

/-- CLR clears every progress flag (10_state.md R29). -/
theorem clear_noProgress (s : State) : s.clear.noProgress :=
  show State.reset.noProgress from invariantHoldsAtReset.fresh rfl

/-- After CLR STATUS shows IDLE and no flag (10_state.md R43). -/
theorem clear_statusWord (s : State) : s.clear.statusWord = 0 :=
  show State.reset.statusWord = 0 by decide

/-- After CLR the host reads no word of R (10_state.md R45). -/
theorem clear_resWord (s : State) (k : Nat) : s.clear.resWord k = 0 := rfl

/-- Settles O47: the reset values are those that CLR writes. -/
theorem resetLeavesTheResetValues : Obligations.ResetLeavesTheResetValues := by
  intro s rest h
  refine ⟨_, step_reset h, ?_⟩
  rw [platformReset_eq_clear]
  exact ⟨rfl, rfl, rfl, rfl, rfl, rfl, rfl, rfl, rfl, rfl, clear_noProgress _,
    fun k => Vector.getElem_replicate _, fun k => Vector.getElem_replicate _, rfl, rfl,
    clear_ck_index _, clear_can_index _, rfl, rfl, rfl, rfl, rfl,
    clear_statusWord _, clear_progressWord _, clear_resWord _⟩

/-! ## Every command answers a next state (40_word_arith.md R79, 60_exceptions.md R115) -/

/-- A command answers a next state if its body does: an ignored word and a SequenceError are next states. -/
theorem issue_answers {i : Instr} {s : State} {req : Bool} {body : Result} (h : ∃ t, body = .next t) :
    ∃ t, issue i s req body = .next t := by
  unfold issue
  split
  · exact ⟨_, rfl⟩
  · split
    · exact h
    · exact ⟨_, rfl⟩

/-- A choice between completing and a fault of 60_exceptions.md R114 answers a next state. -/
theorem ite_answers (test : Prop) [Decidable test] (t u : State) :
    ∃ v, (if test then .next t else .next u : Result) = .next v :=
  ⟨_, (apply_ite Host.Outcome.next test t u).symm⟩

/-- START answers a next state, be a declared length wrong or not. -/
theorem exec_start_answers (s : State) : ∃ t, exec .start s = .next t := by
  refine issue_answers ?_
  cases s.wrongLength with
  | none => exact ⟨_, rfl⟩
  | some k => exact ⟨_, rfl⟩

/-- With CROM in range every command answers a next state. For ACC, RED and CANON, which alone can stop, their
exact equations show the stops out of reach (93_implementation_defined.md U9, U10). -/
theorem exec_answers (i : Instr) {s : State} (hm : s.crom.wf = true) : ∃ t, exec i s = .next t := by
  by_cases hwf : i.WellFormed
  case neg => exact ⟨_, exec_of_not_wellFormed hwf s⟩
  cases i with
  | nop | ldz | ladder | fred | fin => exact issue_answers ⟨_, rfl⟩
  | start => exact exec_start_answers s
  | acc sel =>
    obtain ⟨src, hsel⟩ := Source.exists_ofSel (of_decide_eq_true hwf)
    rw [exec_acc hsel hm]
    exact issue_answers ⟨_, rfl⟩
  | red sel =>
    obtain ⟨src, hsel⟩ := Source.exists_ofSel (of_decide_eq_true hwf)
    rw [exec_red hsel hm]
    exact issue_answers ⟨_, rfl⟩
  | chk sel =>
    obtain ⟨j, hsel⟩ := Identity.exists_ofSel (of_decide_eq_true hwf)
    rw [exec_chk hsel hm]
    exact issue_answers (ite_answers _ _ _)
  | canon sel =>
    obtain ⟨p, hsel⟩ := Product.exists_ofSel (of_decide_eq_true hwf)
    rw [exec_canon hsel]
    exact issue_answers (ite_answers _ _ _)
  | subx =>
    rw [exec_subx]
    exact issue_answers (ite_answers _ _ _)
  | clr => exact ⟨_, exec_clr s⟩

/-! ## Every step answers a next state (70_reset_and_hazards.md R137) -/

/-- The word that runs answers a next state, be it the word of a command or not. -/
theorem runCommand_answers {s : State} (hm : s.crom.wf = true) : ∃ t, runCommand s = .next t := by
  by_cases hill : ∃ i, decode s.cmd = .ok i
  · obtain ⟨i, hi⟩ := hill
    rw [runCommand_of_decode hi]
    exact exec_answers i hm
  · exact ⟨_, runCommand_of_illegal (not_exists.mp hill)⟩

/-- What a state does next: it waits, takes a reset, takes an access, or runs the accepted word. -/
theorem waits_or_resets_or_takes_or_runs (s : State) :
    (s.port = [] ∧ s.busy = false) ∨ (∃ rest, s.port = .reset :: rest) ∨
      (∃ a rest, s.takes a rest) ∨ s.runs := by
  cases hp : s.port with
  | nil =>
    cases hb : s.busy
    case false => exact .inl ⟨rfl, rfl⟩
    case true => exact .inr (.inr (.inr ⟨hb, by simp [State.nothingPrecedes, hp]⟩))
  | cons e rest =>
    cases e with
    | reset => exact .inr (.inl ⟨rest, rfl⟩)
    | access whileBusy a =>
      by_cases htakes : s.busy = false ∨ whileBusy = true
      · exact .inr (.inr (.inl ⟨a, rest, whileBusy, hp, htakes⟩))
      · obtain ⟨hb, hwait⟩ : s.busy = true ∧ whileBusy = false := by simpa using htakes
        exact .inr (.inr (.inr ⟨hb, by simp [State.nothingPrecedes, hp, hwait,
          PortEvent.precedesCompletion]⟩))

/-- With CROM in range every step answers a next state: only the word that runs could stop. -/
theorem step_answers {s : State} (hm : s.crom.wf = true) : ∃ t, step s = .next t := by
  rcases waits_or_resets_or_takes_or_runs s with ⟨hp, hb⟩ | ⟨rest, hp⟩ | ⟨a, rest, ht⟩ | hruns
  · exact ⟨s, idleMachineWaits s hp hb⟩
  · exact ⟨_, step_reset hp⟩
  · exact ⟨_, step_takes ht⟩
  · rw [step_of_runs hruns]
    exact runCommand_answers hm

/-- Settles O29: a command answers a next state in every state, and so does a step, whatever comes next. -/
theorem everyStepAnswersANextState : Obligations.EveryStepAnswersANextState :=
  ⟨fun i _ hm => exec_answers i hm, fun _ hm => step_answers hm⟩

end Sys2Proof.Machine
end
